-- ==== Sys2Proof/Word.lean ====
section
/-! DEFINITION. The word types of the block: each abbreviates a bit vector of the width the spec states
(00_scope.md "Notation", R9, R10). Nothing in the block is signed. -/

namespace Sys2Proof

/-- A byte: bus data, frame bytes, the 8-bit registers (00_scope.md R9). -/
abbrev Byte := BitVec 8

/-- A bus byte address, 0x000..0x3FF (00_scope.md R9). -/
abbrev Addr := BitVec 10

/-- A value of the running register (10_state.md R17). -/
abbrev Crc := BitVec 16

/-- A frame length, 0..511, and the sequencer's indices (00_scope.md R10; 10_state.md R28). -/
abbrev Len := BitVec 9

/-- A host transaction word: W at bit 18, A at bits 17:8, D at bits 7:0 (30_encoding.md R53). -/
abbrev Txn := BitVec 19

end Sys2Proof
end

