-- ==== Sys2Proof/Config.lean ====
section
/-! DEFINITION. The implementation parameters of 00_scope.md R4 to R10 and the one free value of the model. -/

namespace Sys2Proof.Config

/-- CRC_LEN: a frame's CRC trailer is 2 bytes (00_scope.md R4). -/
def crcLen : Nat := 2

/-- FRAME_MIN = 2 + CRC_LEN = 4 (00_scope.md R5). -/
def frameMin : Nat := 2 + crcLen

/-- FRAME_MAX = 256 + CRC_LEN = 258 (00_scope.md R5). -/
def frameMax : Nat := 256 + crcLen

/-- BUF_SIZE: BUF has the indices 0..257 (00_scope.md R8). -/
def bufSize : Nat := frameMax

/-- BUILD_MIN (00_scope.md R10). -/
def buildMin : Nat := 2

/-- BUILD_MAX (00_scope.md R10). -/
def buildMax : Nat := 256

/-- `any_byte()`: the unspecified byte that the n-th busy read of an address other than STATUS returns
(70_reset_and_hazards.md R128: "may differ between two reads"). No body: nothing is provable of its value.
FREE VALUE, notes/assumptions/3.md. -/
opaque anyByte : Nat → Byte

end Sys2Proof.Config
end

