-- ==== Sys2Proof/Machine/State.lean ====
section
/-! DEFINITION. The state: every piece of state 10_state.md R14 gives the block ("exactly the following"), and beside
it the model's own fields for the other two agents (R13). Plain data. -/

namespace Sys2Proof.Machine

/-- `phase` (10_state.md R28). -/
inductive Phase where
  | idle
  | feed
  | finish
  deriving DecidableEq, Repr

/-- `op`, the running operation (10_state.md R28). -/
inductive SeqOp where
  | feedOp
  | crcBuf
  | build
  | parse
  deriving DecidableEq, Repr

/-- The ERR field of STATUS (10_state.md R15; 60_exceptions.md R107). -/
inductive ErrCode where
  | noError
  | wrongLength
  | wrongCrc
  | wrongAddress
  deriving DecidableEq, Repr

/-- The agents whose atomic steps interleave (10_state.md R13; 20_memory.md R47). -/
inductive Agent where
  | host
  | sequencer
  | reset
  deriving DecidableEq, Repr

/-- What the host does next: one transaction, or the `poll` loop, which reads STATUS until BUSY = 0
(30_encoding.md R63). -/
inductive HostOp where
  | txn (w : Txn)
  | poll
  deriving DecidableEq, Repr

/-- BUF as the list of the bytes written since reset, indices strictly rising. An unlisted index reads as no
value: `wbuf[i]` (10_state.md R30) is whether `i` is listed (notes/assumptions/4.md). -/
abbrev Memory := List Host.Cell

/-- The block's state and the two other agents. STATUS.BUSY is no field: it is computed from `phase`
(10_state.md R23; notes/assumptions/8.md). -/
structure State where
  /-- CMDR (10_state.md R22). -/
  cmdr : Byte
  /-- STATUS.DONE (10_state.md R24). -/
  done : Bool
  /-- STATUS.ERR (10_state.md R25). -/
  err : ErrCode
  /-- STATUS.MATCH (10_state.md R26). -/
  matched : Bool
  /-- STATUS.SENT (10_state.md R26). -/
  sent : Bool
  /-- STATUS.CMDERR (10_state.md R26). -/
  cmderr : Bool
  /-- STATUS.OVR (10_state.md R26). -/
  ovr : Bool
  /-- LEN (10_state.md R16). -/
  len : Len
  /-- EXP_ADDR (10_state.md R18). -/
  expAddr : Byte
  /-- CRC, the running register (10_state.md R17). -/
  crc : Crc
  /-- PLEN (10_state.md R21). -/
  plen : Byte
  /-- CAND_LO (10_state.md R19). -/
  candLo : Byte
  /-- CAND_HI (10_state.md R19). -/
  candHi : Byte
  /-- BUF (10_state.md R20), and with it wbuf (10_state.md R30). -/
  buf : Memory
  /-- `phase` (10_state.md R28). -/
  phase : Phase
  /-- `op` (10_state.md R28). -/
  op : SeqOp
  /-- `idx`, the index of the byte being fed (10_state.md R28). -/
  idx : Len
  /-- `endi`, one past the last index to feed (10_state.md R28). -/
  endi : Len
  /-- `k`, the index of the next bit (10_state.md R28). -/
  k : BitVec 3
  /-- `sreg`, the unshifted remainder of the byte (10_state.md R28). -/
  sreg : Byte
  /-- MODEL'S OWN: what the host has still to do, in issue order (20_memory.md R46; notes/assumptions/2.md). -/
  pending : List HostOp
  /-- MODEL'S OWN: which agent takes each of the next steps (20_memory.md R47; notes/assumptions/1.md). -/
  sched : List Agent
  /-- MODEL'S OWN: the bytes host reads returned, newest first (30_encoding.md R63; notes/assumptions/6.md). -/
  results : List Byte
  /-- MODEL'S OWN: how many free draws were taken (70_reset_and_hazards.md R128; notes/assumptions/3.md). -/
  draws : Nat
  deriving DecidableEq, Repr

/-- Why a step stops with a fault. Neither is a hardware event (00_scope.md "Faults of the model"). -/
inductive Fault where
  /-- `ModelFault(UnwrittenBufRead)`: a host read, a feed micro-step, an acceptance or a finish step consumed BUF[i]
  while `wbuf[i]` is false (10_state.md R30; 70_reset_and_hazards.md R122). Safe: the hardware goes on with a byte the
  spec does not name. -/
  | unwrittenBufRead (i : Nat)
  /-- An access to an index of BUF that does not exist, `i >= 258` (10_state.md R20). Raised by the same readers, by
  BUILD's finish step and by a WR_BUF outside its window. Safe: no decoded word and no reachable state raises it
  (00_scope.md R12; notes/assumptions/5.md). -/
  | noSuchBufByte (i : Nat)
  deriving DecidableEq, Repr

/-- Why an instruction has no meaning. -/
inductive Refusal where
  /-- An arm of `exec` whose instruction has no meaning yet. No arm raises it: every instruction has its meaning.
  Safe. -/
  | notModelled (mnemonic : String)
  deriving DecidableEq, Repr

/-- The machine right after reset: 70_reset_and_hazards.md R121 for every register of the block, no byte of BUF written
(R122). The model's own fields are empty: no host program, no chosen schedule, no read, no draw
(DESIGN CHOICE, notes/assumptions/1.md, 2.md, 3.md and 6.md). -/
def State.reset : State where
  cmdr := 0x00#8
  done := false
  err := .noError
  matched := false
  sent := false
  cmderr := false
  ovr := false
  len := 0#9
  expAddr := 0x00#8
  crc := 0xFFFF#16
  plen := 0x00#8
  candLo := 0x00#8
  candHi := 0x00#8
  buf := []
  phase := .idle
  op := .feedOp
  idx := 0#9
  endi := 0#9
  k := 0#3
  sreg := 0x00#8
  pending := []
  sched := []
  results := []
  draws := 0

/-- What one step of the model answers. -/
abbrev Result := Host.Outcome State Fault Refusal

end Sys2Proof.Machine
end

