-- ==== Sys2Proof/Machine/Crc16.lean ====
section
/-! DEFINITION. The CRC functions of 40_crc.md R67 to R70 and R80, and the frame functions of 41_frame.md R81 and R85.
They compute on bytes alone; no state. -/

namespace Sys2Proof.Machine

/-- CRC_POLY, the reflected polynomial (00_scope.md R6). -/
def crcPoly : Crc := 0xA001#16

/-- CRC_INIT, the initial value (00_scope.md R6). -/
def crcInit : Crc := 0xFFFF#16

/-- SENTINEL (00_scope.md R7). -/
def sentinel : Byte := 0x05#8

/-- `crc_step`, the bit step (40_crc.md R67). -/
def crcStep (c : Crc) (d : Bool) : Crc :=
  if (c.getLsbD 0 ^^ d) then (c >>> 1) ^^^ crcPoly else c >>> 1

/-- The register after the first `j` bits of `b`, LSB first (40_crc.md R68). -/
def crcBits (c : Crc) (b : Byte) : Nat → Crc
  | 0 => c
  | j + 1 => crcStep (crcBits c b j) (b.getLsbD j)

/-- `crc_byte`, the byte step (40_crc.md R69). -/
def crcByte (c : Crc) (b : Byte) : Crc := crcBits c b 8

/-- One round of the byte-wise form: `(c1 >> 1) XOR (c1[0] ? 0xA001 : 0)` (40_crc.md R69). -/
def crcRound (c : Crc) : Crc := (c >>> 1) ^^^ (if c.getLsbD 0 then crcPoly else 0)

/-- The byte-wise form: `c XOR zext_16(b)`, then eight rounds (40_crc.md R69). -/
def crcByteWise (c : Crc) (b : Byte) : Crc := Nat.iterate crcRound 8 (c ^^^ b.setWidth 16)

/-- `crc16` (40_crc.md R70). -/
def crc16 (s : List Byte) : Crc := s.foldl crcByte crcInit

/-- A register value as its two bytes, low byte first (40_crc.md R70; 20_memory.md R43). -/
def crcBytes (c : Crc) : Byte × Byte := (c.extractLsb' 0 8, c.extractLsb' 8 8)

/-- `compute`: [low byte, high byte] (40_crc.md R70). -/
def compute (s : List Byte) : Byte × Byte := crcBytes (crc16 s)

/-- `matches`: byte-wise equality, order-sensitive (40_crc.md R80). -/
def crcMatches (a b : Byte × Byte) : Bool := a.1 == b.1 && a.2 == b.2

/-- A trailer as two frame bytes (20_memory.md R43). -/
def trailerBytes (t : Byte × Byte) : List Byte := [t.1, t.2]

/-- `build` (41_frame.md R81). -/
def buildFrame (address command : Byte) (params : List Byte) : List Byte :=
  ([address, command] ++ params) ++ trailerBytes (compute ([address, command] ++ params))

/-- `parse` (41_frame.md R85), its checks in that order: length, CRC, address. The error is never `noError`. -/
def parseFrame (r : List Byte) (e : Byte) : Except ErrCode (List Byte) :=
  if r.length < Config.frameMin ∨ Config.frameMax < r.length then .error .wrongLength
  else if r.drop (r.length - 2) ≠ trailerBytes (compute (r.take (r.length - 2))) then .error .wrongCrc
  else if r.head? ≠ some e then .error .wrongAddress
  else .ok ((r.take (r.length - 2)).drop 1)

end Sys2Proof.Machine
end

