-- ==== Sys2Proof/Machine/Ops.lean ====
section
/-! DEFINITION. The named operations over memory and registers that the meanings share: BUF, acceptance, completion,
the busy-write rule, the start of a busy window, the reset event. The block has no exception entry and no return from
one (60_exceptions.md R111, R113): an error is a status code written at completion, by `commandError` and
`parseError` below. -/

namespace Sys2Proof.Machine

/-- The canonical form: indices strictly rising, all of them indices of BUF (10_state.md R20). No entry is equal to
what an unlisted index reads as, since that is no value. -/
abbrev Memory.wf (m : Memory) : Prop :=
  m.Pairwise (fun c d => c.1 < d.1) ∧ ∀ c ∈ m, c.1 < Config.bufSize

/-- The byte at an index, or none where nothing was written since reset (70_reset_and_hazards.md R122). -/
def Memory.readByte : Memory → Nat → Option Byte
  | [], _ => none
  | (a, v) :: m, i => if i = a then some v else Memory.readByte m i

/-- Write one byte, keeping the canonical form. -/
def Memory.writeByte : Memory → Nat → Byte → Memory
  | [], i, v => [(i, v)]
  | (a, w) :: m, i, v =>
    if i < a then (i, v) :: (a, w) :: m
    else if i = a then (i, v) :: m
    else (a, w) :: Memory.writeByte m i v

/-- The `n` bytes from index `i` on, or none where one of them is unwritten (00_scope.md "Sequences"). -/
def Memory.slice (m : Memory) (i : Nat) : Nat → Option (List Byte)
  | 0 => some []
  | n + 1 =>
    match Memory.readByte m i, Memory.slice m (i + 1) n with
    | some b, some r => some (b :: r)
    | _, _ => none

/-- `wbuf[i]`: BUF[i] was written since reset (10_state.md R30). -/
def State.wbuf (s : State) (i : Nat) : Bool := (s.buf.readByte i).isSome

/-- Read BUF[i]: its byte, or the model fault of 10_state.md R30; an index of 258 or more does not exist (R20). -/
def State.readBuf (s : State) (i : Nat) : Except Fault Byte :=
  if i < Config.bufSize then
    match s.buf.readByte i with
    | some b => .ok b
    | none => .error (.unwrittenBufRead i)
  else .error (.noSuchBufByte i)

/-- Go on with BUF[i]; every operation that consumes a byte of BUF does so through this. -/
def State.withBufByte (s : State) (i : Nat) (go : Byte → Result) : Result :=
  match s.readBuf i with
  | .ok b => go b
  | .error f => .fault f

/-- BUF[i] <- v; wbuf[i] <- true (42_host_access.md R102; 41_frame.md R84). -/
def State.writeBuf (s : State) (i : Nat) (v : Byte) : State := { s with buf := s.buf.writeByte i v }

/-- Store BUF[i] and with it wbuf[i] (42_host_access.md R102; 41_frame.md R84), and go on. -/
def State.storeBufByte (s : State) (i : Nat) (v : Byte) (go : State → Result) : Result :=
  if i < Config.bufSize then go (s.writeBuf i v) else .fault (.noSuchBufByte i)

/-- STATUS.BUSY: 1 exactly when `phase != IDLE` (10_state.md R23). -/
def State.busy (s : State) : Bool :=
  match s.phase with
  | .idle => false
  | .feed => true
  | .finish => true

/-- What acceptance clears: every flag but BUSY (10_state.md R27). -/
def State.clearFlags (s : State) : State :=
  { s with done := false, err := .noError, matched := false, sent := false, cmderr := false, ovr := false }

/-- CMDR <- c (10_state.md R22). -/
def State.setCmdr (s : State) (c : Byte) : State := { s with cmdr := c }

/-- The sequencer position, `idx` and `k`, as every acceptance leaves it: 0, the acceptance of an immediate operation
included (10_state.md R29; notes/assumptions/21.md). -/
def State.resetPosition (s : State) : State := { s with idx := 0#9, k := 0#3 }

/-- Acceptance of a CMD write of code `c` (10_state.md R27, R29, R22). -/
def State.acceptCmd (s : State) (c : Byte) : State := s.clearFlags.resetPosition.setCmdr c

/-- Acceptance of a CRC_DATA write: CMDR is unchanged (10_state.md R27, R29, R22). -/
def State.acceptData (s : State) : State := s.clearFlags.resetPosition

/-- LEN <- n (10_state.md R16). -/
def State.setLen (s : State) (n : Len) : State := { s with len := n }

/-- EXP_ADDR <- v (10_state.md R18). -/
def State.setExpAddr (s : State) (v : Byte) : State := { s with expAddr := v }

/-- CAND_LO <- v (10_state.md R19). -/
def State.setCandLo (s : State) (v : Byte) : State := { s with candLo := v }

/-- CAND_HI <- v (10_state.md R19). -/
def State.setCandHi (s : State) (v : Byte) : State := { s with candHi := v }

/-- CRC <- 0xFFFF (10_state.md R17). -/
def State.loadCrc (s : State) : State := { s with crc := crcInit }

/-- MATCH <- m (10_state.md R26). -/
def State.setMatch (s : State) (m : Bool) : State := { s with matched := m }

/-- The completion of an immediate operation (10_state.md R24, R31). -/
def State.complete (s : State) : State := { s with done := true }

/-- A command error: CMDERR together with DONE (60_exceptions.md R108). -/
def State.commandError (s : State) : State := { s with cmderr := true, done := true }

/-- What PARSE records with an error code: PLEN = 0 and SENT = 0 (60_exceptions.md R107). -/
def State.parseError (s : State) (m : Bool) (e : ErrCode) : State :=
  { s with matched := m, err := e, plen := 0x00#8, sent := false }

/-- The busy-write rule: STATUS.OVR <- 1 and nothing else (70_reset_and_hazards.md R127). -/
def State.overrun (s : State) : State := { s with ovr := true }

/-- A host write with the effect `go` while idle; while busy it is dropped (70_reset_and_hazards.md R127). -/
def State.hostWrite (s : State) (go : State → Result) : Result :=
  if s.busy then .next s.overrun else go s

/-- The result of a host read reaches the host (30_encoding.md R63). -/
def State.returnByte (s : State) (b : Byte) : State := { s with results := b :: s.results }

/-- `any_byte()`: the next free draw (70_reset_and_hazards.md R128). -/
def State.returnDraw (s : State) : State :=
  { s with results := Config.anyByte s.draws :: s.results, draws := s.draws + 1 }

/-- The sequencer's start at the acceptance of a non-immediate operation: `n` bytes to feed, the first of them `b`
(10_state.md R34). -/
def State.startFeed (s : State) (o : SeqOp) (n : Len) (b : Byte) : State :=
  { s with idx := 0#9, k := 0#3, phase := .feed, op := o, endi := n, sreg := b }

/-- The start of CRC_BUF, BUILD and PARSE: CRC <- 0xFFFF and the first byte from BUF[0] (40_crc.md R75; 41_frame.md
R82, R86). -/
def State.startOverBuf (s : State) (o : SeqOp) (n : Len) : Result :=
  s.withBufByte 0 fun b => .next (s.loadCrc.startFeed o n b)

/-- The end of a finish micro-step: idle, DONE (10_state.md R33). -/
def State.settle (s : State) : State := { s with phase := .idle, done := true }

/-- A reset event: every register at its 70_reset_and_hazards.md R121 value, no byte of BUF written (R122), a running
operation ended without completion (R123). The host's side is not the block's and stays (notes/assumptions/7.md). -/
def State.resetEvent (s : State) : State :=
  { State.reset with pending := s.pending, sched := s.sched, results := s.results, draws := s.draws }

end Sys2Proof.Machine
end

