-- ==== Sys2Proof/Machine/Operands.lean ====
section
/-! DEFINITION. The operand forms: LEN by its two bytes (10_state.md R16), the window index of a BUF address
(20_memory.md R39), the operands of 30_encoding.md R62, and the lengths each operation feeds (10_state.md R31). -/

namespace Sys2Proof.Machine

/-- LEN_LO: LEN[7:0] (10_state.md R16). -/
def lenLo (n : Len) : Byte := n.extractLsb' 0 8

/-- LEN_HI: LEN[8] in bit 0, bits 7:1 read 0 (10_state.md R16). -/
def lenHi (n : Len) : Byte := (n.extractLsb' 8 1).setWidth 8

/-- LEN with LEN[7:0] written (42_host_access.md R98). -/
def withLenLo (n : Len) (v : Byte) : Len := n.extractLsb' 8 1 ++ v

/-- LEN with LEN[8] written from v[0]; v[7:1] ignored (42_host_access.md R99). -/
def withLenHi (n : Len) (v : Byte) : Len := v.extractLsb' 0 1 ++ n.extractLsb' 0 8

/-- CRC_LO: CRC[7:0] (10_state.md R17). -/
def crcLo (c : Crc) : Byte := c.extractLsb' 0 8

/-- CRC_HI: CRC[15:8] (10_state.md R17). -/
def crcHi (c : Crc) : Byte := c.extractLsb' 8 8

/-- The index of BUF at the bus address `a`: a - 0x100 (20_memory.md R39). For `a` below the window the 10-bit
difference wraps to an index BUF does not have. -/
def bufIndex (a : Addr) : Nat := (a - 0x100#10).toNat

/-- The candidate of CRC_MATCH (30_encoding.md R62). -/
def State.candidate (s : State) : Byte × Byte := (s.candLo, s.candHi)

/-- The computed side of CRC_MATCH and PARSE: [CRC[7:0], CRC[15:8]] (30_encoding.md R62). -/
def State.computed (s : State) : Byte × Byte := (crcLo s.crc, crcHi s.crc)

/-- The index of PARSE's first trailer byte, LEN-2 (30_encoding.md R62). -/
def State.trailerLoIndex (s : State) : Nat := (s.len - 2#9).toNat

/-- The index of PARSE's second trailer byte, LEN-1 (30_encoding.md R62). -/
def State.trailerHiIndex (s : State) : Nat := (s.len - 1#9).toNat

/-- PLEN after a successful PARSE, LEN-3 (41_frame.md R88). -/
def State.payloadLen (s : State) : Byte := (s.len - 3#9).setWidth 8

/-- LEN is in BUILD's range 2..256 (41_frame.md R82). -/
def State.buildInRange (s : State) : Bool :=
  decide (Config.buildMin ≤ s.len.toNat ∧ s.len.toNat ≤ Config.buildMax)

/-- LEN is in PARSE's range 4..258 (41_frame.md R86). -/
def State.parseInRange (s : State) : Bool :=
  decide (Config.frameMin ≤ s.len.toNat ∧ s.len.toNat ≤ Config.frameMax)

/-- LEN is at most 258, CRC_BUF's range (40_crc.md R75). -/
def State.crcBufInRange (s : State) : Bool := decide (s.len.toNat ≤ Config.bufSize)

end Sys2Proof.Machine
end

