-- ==== Sys2Proof/Machine/Flags.lean ====
section
/-! DEFINITION. The STATUS byte (10_state.md R15) and every flag value an operation computes (R24 to R26). -/

namespace Sys2Proof.Machine

/-- The two bits of ERR (10_state.md R15). -/
def ErrCode.bits : ErrCode → BitVec 2
  | .noError => 0b00#2
  | .wrongLength => 0b01#2
  | .wrongCrc => 0b10#2
  | .wrongAddress => 0b11#2

/-- STATUS: OVR, CMDERR, SENT, MATCH, ERR, DONE, BUSY from bit 7 down to bit 0 (10_state.md R15). -/
def State.statusByte (s : State) : Byte :=
  BitVec.ofBool s.ovr ++ BitVec.ofBool s.cmderr ++ BitVec.ofBool s.sent ++ BitVec.ofBool s.matched ++
    s.err.bits ++ BitVec.ofBool s.done ++ BitVec.ofBool s.busy

/-- MATCH as CRC_MATCH sets it (40_crc.md R79). -/
def State.matchFlag (s : State) : Bool := crcMatches s.candidate s.computed

/-- SENT as a successful PARSE sets it: `(LEN == 4) AND (BUF[1] == 0x05)` (41_frame.md R87, R89). -/
def sentFlag (n : Len) (b1 : Byte) : Bool := n == 4#9 && b1 == sentinel

end Sys2Proof.Machine
end

