-- ==== Sys2Proof/Machine/Sequencer.lean ====
section
/-! DEFINITION. The sequencer: the feed micro-step (10_state.md R32) and the finish micro-step (R33) with the finish
actions of 40_crc.md R74, R76 and 41_frame.md R84, R87. -/

namespace Sys2Proof.Machine

/-- A feed micro-step inside a byte: CRC takes sreg[0], sreg shifts, k counts on (10_state.md R32). -/
def State.feedBit (s : State) : State :=
  { s with crc := crcStep s.crc (s.sreg.getLsbD 0), sreg := s.sreg >>> 1, k := s.k + 1#3 }

/-- The feed micro-step of a byte's last bit, with `b` the next byte to feed (10_state.md R32). -/
def State.feedNextByte (s : State) (b : Byte) : State :=
  { s with crc := crcStep s.crc (s.sreg.getLsbD 0), sreg := b, k := 0#3, idx := s.idx + 1#9 }

/-- The feed micro-step of the last byte's last bit (10_state.md R32). -/
def State.feedLastBit (s : State) : State :=
  { s with
    crc := crcStep s.crc (s.sreg.getLsbD 0)
    sreg := s.sreg >>> 1
    k := 0#3
    idx := s.idx + 1#9
    phase := .finish }

/-- The feed micro-step (10_state.md R32). The comparison is with the incremented idx. -/
def State.feedStep (s : State) : Result :=
  if s.k = 7#3 then
    if s.idx + 1#9 = s.endi then .next s.feedLastBit
    else s.withBufByte (s.idx + 1#9).toNat fun b => .next (s.feedNextByte b)
  else .next s.feedBit

/-- FEED_OP's finish action is empty (40_crc.md R74). -/
def State.finishFeed (s : State) : Result := .next s.settle

/-- CRC_BUF's finish action is empty (40_crc.md R76). -/
def State.finishCrcBuf (s : State) : Result := .next s.settle

/-- BUILD's finish action: the trailer at BUF[LEN] and BUF[LEN+1], low byte first, and LEN + 2 (41_frame.md R84). -/
def State.finishBuild (s : State) : Result :=
  s.storeBufByte s.len.toNat (crcLo s.crc) fun s1 =>
    s1.storeBufByte (s.len.toNat + 1) (crcHi s.crc) fun s2 =>
      .next (s2.setLen (s.len + 2#9)).settle

/-- PARSE's success: MATCH = 1, ERR = 00, PLEN = LEN-3, SENT (41_frame.md R87 to R89). -/
def State.parseOk (s : State) (sent : Bool) : State :=
  { s with matched := true, err := .noError, plen := s.payloadLen, sent := sent }

/-- The end of a PARSE that passed both checks. BUF[1] is read only where SENT depends on it, LEN = 4 (41_frame.md R87;
notes/assumptions/14.md). -/
def State.parseSuccess (s : State) : Result :=
  if s.len = 4#9 then s.withBufByte 1 fun p => .next (s.parseOk (sentFlag s.len p)).settle
  else .next (s.parseOk false).settle

/-- PARSE's finish action: the CRC check, then the address check (41_frame.md R87). -/
def State.finishParse (s : State) : Result :=
  s.withBufByte s.trailerLoIndex fun lo =>
    s.withBufByte s.trailerHiIndex fun hi =>
      if crcMatches (lo, hi) s.computed then
        s.withBufByte 0 fun a =>
          if a = s.expAddr then s.parseSuccess else .next (s.parseError true .wrongAddress).settle
      else .next (s.parseError false .wrongCrc).settle

/-- The finish micro-step of the running operation (10_state.md R33). -/
def State.finishStep (s : State) : Result :=
  match s.op with
  | .feedOp => s.finishFeed
  | .crcBuf => s.finishCrcBuf
  | .build => s.finishBuild
  | .parse => s.finishParse

/-- The sequencer's step: enabled exactly when `phase != IDLE` (10_state.md R31). A sequencer that is not enabled
changes nothing (60_exceptions.md R120; notes/assumptions/10.md). -/
def State.sequencerStep (s : State) : Result :=
  match s.phase with
  | .idle => .next s
  | .feed => s.feedStep
  | .finish => s.finishStep

end Sys2Proof.Machine
end

