-- ==== Sys2Proof/Machine/CrcOps.lean ====
section
/-! DEFINITION. The CRC family: CRC_INIT, CRC_FEED, CRC_BUF, CRC_MATCH (40_crc.md R73 to R79). -/

namespace Sys2Proof.Machine

/-- CRC_INIT (40_crc.md R73). -/
def execCrcInit (s : State) : Host.Outcome State Fault Refusal :=
  s.hostWrite fun s => .next (s.acceptCmd 0x01#8).loadCrc.complete

/-- CRC_FEED of the byte `v`: one byte to feed, CRC not reinitialised (40_crc.md R74). -/
def execCrcFeed (v : Byte) (s : State) : Host.Outcome State Fault Refusal :=
  s.hostWrite fun s => .next (s.acceptData.startFeed .feedOp 1#9 v)

/-- CRC_BUF, acceptance (40_crc.md R75). -/
def execCrcBuf (s : State) : Host.Outcome State Fault Refusal :=
  s.hostWrite fun s =>
    if s.crcBufInRange then
      if s.len = 0#9 then .next (s.acceptCmd 0x02#8).loadCrc.complete
      else (s.acceptCmd 0x02#8).startOverBuf .crcBuf s.len
    else .next (s.acceptCmd 0x02#8).commandError

/-- CRC_MATCH (40_crc.md R79). -/
def execCrcMatch (s : State) : Host.Outcome State Fault Refusal :=
  s.hostWrite fun s => .next ((s.acceptCmd 0x03#8).setMatch s.matchFlag).complete

end Sys2Proof.Machine
end

