-- ==== Sys2Proof/Machine/Frame.lean ====
section
/-! DEFINITION. The frame family: BUILD and PARSE at acceptance (41_frame.md R82, R86). Their finish actions are the
sequencer's (Machine/Sequencer.lean). -/

namespace Sys2Proof.Machine

/-- BUILD, acceptance (41_frame.md R82). -/
def execBuild (s : State) : Host.Outcome State Fault Refusal :=
  s.hostWrite fun s =>
    if s.buildInRange then (s.acceptCmd 0x04#8).startOverBuf .build s.len
    else .next (s.acceptCmd 0x04#8).commandError

/-- PARSE, acceptance and the length check; LEN-2 bytes to feed (41_frame.md R86). -/
def execParse (s : State) : Host.Outcome State Fault Refusal :=
  s.hostWrite fun s =>
    if s.parseInRange then (s.acceptCmd 0x05#8).startOverBuf .parse (s.len - 2#9)
    else .next ((s.acceptCmd 0x05#8).parseError false .wrongLength).complete

end Sys2Proof.Machine
end

