-- ==== Sys2Proof/Syntax.lean ====
section
/-! DEFINITION. The syntax: one constructor for each operation a transaction word can name (30_encoding.md R55),
that is, for each mnemonic of opcode_table.json (notes/assumptions/15.md). -/

namespace Sys2Proof

/-- A host transaction, read as an operation (30_encoding.md R55). The address operand of `wrRo`, `wrBuf` and
`wrRsvd` is the bus address A; `WellFormed` says which addresses each admits. -/
inductive Instr where
  | rd (a : Addr)                   -- RD, 42_host_access.md R95
  | nop                             -- NOP, 42_host_access.md R93
  | crcInit                         -- CRC_INIT, 40_crc.md R73
  | crcBuf                          -- CRC_BUF, 40_crc.md R75
  | crcMatch                        -- CRC_MATCH, 40_crc.md R79
  | build                           -- BUILD, 41_frame.md R82
  | parse                           -- PARSE, 41_frame.md R86
  | cmdIllegal (c : Byte)           -- CMD_ILLEGAL, 42_host_access.md R94
  | wrRo (a : Addr) (v : Byte)      -- WR_RO, 42_host_access.md R105
  | wrLenLo (v : Byte)              -- WR_LEN_LO, 42_host_access.md R98
  | wrLenHi (v : Byte)              -- WR_LEN_HI, 42_host_access.md R99
  | wrExpAddr (v : Byte)            -- WR_EXP_ADDR, 42_host_access.md R100
  | crcFeed (v : Byte)              -- CRC_FEED, 40_crc.md R74
  | wrCandLo (v : Byte)             -- WR_CAND_LO, 42_host_access.md R101
  | wrCandHi (v : Byte)             -- WR_CAND_HI, 42_host_access.md R101
  | wrBuf (a : Addr) (v : Byte)     -- WR_BUF, 42_host_access.md R102
  | wrRsvd (a : Addr) (v : Byte)    -- WR_RSVD, 42_host_access.md R104
  deriving DecidableEq, Repr

/-- The operation's name in opcode_table.json. -/
def Instr.mnemonic : Instr → String
  | .rd _ => "RD"
  | .nop => "NOP"
  | .crcInit => "CRC_INIT"
  | .crcBuf => "CRC_BUF"
  | .crcMatch => "CRC_MATCH"
  | .build => "BUILD"
  | .parse => "PARSE"
  | .cmdIllegal _ => "CMD_ILLEGAL"
  | .wrRo _ _ => "WR_RO"
  | .wrLenLo _ => "WR_LEN_LO"
  | .wrLenHi _ => "WR_LEN_HI"
  | .wrExpAddr _ => "WR_EXP_ADDR"
  | .crcFeed _ => "CRC_FEED"
  | .wrCandLo _ => "WR_CAND_LO"
  | .wrCandHi _ => "WR_CAND_HI"
  | .wrBuf _ _ => "WR_BUF"
  | .wrRsvd _ _ => "WR_RSVD"

/-- Whether the operation is a bus write: every operation but RD (30_encoding.md R55). -/
def Instr.isWrite : Instr → Bool
  | .rd _ => false
  | .nop => true
  | .crcInit => true
  | .crcBuf => true
  | .crcMatch => true
  | .build => true
  | .parse => true
  | .cmdIllegal _ => true
  | .wrRo _ _ => true
  | .wrLenLo _ => true
  | .wrLenHi _ => true
  | .wrExpAddr _ => true
  | .crcFeed _ => true
  | .wrCandLo _ => true
  | .wrCandHi _ => true
  | .wrBuf _ _ => true
  | .wrRsvd _ _ => true

end Sys2Proof
end

