-- ==== Sys2Proof/WellFormed.lean ====
section
/-! DEFINITION. Which operands each operation of `Instr` admits, by the address and code ranges of 30_encoding.md
R55. A transaction word always decodes to a well-formed operation (R54). -/

namespace Sys2Proof

/-- The read-only registers STATUS, CRC_LO, CRC_HI and PLEN (30_encoding.md R55, R58). -/
abbrev readOnlyAddr (a : Addr) : Prop :=
  a = 0x001#10 ∨ a = 0x005#10 ∨ a = 0x006#10 ∨ a = 0x008#10

/-- The frame buffer window 0x100-0x201 (20_memory.md R39). -/
abbrev bufWindow (a : Addr) : Prop :=
  0x100 ≤ a.toNat ∧ a.toNat ≤ 0x201

/-- The reserved addresses 0x00B-0x0FF and 0x202-0x3FF (20_memory.md R41). -/
abbrev reservedAddr (a : Addr) : Prop :=
  (0x00B ≤ a.toNat ∧ a.toNat ≤ 0x0FF) ∨ 0x202 ≤ a.toNat

/-- The illegal command codes 0x06-0xFF (30_encoding.md R57). -/
abbrev illegalCode (c : Byte) : Prop :=
  0x06 ≤ c.toNat

/-- The operands the encoding admits (30_encoding.md R55), as a check that evaluates. -/
def Instr.wellFormed : Instr → Bool
  | .rd _ => true
  | .nop => true
  | .crcInit => true
  | .crcBuf => true
  | .crcMatch => true
  | .build => true
  | .parse => true
  | .cmdIllegal c => decide (illegalCode c)
  | .wrRo a _ => decide (readOnlyAddr a)
  | .wrLenLo _ => true
  | .wrLenHi _ => true
  | .wrExpAddr _ => true
  | .crcFeed _ => true
  | .wrCandLo _ => true
  | .wrCandHi _ => true
  | .wrBuf a _ => decide (bufWindow a)
  | .wrRsvd a _ => decide (reservedAddr a)

/-- The operands are ones the encoding admits. -/
abbrev Instr.WellFormed (i : Instr) : Prop := i.wellFormed = true

end Sys2Proof
end

