-- ==== Sys2Proof/Decode.lean ====
section
/-! DEFINITION. The transaction word: its fields, the decoder of 30_encoding.md R55 (total on every 19-bit word, R54;
a number that is no 19-bit word is rejected by name), the encoder of R53, and opcode_table.json's match/mask rows. -/

namespace Sys2Proof

/-- W, bit 18: write (30_encoding.md R53). -/
def fieldW (w : Txn) : Bool := w.getLsbD 18

/-- A, bits 17:8: the bus address (30_encoding.md R53). -/
def fieldA (w : Txn) : Addr := w.extractLsb' 8 10

/-- D, bits 7:0: the write data (30_encoding.md R53). -/
def fieldD (w : Txn) : Byte := w.extractLsb' 0 8

/-- The operation of a write of `d` to CMD (30_encoding.md R55, R56, R57). -/
def decodeCmd (d : Byte) : Instr :=
  if d = 0x00#8 then .nop
  else if d = 0x01#8 then .crcInit
  else if d = 0x02#8 then .crcBuf
  else if d = 0x03#8 then .crcMatch
  else if d = 0x04#8 then .build
  else if d = 0x05#8 then .parse
  else .cmdIllegal d

/-- The operation of a write of `d` to the bus address `a` (30_encoding.md R55). -/
def decodeWrite (a : Addr) (d : Byte) : Instr :=
  if a = 0x000#10 then decodeCmd d
  else if readOnlyAddr a then .wrRo a d
  else if a = 0x002#10 then .wrLenLo d
  else if a = 0x003#10 then .wrLenHi d
  else if a = 0x004#10 then .wrExpAddr d
  else if a = 0x007#10 then .crcFeed d
  else if a = 0x009#10 then .wrCandLo d
  else if a = 0x00A#10 then .wrCandHi d
  else if bufWindow a then .wrBuf a d
  else .wrRsvd a d

/-- The decoder (30_encoding.md R55). It reads only the word, never the block's state (R59). -/
def decode (w : Txn) : Instr :=
  if fieldW w then decodeWrite (fieldA w) (fieldD w) else .rd (fieldA w)

/-- Why a number is no transaction. -/
inductive DecodeError where
  /-- The number has a bit above bit 18: a transaction word has 19 bits (30_encoding.md R53). Safe. -/
  | notATransactionWord
  deriving DecidableEq, Repr

/-- The decoder on any number: every 19-bit number is a transaction, every other number is rejected
(notes/assumptions/13.md). -/
def decodeNumber (w : Nat) : Except DecodeError Instr :=
  if w < 2 ^ 19 then .ok (decode (BitVec.ofNat 19 w)) else .error .notATransactionWord

/-- The instruction of a row of opcode_table.json whose `nbits` bits are `w`; bits above `nbits` are 0. -/
def decodeTableWord (nbits w : Nat) : Option Instr :=
  match decodeNumber (w % 2 ^ nbits) with
  | .ok i => some i
  | .error _ => none

/-- The word of a write of `d` to `a`: `1<<18 | a<<8 | d` (30_encoding.md R53). -/
def encodeWrite (a : Addr) (d : Byte) : Txn := 1#1 ++ a ++ d

/-- The canonical word of a read of `a`, its D field 0 (30_encoding.md R53). -/
def encodeRead (a : Addr) : Txn := 0#1 ++ a ++ 0#8

/-- The word of each operation (30_encoding.md R53, R55, R56). -/
def encode : Instr → Txn
  | .rd a => encodeRead a
  | .nop => encodeWrite 0x000#10 0x00#8
  | .crcInit => encodeWrite 0x000#10 0x01#8
  | .crcBuf => encodeWrite 0x000#10 0x02#8
  | .crcMatch => encodeWrite 0x000#10 0x03#8
  | .build => encodeWrite 0x000#10 0x04#8
  | .parse => encodeWrite 0x000#10 0x05#8
  | .cmdIllegal c => encodeWrite 0x000#10 c
  | .wrRo a v => encodeWrite a v
  | .wrLenLo v => encodeWrite 0x002#10 v
  | .wrLenHi v => encodeWrite 0x003#10 v
  | .wrExpAddr v => encodeWrite 0x004#10 v
  | .crcFeed v => encodeWrite 0x007#10 v
  | .wrCandLo v => encodeWrite 0x009#10 v
  | .wrCandHi v => encodeWrite 0x00A#10 v
  | .wrBuf a v => encodeWrite a v
  | .wrRsvd a v => encodeWrite a v

/-- A row of opcode_table.json: the words `w` with `w AND mask = match`. -/
structure OpcodeRow where
  mnemonic : String
  matchBits : Txn
  mask : Txn
  deriving DecidableEq, Repr

/-- Whether a word is one of the row's. -/
def OpcodeRow.covers (r : OpcodeRow) (w : Txn) : Bool := (w &&& r.mask) == r.matchBits

/-- opcode_table.json, row by row. The decoder does not read it; a statement compares the two. -/
def opcodeRows : List OpcodeRow :=
  [
   ⟨"RD", 0x00000#19, 0x40000#19⟩,
   ⟨"NOP", 0x40000#19, 0x7FFFF#19⟩,
   ⟨"CRC_INIT", 0x40001#19, 0x7FFFF#19⟩,
   ⟨"CRC_BUF", 0x40002#19, 0x7FFFF#19⟩,
   ⟨"CRC_MATCH", 0x40003#19, 0x7FFFF#19⟩,
   ⟨"BUILD", 0x40004#19, 0x7FFFF#19⟩,
   ⟨"PARSE", 0x40005#19, 0x7FFFF#19⟩,
   ⟨"CMD_ILLEGAL", 0x40006#19, 0x7FFFE#19⟩,
   ⟨"CMD_ILLEGAL", 0x40008#19, 0x7FFF8#19⟩,
   ⟨"CMD_ILLEGAL", 0x40010#19, 0x7FFF0#19⟩,
   ⟨"CMD_ILLEGAL", 0x40020#19, 0x7FFE0#19⟩,
   ⟨"CMD_ILLEGAL", 0x40040#19, 0x7FFC0#19⟩,
   ⟨"CMD_ILLEGAL", 0x40080#19, 0x7FF80#19⟩] ++
  [
   ⟨"WR_RO", 0x40100#19, 0x7FF00#19⟩,
   ⟨"WR_RO", 0x40500#19, 0x7FF00#19⟩,
   ⟨"WR_RO", 0x40600#19, 0x7FF00#19⟩,
   ⟨"WR_RO", 0x40800#19, 0x7FF00#19⟩,
   ⟨"WR_LEN_LO", 0x40200#19, 0x7FF00#19⟩,
   ⟨"WR_LEN_HI", 0x40300#19, 0x7FF00#19⟩,
   ⟨"WR_EXP_ADDR", 0x40400#19, 0x7FF00#19⟩,
   ⟨"CRC_FEED", 0x40700#19, 0x7FF00#19⟩,
   ⟨"WR_CAND_LO", 0x40900#19, 0x7FF00#19⟩,
   ⟨"WR_CAND_HI", 0x40A00#19, 0x7FF00#19⟩,
   ⟨"WR_BUF", 0x50000#19, 0x70000#19⟩,
   ⟨"WR_BUF", 0x60000#19, 0x7FE00#19⟩,
   ⟨"WR_RSVD", 0x40B00#19, 0x7FF00#19⟩] ++
  [
   ⟨"WR_RSVD", 0x40C00#19, 0x7FC00#19⟩,
   ⟨"WR_RSVD", 0x41000#19, 0x7F000#19⟩,
   ⟨"WR_RSVD", 0x42000#19, 0x7E000#19⟩,
   ⟨"WR_RSVD", 0x44000#19, 0x7C000#19⟩,
   ⟨"WR_RSVD", 0x48000#19, 0x78000#19⟩,
   ⟨"WR_RSVD", 0x60200#19, 0x7FE00#19⟩,
   ⟨"WR_RSVD", 0x60400#19, 0x7FC00#19⟩,
   ⟨"WR_RSVD", 0x60800#19, 0x7F800#19⟩,
   ⟨"WR_RSVD", 0x61000#19, 0x7F000#19⟩,
   ⟨"WR_RSVD", 0x62000#19, 0x7E000#19⟩,
   ⟨"WR_RSVD", 0x64000#19, 0x7C000#19⟩,
   ⟨"WR_RSVD", 0x68000#19, 0x78000#19⟩,
   ⟨"WR_RSVD", 0x70000#19, 0x70000#19⟩]

end Sys2Proof
end

