-- ==== Sys2Proof/Machine/HostAccess.lean ====
section
/-! DEFINITION. The host access family: NOP, CMD_ILLEGAL, RD and the register and buffer writes (42_host_access.md). -/

namespace Sys2Proof.Machine

/-- NOP: acceptance and DONE (42_host_access.md R93). -/
def execNop (s : State) : Host.Outcome State Fault Refusal :=
  s.hostWrite fun s => .next (s.acceptCmd 0x00#8).complete

/-- CMD_ILLEGAL: acceptance with the illegal code in CMDR, CMDERR and DONE (42_host_access.md R94). -/
def execCmdIllegal (c : Byte) (s : State) : Host.Outcome State Fault Refusal :=
  s.hostWrite fun s => .next (s.acceptCmd c).commandError

/-- What an idle read of a bus address below the buffer window, or above it, returns (42_host_access.md R95;
20_memory.md R40, R41). -/
def State.registerByte (s : State) (a : Addr) : Byte :=
  if a = 0x000#10 then s.cmdr
  else if a = 0x001#10 then s.statusByte
  else if a = 0x002#10 then lenLo s.len
  else if a = 0x003#10 then lenHi s.len
  else if a = 0x004#10 then s.expAddr
  else if a = 0x005#10 then crcLo s.crc
  else if a = 0x006#10 then crcHi s.crc
  else if a = 0x007#10 then 0x00#8
  else if a = 0x008#10 then s.plen
  else if a = 0x009#10 then s.candLo
  else if a = 0x00A#10 then s.candHi
  else 0x00#8

/-- A read while idle (42_host_access.md R95). -/
def State.readIdle (s : State) (a : Addr) : Result :=
  if bufWindow a then s.withBufByte (bufIndex a) fun b => .next (s.returnByte b)
  else .next (s.returnByte (s.registerByte a))

/-- A read while busy: STATUS reads true, every other address a free draw (70_reset_and_hazards.md R128;
42_host_access.md R96). -/
def State.readBusy (s : State) (a : Addr) : Result :=
  if a = 0x001#10 then .next (s.returnByte s.statusByte) else .next s.returnDraw

/-- RD (42_host_access.md R95; 70_reset_and_hazards.md R128). -/
def execRd (a : Addr) (s : State) : Host.Outcome State Fault Refusal :=
  if s.busy then s.readBusy a else s.readIdle a

/-- WR_LEN_LO (42_host_access.md R98). -/
def execWrLenLo (v : Byte) (s : State) : Host.Outcome State Fault Refusal :=
  s.hostWrite fun s => .next (s.setLen (withLenLo s.len v))

/-- WR_LEN_HI (42_host_access.md R99). -/
def execWrLenHi (v : Byte) (s : State) : Host.Outcome State Fault Refusal :=
  s.hostWrite fun s => .next (s.setLen (withLenHi s.len v))

/-- WR_EXP_ADDR: all 8 bits, not masked (42_host_access.md R100). -/
def execWrExpAddr (v : Byte) (s : State) : Host.Outcome State Fault Refusal :=
  s.hostWrite fun s => .next (s.setExpAddr v)

/-- WR_CAND_LO; MATCH is not re-evaluated (42_host_access.md R101). -/
def execWrCandLo (v : Byte) (s : State) : Host.Outcome State Fault Refusal :=
  s.hostWrite fun s => .next (s.setCandLo v)

/-- WR_CAND_HI; MATCH is not re-evaluated (42_host_access.md R101). -/
def execWrCandHi (v : Byte) (s : State) : Host.Outcome State Fault Refusal :=
  s.hostWrite fun s => .next (s.setCandHi v)

/-- WR_BUF (42_host_access.md R102). -/
def execWrBuf (a : Addr) (v : Byte) (s : State) : Host.Outcome State Fault Refusal :=
  s.hostWrite fun s => s.storeBufByte (bufIndex a) v fun s1 => .next s1

/-- WR_RSVD: no effect and no flag while idle (42_host_access.md R104). -/
def execWrRsvd (_a : Addr) (_v : Byte) (s : State) : Host.Outcome State Fault Refusal :=
  s.hostWrite fun s => .next s

/-- WR_RO: no effect and no flag while idle (42_host_access.md R105). -/
def execWrRo (_a : Addr) (_v : Byte) (s : State) : Host.Outcome State Fault Refusal :=
  s.hostWrite fun s => .next s

end Sys2Proof.Machine
end

