-- ==== Sys2Proof/Machine/Dispatch.lean ====
section
/-! DEFINITION. exec: the meaning of each operation, one arm per constructor. -/

namespace Sys2Proof.Machine

/-- The meaning of a host transaction (30_encoding.md R55). -/
def exec (i : Instr) (s : State) : Host.Outcome State Fault Refusal :=
  match i with
  | .rd a => Sys2Proof.Machine.execRd a s
  | .nop => Sys2Proof.Machine.execNop s
  | .crcInit => Sys2Proof.Machine.execCrcInit s
  | .crcBuf => Sys2Proof.Machine.execCrcBuf s
  | .crcMatch => Sys2Proof.Machine.execCrcMatch s
  | .build => Sys2Proof.Machine.execBuild s
  | .parse => Sys2Proof.Machine.execParse s
  | .cmdIllegal c => Sys2Proof.Machine.execCmdIllegal c s
  | .wrRo a v => Sys2Proof.Machine.execWrRo a v s
  | .wrLenLo v => Sys2Proof.Machine.execWrLenLo v s
  | .wrLenHi v => Sys2Proof.Machine.execWrLenHi v s
  | .wrExpAddr v => Sys2Proof.Machine.execWrExpAddr v s
  | .crcFeed v => Sys2Proof.Machine.execCrcFeed v s
  | .wrCandLo v => Sys2Proof.Machine.execWrCandLo v s
  | .wrCandHi v => Sys2Proof.Machine.execWrCandHi v s
  | .wrBuf a v => Sys2Proof.Machine.execWrBuf a v s
  | .wrRsvd a v => Sys2Proof.Machine.execWrRsvd a v s

end Sys2Proof.Machine
end

