-- ==== Sys2Proof/Machine/Turns.lean ====
section
/-! DEFINITION. One turn of each agent (10_state.md R13), and which agent's turn it is (20_memory.md R47). -/

namespace Sys2Proof.Machine

/-- What the host has to do is `l`. -/
def State.setPending (s : State) (l : List HostOp) : State := { s with pending := l }

/-- The schedule is `l`. -/
def State.setSched (s : State) (l : List Agent) : State := { s with sched := l }

/-- The host's next step, taken off what it has to do. A `poll` whose read of STATUS has BUSY = 1 stays at the head:
the host reads again at its next turn (30_encoding.md R63). -/
def State.popHost (s : State) : State :=
  match s.pending with
  | [] => s
  | .txn _ :: rest => s.setPending rest
  | .poll :: rest => if s.busy then s else s.setPending rest

/-- The transaction the host performs at its turn, if it has one (30_encoding.md R55, R63): `poll` is `rd STATUS`. -/
def State.fetch (s : State) : Option Instr :=
  match s.pending with
  | [] => none
  | .txn w :: _ => some (decode w)
  | .poll :: _ => some (.rd 0x001#10)

/-- The host's turn: one transaction, or nothing if it has none to perform (20_memory.md R37;
notes/assumptions/10.md). -/
def hostTurn (s : State) : Result :=
  match s.fetch with
  | some i => exec i s.popHost
  | none => .next s

/-- The agent that moves next: the head of the schedule, and when that is used up the sequencer while the block is
busy, else the host (20_memory.md R47; 70_reset_and_hazards.md R133; notes/assumptions/1.md). -/
def State.nextAgent (s : State) : Agent :=
  match s.sched with
  | a :: _ => a
  | [] => if s.busy then .sequencer else .host

/-- One turn of an agent (10_state.md R13). -/
def turn (a : Agent) (s : State) : Result :=
  match a with
  | .host => hostTurn s
  | .sequencer => s.sequencerStep
  | .reset => .next s.resetEvent

/-- The schedule moves on by one turn. -/
def State.popSched (s : State) : State := s.setSched s.sched.tail

/-- The host has `w` to perform first, and it is the host's turn. -/
def State.placeTxn (s : State) (w : Txn) : State :=
  (s.setPending (.txn w :: s.pending)).setSched (.host :: s.sched)

end Sys2Proof.Machine
end

