-- ==== Sys2Proof/Machine/Step.lean ====
section
/-! DEFINITION. One step of the machine: one atomic step of one agent (20_memory.md R47). -/

namespace Sys2Proof.Machine

/-- One turn of the agent that moves next. -/
def step (s : State) : Host.Outcome State Fault Refusal := turn s.nextAgent s.popSched

/-- `s` with the table word `w` as the host's next transaction and the host moving next, so that the next step runs
it; unchanged where `w` is no 19-bit word (notes/assumptions/2.md, 13.md). -/
def State.withFetchWord (s : State) (nbits w : Nat) : State :=
  if w % 2 ^ nbits < 2 ^ 19 then s.placeTxn (BitVec.ofNat 19 (w % 2 ^ nbits)) else s

end Sys2Proof.Machine
end

