-- ==== Sys2Proof/Machine/HostProgram.lean ====
section
/-! DEFINITION. Host programs: the line forms of 30_encoding.md R63 and the host steps each stands for. The host's own
labels and jumps are no part of the block; `poll` is the one loop the spec names. -/

namespace Sys2Proof.Machine

/-- The symbolic names of 20_memory.md R39 (30_encoding.md R63). -/
inductive RegName where
  | cmd | status | lenLo | lenHi | expAddr | crcLo | crcHi | crcData | plen | candLo | candHi
  deriving DecidableEq, Repr

/-- The bus address of a name (20_memory.md R39). -/
def RegName.addr : RegName → Addr
  | .cmd => 0x000#10
  | .status => 0x001#10
  | .lenLo => 0x002#10
  | .lenHi => 0x003#10
  | .expAddr => 0x004#10
  | .crcLo => 0x005#10
  | .crcHi => 0x006#10
  | .crcData => 0x007#10
  | .plen => 0x008#10
  | .candLo => 0x009#10
  | .candHi => 0x00A#10

/-- `BUF+i`: the bus address 0x100 + i (30_encoding.md R63). For `i` of 768 or more the spec has no such address (20_memory.md
R37, R39); the sum is then taken modulo 1024 (DESIGN CHOICE, notes/assumptions/22.md). -/
def bufAddr (i : Nat) : Addr := 0x100#10 + BitVec.ofNat 10 i

/-- The command names (30_encoding.md R56). -/
inductive CmdName where
  | nop | crcInit | crcBuf | crcMatch | build | parse
  deriving DecidableEq, Repr

/-- The command codes (30_encoding.md R56). -/
def CmdName.code : CmdName → Byte
  | .nop => 0x00#8
  | .crcInit => 0x01#8
  | .crcBuf => 0x02#8
  | .crcMatch => 0x03#8
  | .build => 0x04#8
  | .parse => 0x05#8

/-- A line of a host program (30_encoding.md R63). -/
inductive HostLine where
  | wr (a : Addr) (d : Byte)
  | rd (a : Addr)
  | cmd (c : CmdName)
  | feed (v : Byte)
  | setlen (n : Len)
  | load (i : Nat) (bs : List Byte)
  | poll
  | expect (a : Addr) (v : Byte)
  deriving DecidableEq, Repr

/-- `load i, b0, ..., bm`: one write of BUF+i and on for each byte (30_encoding.md R63). A byte that would stand above
address 0x3FF is written where `bufAddr` wraps to (DESIGN CHOICE, notes/assumptions/22.md). -/
def loadOps (i : Nat) : List Byte → List HostOp
  | [] => []
  | b :: bs => .txn (encodeWrite (bufAddr i) b) :: loadOps (i + 1) bs

/-- The expansion of a line (30_encoding.md R63). `expect` is its read; what it expects is an annotation. -/
def HostLine.ops : HostLine → List HostOp
  | .wr a d => [.txn (encodeWrite a d)]
  | .rd a => [.txn (encodeRead a)]
  | .cmd c => [.txn (encodeWrite RegName.cmd.addr c.code)]
  | .feed v => [.txn (encodeWrite RegName.crcData.addr v)]
  | .setlen n => [.txn (encodeWrite RegName.lenLo.addr (n.extractLsb' 0 8)),
      .txn (encodeWrite RegName.lenHi.addr ((n.extractLsb' 8 1).setWidth 8))]
  | .load i bs => loadOps i bs
  | .poll => [.poll]
  | .expect a _ => [.txn (encodeRead a)]

/-- A host program as the host's steps in issue order (30_encoding.md R63; 20_memory.md R46). -/
def hostProgram (ls : List HostLine) : List HostOp := ls.flatMap HostLine.ops

end Sys2Proof.Machine
end

