-- ==== Sys2Proof/Safety.lean ====
section
/-! DEFINITION. What claims speak of: runs, final states (70_reset_and_hazards.md R131), the micro-steps left in a busy
window (10_state.md R31), the invariant of the reachable states, and the block as the host's accesses during a busy
window leave it (10_state.md R35). -/

namespace Sys2Proof.Machine

/-- `n` steps of the machine, stopping at the first fault or refusal (`Host.Core.run` of `Sys2Proof.core`). -/
def run : Nat → State → Result
  | 0, s => .next s
  | n + 1, s =>
    match step s with
    | .next t => run n t
    | .fault e => .fault e
    | .refused e => .refused e

/-- A final state: nothing left to perform and BUSY = 0 (70_reset_and_hazards.md R131). -/
def Final (s : State) : Prop := s.pending = [] ∧ s.busy = false

/-- The number of bytes the running operation feeds (10_state.md R31). -/
def State.feedCount (s : State) : Nat :=
  match s.op with
  | .feedOp => 1
  | .crcBuf => s.len.toNat
  | .build => s.len.toNat
  | .parse => s.len.toNat - 2

/-- The range check the running operation passed at acceptance (40_crc.md R75; 41_frame.md R82, R86). -/
def State.opInRange (s : State) : Bool :=
  match s.op with
  | .feedOp => true
  | .crcBuf => decide (1 ≤ s.len.toNat ∧ s.len.toNat ≤ 258)
  | .build => decide (2 ≤ s.len.toNat ∧ s.len.toNat ≤ 256)
  | .parse => decide (4 ≤ s.len.toNat ∧ s.len.toNat ≤ 258)

/-- The micro-steps left: 8 for each byte still to feed, less the bits of the current byte already fed, and one finish
micro-step (10_state.md R31). -/
def State.remaining (s : State) : Nat :=
  match s.phase with
  | .idle => 0
  | .feed => 8 * (s.endi.toNat - s.idx.toNat) - s.k.toNat + 1
  | .finish => 1

/-- In phase FEED of an operation over BUF: CRC is the checksum of the bytes before idx and the first k bits of
BUF[idx], and sreg is what is left of BUF[idx] (10_state.md R28, R32). -/
def State.feedProgress (s : State) : Bool :=
  match s.buf.slice 0 s.idx.toNat, s.buf.readByte s.idx.toNat with
  | some f, some b => s.crc == crcBits (crc16 f) b s.k.toNat && s.sreg == b >>> s.k.toNat
  | _, _ => false

/-- In phase FINISH of an operation over BUF: CRC is the checksum of all the bytes fed (10_state.md R32). -/
def State.finishProgress (s : State) : Bool :=
  match s.buf.slice 0 s.endi.toNat with
  | some f => s.crc == crc16 f
  | none => false

/-- The invariant of the reachable states. -/
structure Inv (s : State) : Prop where
  /-- BUF is in canonical form. -/
  memoryWf : s.buf.wf
  /-- Acceptance cleared every flag but OVR, and only completion sets one (10_state.md R24, R27). -/
  busyFlags : s.busy = true → s.done = false ∧ s.err = .noError ∧ s.matched = false ∧ s.sent = false ∧ s.cmderr = false
  /-- The running operation passed its range check, and LEN has not moved since (20_memory.md R49). -/
  inRange : s.busy = true → s.opInRange = true
  /-- endi is one past the last index to feed (10_state.md R34). -/
  feedEnd : s.busy = true → s.endi.toNat = s.feedCount
  /-- In FEED the sequencer is before its end (00_scope.md R12; 10_state.md R32: idx never wraps). -/
  feedIndex : s.phase = .feed → s.idx.toNat < s.endi.toNat
  /-- In FINISH it is at its end, between bytes. -/
  finishIndex : s.phase = .finish → s.idx = s.endi ∧ s.k = 0#3
  /-- The running CRC in FEED. -/
  feedCrc : s.phase = .feed → s.op ≠ .feedOp → s.feedProgress = true
  /-- The running CRC in FINISH. -/
  finishCrc : s.phase = .finish → s.op ≠ .feedOp → s.finishProgress = true
  /-- ERR is set only with DONE, PLEN = 0 and SENT = 0, MATCH = 1 only for WrongAddress, never with CMDERR
  (60_exceptions.md R107, R110). -/
  errRecord : s.err ≠ .noError →
    s.done = true ∧ s.plen = 0x00#8 ∧ s.sent = false ∧ s.cmderr = false ∧ (s.matched = true ↔ s.err = .wrongAddress)
  /-- CMDERR is set together with DONE, and not with MATCH or SENT (60_exceptions.md R108). -/
  cmderrRecord : s.cmderr = true → s.done = true ∧ s.matched = false ∧ s.sent = false
  /-- SENT is set only by a successful PARSE of one payload byte (41_frame.md R89). -/
  sentRecord : s.sent = true → s.done = true ∧ s.err = .noError ∧ s.matched = true ∧ s.plen = 0x01#8
  /-- MATCH is set only by a completed comparison (10_state.md R26). -/
  matchRecord : s.matched = true → s.done = true
  /-- Idle with DONE = 0 is the block since reset: no operation has completed (10_state.md R24), so CRC, PLEN, CMDR and
  OVR are as reset left them. -/
  freshIdle : s.busy = false → s.done = false →
    s.crc = 0xFFFF#16 ∧ s.plen = 0x00#8 ∧ s.cmdr = 0x00#8 ∧ s.ovr = false

/-- The block without OVR and the host's side: what a busy window computes on, which no host access during it can
reach (10_state.md R35; 70_reset_and_hazards.md R127, R128). -/
def State.blockCore (s : State) : State :=
  { s with ovr := false, pending := [], sched := [], results := [], draws := 0 }

/-- A map of the state of an outcome. -/
def mapState (f : State → State) : Result → Result
  | .next s => .next (f s)
  | .fault e => .fault e
  | .refused e => .refused e

end Sys2Proof.Machine
end

