-- ==== Sys2Proof/Certificates/Slice0/Obligations.lean ====
section
/-! DEFINITION. The statements for the provers. Each formalises the rules of spec/ its docstring names. -/

open Sys2Proof Sys2Proof.Machine

/-! ## Transactions and their words -/

/-- Decode and encode agree: the word of a well-formed operation decodes to it, every operand at every value the
encoding admits (30_encoding.md R53, R55, R56). -/
def Obligations.DecodeOfEncode : Prop :=
  ∀ i : Instr, i.WellFormed → decode (encode i) = i

/-- The decoder read as arithmetic on the word `W<<18 | A<<8 | D`: the table of 30_encoding.md R55, row by row, with
the fields where R53 puts them. -/
def Obligations.DecodeIsTheTable : Prop :=
  ∀ a d : Nat, a < 1024 → d < 256 →
    decode (BitVec.ofNat 19 (a * 256 + d)) = .rd (BitVec.ofNat 10 a) ∧
    decode (BitVec.ofNat 19 (2 ^ 18 + a * 256 + d)) =
      if a = 0x000 then
        if d = 0x00 then .nop else if d = 0x01 then .crcInit else if d = 0x02 then .crcBuf
        else if d = 0x03 then .crcMatch else if d = 0x04 then .build else if d = 0x05 then .parse
        else .cmdIllegal (BitVec.ofNat 8 d)
      else if a = 0x002 then .wrLenLo (BitVec.ofNat 8 d)
      else if a = 0x003 then .wrLenHi (BitVec.ofNat 8 d)
      else if a = 0x004 then .wrExpAddr (BitVec.ofNat 8 d)
      else if a = 0x007 then .crcFeed (BitVec.ofNat 8 d)
      else if a = 0x009 then .wrCandLo (BitVec.ofNat 8 d)
      else if a = 0x00A then .wrCandHi (BitVec.ofNat 8 d)
      else if a = 0x001 ∨ a = 0x005 ∨ a = 0x006 ∨ a = 0x008 then .wrRo (BitVec.ofNat 10 a) (BitVec.ofNat 8 d)
      else if 0x100 ≤ a ∧ a ≤ 0x201 then .wrBuf (BitVec.ofNat 10 a) (BitVec.ofNat 8 d)
      else .wrRsvd (BitVec.ofNat 10 a) (BitVec.ofNat 8 d)

/-- Every 19-bit word is a transaction, a read's D field is ignored, and the only illegal case, a CMD code of 0x06 or
more, runs to a next state that reports it in CMDERR: no word stops the machine at the bus level (30_encoding.md R54). -/
def Obligations.EveryWordIsATransaction : Prop :=
  (∀ w : Txn, (decode w).WellFormed) ∧
  (∀ (a : Addr) (d : Byte), decode (0#1 ++ a ++ d) = decode (0#1 ++ a ++ 0#8)) ∧
  (∀ (c : Byte) (s : State), 6 ≤ c.toNat → s.busy = false →
    decode (1#1 ++ 0x000#10 ++ c) = .cmdIllegal c ∧
    ∃ t, exec (.cmdIllegal c) s = .next t ∧ t.cmderr = true ∧ t.statusByte.getLsbD 6 = true) ∧
  (∀ (w : Txn) (s : State) (r : Refusal), exec (decode w) s ≠ .refused r)

/-- The other direction of the round trip: encoding what a word decodes to gives the word, with a read's ignored D
field cleared (30_encoding.md R53, R54). -/
def Obligations.EncodeOfDecode : Prop :=
  ∀ w : Txn, encode (decode w) = if w.getLsbD 18 then w else w &&& 0x7FF00#19

/-- opcode_table.json's 39 match/mask rows: every word is covered by exactly one, and it names the operation the
decoder gives (30_encoding.md R55: "The rows are disjoint and together cover all 2^19 words"). -/
def Obligations.OpcodeRowsPartitionTheWords : Prop :=
  ∀ w : Txn, (opcodeRows.filter (fun r => r.covers w)).map (fun r => r.mnemonic) = [(decode w).mnemonic]

/-- Words written out from the spec's own encodings (30_encoding.md R53 and the programs of 95_test_vectors.md). -/
def Obligations.SampleWordsDecode : Prop :=
  decode 0x40005#19 = .parse ∧ decode 0x00100#19 = .rd 0x001#10 ∧ decode 0x5002A#19 = .wrBuf 0x100#10 0x2A#8 ∧
  decode 0x40203#19 = .wrLenLo 0x03#8 ∧ decode 0x40300#19 = .wrLenHi 0x00#8 ∧
  decode 0x4042C#19 = .wrExpAddr 0x2C#8 ∧ decode 0x40731#19 = .crcFeed 0x31#8 ∧
  decode 0x4094B#19 = .wrCandLo 0x4B#8 ∧ decode 0x40A37#19 = .wrCandHi 0x37#8 ∧
  decode 0x40008#19 = .cmdIllegal 0x08#8 ∧ decode 0x10400#19 = .rd 0x104#10

/-! ## The step -/

/-- A step in which the host moves runs the transaction its word decodes to, on the state with that word and that turn
taken off (20_memory.md R37, R46). That the host moves while idle once the schedule is used up is the model's choice
(notes/assumptions/1.md). The third clause is the model's choice as well (notes/assumptions/2.md): placing a word with
`withFetchWord` stands for the load of a program from outside, and the very next step runs that word. -/
def Obligations.StepRunsTheDecodedTransaction : Prop :=
  ∀ (s : State) (w : Txn),
    (∀ rest r, s.pending = .txn w :: rest → s.sched = .host :: r →
      step s = exec (decode w) { s with pending := rest, sched := r }) ∧
    (∀ rest, s.pending = .txn w :: rest → s.sched = [] → s.busy = false →
      step s = exec (decode w) { s with pending := rest }) ∧
    step (s.withFetchWord 24 w.toNat) = exec (decode w) s

/-- The `poll` loop: the host reads STATUS, and reads it again at its next turn while BUSY = 1 (30_encoding.md R63; DEDUCED, notes/assumptions/9.md). -/
def Obligations.PollReadsStatusUntilNotBusy : Prop :=
  ∀ (s : State) (rest : List HostOp) (r : List Agent), s.pending = .poll :: rest → s.sched = .host :: r →
    (s.busy = true → step s = .next { s with results := s.statusByte :: s.results, sched := r }) ∧
    (s.busy = false →
      step s = .next { s with results := s.statusByte :: s.results, pending := rest, sched := r })

/-- The sequencer's turn while BUSY = 0 and the host's turn with nothing to perform change nothing of the block
(10_state.md R31; 60_exceptions.md R120); when the schedule is used up the sequencer moves while busy, the host while
idle (the model's choice of a fair schedule, notes/assumptions/1.md). -/
def Obligations.IdleAgentsHoldAllState : Prop :=
  ∀ (s : State) (r : List Agent),
    (s.sched = .sequencer :: r → s.busy = false → step s = .next { s with sched := r }) ∧
    (s.sched = .host :: r → s.pending = [] → step s = .next { s with sched := r }) ∧
    (s.sched = [] → s.pending = [] → s.busy = false → step s = .next s) ∧
    (s.sched = [] → s.busy = true → step s = step { s with sched := [.sequencer] })

/-- The race of 20_memory.md R47: a host write, of any kind, falling together with a finish micro-step, of any operation,
that completes in `u`. The host first: the write is dropped with OVR set and the operation completes. The sequencer
first: the operation completes and the write lands, that is, it has its effect on the idle block. The model admits both
orders; the last clause is the write of 95_test_vectors.md P4. -/
def Obligations.WriteRacingTheFinishStep : Prop :=
  ∀ (s u : State) (w : Txn) (rest : List HostOp), s.phase = .finish → s.sequencerStep = .next u →
    w.getLsbD 18 = true → s.pending = .txn w :: rest →
    u.busy = false ∧ u.done = true ∧
    run 2 { s with sched := [.host, .sequencer] } = .next { u with ovr := true, pending := rest, sched := [] } ∧
    run 2 { s with sched := [.sequencer, .host] } = exec (decode w) { u with pending := rest, sched := [] } ∧
    ∀ v : Byte, w = BitVec.ofNat 19 (0x40900 + v.toNat) →
      run 2 { s with sched := [.sequencer, .host] } = .next { u with candLo := v, pending := rest, sched := [] }

/-! ## Reset -/

/-- A reset event, in any state, a busy window included: every register at its value of 70_reset_and_hazards.md R121;
State.reset has the same values. -/
def Obligations.ResetSetsEveryRegister : Prop :=
  let fresh := fun t : State =>
    t.cmdr = 0x00#8 ∧ t.statusByte = 0x00#8 ∧ t.len = 0#9 ∧ t.expAddr = 0x00#8 ∧ t.crc = 0xFFFF#16 ∧
    t.plen = 0x00#8 ∧ t.candLo = 0x00#8 ∧ t.candHi = 0x00#8 ∧ t.phase = .idle ∧ t.op = .feedOp ∧
    t.idx = 0#9 ∧ t.endi = 0#9 ∧ t.k = 0#3 ∧ t.sreg = 0x00#8 ∧ t.busy = false ∧ t.done = false ∧
    t.err = .noError ∧ t.cmderr = false ∧ t.ovr = false
  fresh State.reset ∧
  ∀ (s : State) (r : List Agent), s.sched = .reset :: r → ∃ t, step s = .next t ∧ fresh t

/-- After a reset event no byte of BUF is written: a host read of any of them is the model fault
(70_reset_and_hazards.md R122; 10_state.md R30); and the host's own side is not touched (the model's choice,
notes/assumptions/7.md). -/
def Obligations.ResetLeavesBufUnwritten : Prop :=
  ∀ (s : State) (r : List Agent), s.sched = .reset :: r →
    ∃ t, step s = .next t ∧ (∀ i, t.wbuf i = false) ∧
      (∀ a : Addr, 0x100 ≤ a.toNat → a.toNat ≤ 0x201 →
        exec (.rd a) t = .fault (.unwrittenBufRead (a.toNat - 0x100))) ∧
      t.pending = s.pending ∧ t.sched = r ∧ t.results = s.results ∧ t.draws = s.draws

/-! ## Host access operations -/

/-- The STATUS byte: BUSY in bit 0 exactly when `phase != IDLE`, DONE, ERR in bits 3:2 with its codes, MATCH, SENT,
CMDERR, OVR (10_state.md R15, R23). -/
def Obligations.StatusByteLayout : Prop :=
  ∀ s : State,
    s.statusByte.toNat =
      (if s.phase = .idle then 0 else 1) + 2 * s.done.toNat +
      4 * (match s.err with | .noError => 0 | .wrongLength => 1 | .wrongCrc => 2 | .wrongAddress => 3) +
      16 * s.matched.toNat + 32 * s.sent.toNat + 64 * s.cmderr.toNat + 128 * s.ovr.toNat

/-- NOP while idle: CMDR = 0x00, DONE = 1, every other flag 0, nothing else changes (42_host_access.md R93), but for the
sequencer position, 0 after every acceptance (10_state.md R29; DEDUCED, notes/assumptions/21.md). -/
def Obligations.NopClearsTheFlags : Prop :=
  ∀ s : State, s.busy = false →
    decode 0x40000#19 = .nop ∧
    exec .nop s = .next
      { s with cmdr := 0x00#8, done := true, err := .noError, matched := false, sent := false, cmderr := false,
               ovr := false, idx := 0#9, k := 0#3 }

/-- CMD_ILLEGAL while idle, for every illegal code: CMDR = c, CMDERR and DONE set, nothing else (42_host_access.md
R94; 30_encoding.md R57), but for the sequencer position, 0 after every acceptance (10_state.md R29; DEDUCED,
notes/assumptions/21.md). -/
def Obligations.IllegalCommandSetsCmderr : Prop :=
  ∀ (s : State) (c : Byte), 6 ≤ c.toNat → s.busy = false →
    decode (BitVec.ofNat 19 (0x40000 + c.toNat)) = .cmdIllegal c ∧
    exec (.cmdIllegal c) s = .next
      { s with cmdr := c, done := true, err := .noError, matched := false, sent := false, cmderr := true,
               ovr := false, idx := 0#9, k := 0#3 }

/-- RD while idle: the table of 42_host_access.md R95, address by address; only the result reaches the host, nothing
else changes; an unwritten byte of BUF is the model fault. That the byte returned is kept in a list is the model's form of
reaching the host (notes/assumptions/6.md). -/
def Obligations.IdleReadReturnsTheTable : Prop :=
  ∀ s : State, s.busy = false →
    let got := fun v : Byte => (Host.Outcome.next { s with results := v :: s.results } : Result)
    (∀ a : Addr, decode (BitVec.ofNat 19 (a.toNat * 256)) = .rd a) ∧
    exec (.rd 0x000#10) s = got s.cmdr ∧
    exec (.rd 0x001#10) s = got s.statusByte ∧
    exec (.rd 0x002#10) s = got (BitVec.ofNat 8 (s.len.toNat % 256)) ∧
    exec (.rd 0x003#10) s = got (BitVec.ofNat 8 (s.len.toNat / 256)) ∧
    exec (.rd 0x004#10) s = got s.expAddr ∧
    exec (.rd 0x005#10) s = got (BitVec.ofNat 8 (s.crc.toNat % 256)) ∧
    exec (.rd 0x006#10) s = got (BitVec.ofNat 8 (s.crc.toNat / 256)) ∧
    exec (.rd 0x007#10) s = got 0x00#8 ∧
    exec (.rd 0x008#10) s = got s.plen ∧
    exec (.rd 0x009#10) s = got s.candLo ∧
    exec (.rd 0x00A#10) s = got s.candHi ∧
    (∀ a : Addr, (0x00B ≤ a.toNat ∧ a.toNat ≤ 0x0FF) ∨ 0x202 ≤ a.toNat → exec (.rd a) s = got 0x00#8) ∧
    (∀ i, i ≤ 257 → ∀ b, s.buf.readByte i = some b → exec (.rd (BitVec.ofNat 10 (0x100 + i))) s = got b) ∧
    (∀ i, i ≤ 257 → s.wbuf i = false →
      exec (.rd (BitVec.ofNat 10 (0x100 + i))) s = .fault (.unwrittenBufRead i))

/-- RD while busy: STATUS reads true, every other address returns the next free draw, whatever the draws are; the block
is unchanged (70_reset_and_hazards.md R128; 42_host_access.md R96). The counter that numbers the draws is the model's
choice (notes/assumptions/3.md). -/
def Obligations.BusyReadReturnsADraw : Prop :=
  ∀ (s : State) (a : Addr), s.busy = true →
    exec (.rd a) s =
      if a = 0x001#10 then .next { s with results := s.statusByte :: s.results }
      else .next { s with results := Config.anyByte s.draws :: s.results, draws := s.draws + 1 }

/-- WR_LEN_LO while idle: LEN[7:0] <- v, LEN[8] and all else unchanged (42_host_access.md R98). -/
def Obligations.WriteLenLo : Prop :=
  ∀ (s : State) (v : Byte), s.busy = false →
    decode (BitVec.ofNat 19 (0x40200 + v.toNat)) = .wrLenLo v ∧
    exec (.wrLenLo v) s = .next { s with len := BitVec.ofNat 9 (s.len.toNat / 256 * 256 + v.toNat) }

/-- WR_LEN_HI while idle: LEN[8] <- v[0], v[7:1] ignored, LEN[7:0] and all else unchanged (42_host_access.md R99). -/
def Obligations.WriteLenHi : Prop :=
  ∀ (s : State) (v : Byte), s.busy = false →
    decode (BitVec.ofNat 19 (0x40300 + v.toNat)) = .wrLenHi v ∧
    exec (.wrLenHi v) s = .next { s with len := BitVec.ofNat 9 (v.toNat % 2 * 256 + s.len.toNat % 256) }

/-- WR_EXP_ADDR, WR_CAND_LO and WR_CAND_HI while idle: the register takes all 8 bits, nothing else changes
(42_host_access.md R100, R101). -/
def Obligations.WriteOperandRegisters : Prop :=
  ∀ (s : State) (v : Byte), s.busy = false →
    decode (BitVec.ofNat 19 (0x40400 + v.toNat)) = .wrExpAddr v ∧
    decode (BitVec.ofNat 19 (0x40900 + v.toNat)) = .wrCandLo v ∧
    decode (BitVec.ofNat 19 (0x40A00 + v.toNat)) = .wrCandHi v ∧
    exec (.wrExpAddr v) s = .next { s with expAddr := v } ∧
    exec (.wrCandLo v) s = .next { s with candLo := v } ∧
    exec (.wrCandHi v) s = .next { s with candHi := v }

/-- WR_BUF while idle: BUF[i] <- v and wbuf[i] <- true; every other byte, and every register, LEN among them, is
unchanged; BUF stays in canonical form (42_host_access.md R102). -/
def Obligations.WriteBufStoresOneByte : Prop :=
  ∀ (s : State) (i : Nat) (v : Byte), i ≤ 257 → s.busy = false →
    decode (BitVec.ofNat 19 (0x40000 + (0x100 + i) * 256 + v.toNat)) = .wrBuf (BitVec.ofNat 10 (0x100 + i)) v ∧
    ∃ m : Memory, exec (.wrBuf (BitVec.ofNat 10 (0x100 + i)) v) s = .next { s with buf := m } ∧
      m.readByte i = some v ∧ (∀ j, j ≠ i → m.readByte j = s.buf.readByte j) ∧ (s.buf.wf → m.wf)

/-- WR_RO and WR_RSVD while idle: no effect and no flag, at every read-only and every reserved address
(42_host_access.md R104, R105). -/
def Obligations.IgnoredWritesChangeNothing : Prop :=
  ∀ (s : State) (a : Addr) (v : Byte), s.busy = false →
    (a = 0x001#10 ∨ a = 0x005#10 ∨ a = 0x006#10 ∨ a = 0x008#10 →
      decode (BitVec.ofNat 19 (0x40000 + a.toNat * 256 + v.toNat)) = .wrRo a v ∧ exec (.wrRo a v) s = .next s) ∧
    ((0x00B ≤ a.toNat ∧ a.toNat ≤ 0x0FF) ∨ 0x202 ≤ a.toNat →
      decode (BitVec.ofNat 19 (0x40000 + a.toNat * 256 + v.toNat)) = .wrRsvd a v ∧ exec (.wrRsvd a v) s = .next s)

/-- The busy-write rule: a write to any address while BUSY = 1 sets OVR and changes nothing else
(70_reset_and_hazards.md R127). -/
def Obligations.BusyWriteIsDropped : Prop :=
  ∀ (s : State) (a : Addr) (v : Byte), s.busy = true →
    exec (decode (1#1 ++ a ++ v)) s = .next { s with ovr := true }

/-- Reads have no side effect on the block, idle or busy, and two reads while idle return the same byte; a write to
anything but CMD and CRC_DATA is idempotent (20_memory.md R45). -/
def Obligations.ReadsAndPlainWritesAreIdempotent : Prop :=
  (∀ (s t : State) (a : Addr), exec (.rd a) s = .next t → t.blockCore = s.blockCore ∧ t.ovr = s.ovr) ∧
  (∀ (s t u : State) (a : Addr), s.busy = false → exec (.rd a) s = .next t → exec (.rd a) t = .next u →
    ∃ b, t.results = b :: s.results ∧ u.results = b :: b :: s.results) ∧
  (∀ (s t : State) (a : Addr) (v : Byte), s.busy = false → a ≠ 0x000#10 → a ≠ 0x007#10 →
    exec (decode (1#1 ++ a ++ v)) s = .next t → exec (decode (1#1 ++ a ++ v)) t = .next t)

/-- While idle, a read of an operand register or of a byte of BUF returns the value the host wrote there just before; of
LEN_HI, whose bits 7:1 are no storage, it returns the written bit 0 (20_memory.md R46; 10_state.md R16). The list the
read byte joins is the model's choice (notes/assumptions/6.md). -/
def Obligations.ReadReturnsTheLastWrite : Prop :=
  (∀ (s t : State) (a : Addr) (v : Byte), s.busy = false →
    a = 0x002#10 ∨ a = 0x004#10 ∨ a = 0x009#10 ∨ a = 0x00A#10 ∨ (0x100 ≤ a.toNat ∧ a.toNat ≤ 0x201) →
    exec (decode (1#1 ++ a ++ v)) s = .next t →
    exec (.rd a) t = .next { t with results := v :: t.results }) ∧
  ∀ (s t : State) (v : Byte), s.busy = false → exec (decode (1#1 ++ 0x003#10 ++ v)) s = .next t →
    exec (.rd 0x003#10) t = .next { t with results := BitVec.ofNat 8 (v.toNat % 2) :: t.results }

/-! ## The CRC functions -/

/-- The byte step is the bit step on b[0] to b[7] in that order, and it equals the byte-wise, table-less form, for every
register value and byte; with R69's example (40_crc.md R69). -/
def Obligations.ByteStepEqualsByteWiseForm : Prop :=
  (∀ (c : Crc) (b : Byte),
    crcByte c b = (List.range 8).foldl (fun r j => crcStep r (b.getLsbD j)) c ∧
    crcByte c b = Nat.iterate (fun r : Crc => (r >>> 1) ^^^ (if r.getLsbD 0 then 0xA001#16 else 0#16)) 8
      (c ^^^ b.setWidth 16)) ∧
  crcByte 0xFFFF#16 0x01#8 = 0x807E#16

/-- The residue property: a sequence followed by its checksum has checksum 0, and so has every built frame (40_crc.md
R71). -/
def Obligations.ChecksumResidueIsZero : Prop :=
  (∀ s : List Byte, crc16 (s ++ [(compute s).1, (compute s).2]) = 0x0000#16) ∧
  ∀ (a c : Byte) (ps : List Byte), crc16 (buildFrame a c ps) = 0x0000#16

/-- Two sequences of equal length that differ in exactly one bit have different checksums (40_crc.md R72). -/
def Obligations.OneBitFlipChangesTheChecksum : Prop :=
  ∀ (p q : List Byte) (b : Byte) (j : Nat), j < 8 →
    compute (p ++ b :: q) ≠ compute (p ++ (b ^^^ (1#8 <<< j)) :: q)

/-- `parse` undoes `build`: for every address, command and up to 254 parameters the parsed payload is
command ‖ params (41_frame.md R81, R85, R91). -/
def Obligations.ParseOfBuild : Prop :=
  ∀ (a c : Byte) (ps : List Byte), ps.length ≤ 254 → parseFrame (buildFrame a c ps) a = .ok (c :: ps)

/-- The checks of `parse` in their order: length before CRC before address, the first failing one reported
(41_frame.md R85, R92; 60_exceptions.md R110). -/
def Obligations.ParseReportsTheFirstFailingCheck : Prop :=
  (∀ (r : List Byte) (e : Byte), r.length < 4 ∨ 258 < r.length → parseFrame r e = .error .wrongLength) ∧
  (∀ (f : List Byte) (x : Byte × Byte) (e : Byte), 2 ≤ f.length → f.length ≤ 256 → x ≠ compute f →
    parseFrame (f ++ [x.1, x.2]) e = .error .wrongCrc) ∧
  (∀ (a e : Byte) (f : List Byte), 1 ≤ f.length → f.length ≤ 255 → a ≠ e →
    parseFrame (a :: f ++ [(compute (a :: f)).1, (compute (a :: f)).2]) e = .error .wrongAddress) ∧
  (∀ (e : Byte) (f : List Byte), 1 ≤ f.length → f.length ≤ 255 →
    parseFrame (e :: f ++ [(compute (e :: f)).1, (compute (e :: f)).2]) e = .ok f)

/-! ## Acceptance of the operations -/

/-- CRC_INIT while idle: CRC = 0xFFFF, DONE, the other flags 0, CMDR = 0x01, nothing else (40_crc.md R73), but for the
sequencer position, 0 after every acceptance (10_state.md R29). -/
def Obligations.CrcInitLoadsTheInitialValue : Prop :=
  ∀ s : State, s.busy = false →
    decode 0x40001#19 = .crcInit ∧
    exec .crcInit s = .next
      { s with cmdr := 0x01#8, crc := 0xFFFF#16, done := true, err := .noError, matched := false, sent := false,
               cmderr := false, ovr := false, idx := 0#9, k := 0#3 }

/-- CRC_MATCH while idle: MATCH is the byte-wise comparison of the candidate with CRC, low byte with low byte; CRC and
CAND are unchanged (40_crc.md R79, R80), the sequencer position is 0 as after every acceptance (10_state.md R29). -/
def Obligations.CrcMatchComparesLowThenHigh : Prop :=
  ∀ s : State, s.busy = false →
    decode 0x40003#19 = .crcMatch ∧
    exec .crcMatch s = .next
      { s with cmdr := 0x03#8, done := true, err := .noError, sent := false, cmderr := false, ovr := false,
               idx := 0#9, k := 0#3,
               matched := decide (s.candLo.toNat = s.crc.toNat % 256 ∧ s.candHi.toNat = s.crc.toNat / 256) }

/-- CRC_FEED while idle: accepted without touching CRC or CMDR; one byte to feed, the byte written (40_crc.md R74;
10_state.md R34). -/
def Obligations.CrcFeedIsAccepted : Prop :=
  ∀ (s : State) (v : Byte), s.busy = false →
    decode (BitVec.ofNat 19 (0x40700 + v.toNat)) = .crcFeed v ∧
    exec (.crcFeed v) s = .next
      { s with done := false, err := .noError, matched := false, sent := false, cmderr := false, ovr := false,
               op := .feedOp, endi := 1#9, idx := 0#9, k := 0#3, sreg := v, phase := .feed }

/-- CRC_BUF while idle, at acceptance: CMDERR for LEN > 258; 0xFFFF at once for LEN = 0; otherwise a busy window over
BUF[0..LEN-1], or the model fault where BUF[0] is unwritten (40_crc.md R75); the sequencer position is 0 after each of
these acceptances (10_state.md R29; DEDUCED for the first, notes/assumptions/21.md). -/
def Obligations.CrcBufIsAccepted : Prop :=
  ∀ s : State, s.busy = false →
    decode 0x40002#19 = .crcBuf ∧
    (258 < s.len.toNat → exec .crcBuf s = .next
      { s with cmdr := 0x02#8, done := true, err := .noError, matched := false, sent := false, cmderr := true,
               ovr := false, idx := 0#9, k := 0#3 }) ∧
    (s.len.toNat = 0 → exec .crcBuf s = .next
      { s with cmdr := 0x02#8, crc := 0xFFFF#16, done := true, err := .noError, matched := false, sent := false,
               cmderr := false, ovr := false, idx := 0#9, k := 0#3 }) ∧
    (1 ≤ s.len.toNat → s.len.toNat ≤ 258 → ∀ b, s.buf.readByte 0 = some b → exec .crcBuf s = .next
      { s with cmdr := 0x02#8, crc := 0xFFFF#16, done := false, err := .noError, matched := false, sent := false,
               cmderr := false, ovr := false, op := .crcBuf, endi := s.len, idx := 0#9, k := 0#3, sreg := b,
               phase := .feed }) ∧
    (1 ≤ s.len.toNat → s.len.toNat ≤ 258 → s.wbuf 0 = false →
      exec .crcBuf s = .fault (.unwrittenBufRead 0))

/-- BUILD while idle, at acceptance: CMDERR outside 2..256 with BUF, LEN and CRC unchanged; otherwise a busy window over
BUF[0..LEN-1], or the model fault where BUF[0] is unwritten (41_frame.md R82); the sequencer position is 0 after each
acceptance (10_state.md R29; DEDUCED for the rejected one, notes/assumptions/21.md). -/
def Obligations.BuildIsAccepted : Prop :=
  ∀ s : State, s.busy = false →
    decode 0x40004#19 = .build ∧
    (s.len.toNat < 2 ∨ 256 < s.len.toNat → exec .build s = .next
      { s with cmdr := 0x04#8, done := true, err := .noError, matched := false, sent := false, cmderr := true,
               ovr := false, idx := 0#9, k := 0#3 }) ∧
    (2 ≤ s.len.toNat → s.len.toNat ≤ 256 → ∀ b, s.buf.readByte 0 = some b → exec .build s = .next
      { s with cmdr := 0x04#8, crc := 0xFFFF#16, done := false, err := .noError, matched := false, sent := false,
               cmderr := false, ovr := false, op := .build, endi := s.len, idx := 0#9, k := 0#3, sreg := b,
               phase := .feed }) ∧
    (2 ≤ s.len.toNat → s.len.toNat ≤ 256 → s.wbuf 0 = false → exec .build s = .fault (.unwrittenBufRead 0))

/-- PARSE while idle, at acceptance: WrongLength outside 4..258, at once, with CRC, BUF and LEN unchanged; otherwise a
busy window over BUF[0..LEN-3], or the model fault where BUF[0] is unwritten (41_frame.md R86); the sequencer position
is 0 after each acceptance (10_state.md R29). -/
def Obligations.ParseIsAccepted : Prop :=
  ∀ s : State, s.busy = false →
    decode 0x40005#19 = .parse ∧
    (s.len.toNat < 4 ∨ 258 < s.len.toNat → exec .parse s = .next
      { s with cmdr := 0x05#8, done := true, err := .wrongLength, matched := false, sent := false, cmderr := false,
               ovr := false, plen := 0x00#8, idx := 0#9, k := 0#3 }) ∧
    (4 ≤ s.len.toNat → s.len.toNat ≤ 258 → ∀ b, s.buf.readByte 0 = some b → exec .parse s = .next
      { s with cmdr := 0x05#8, crc := 0xFFFF#16, done := false, err := .noError, matched := false, sent := false,
               cmderr := false, ovr := false, op := .parse, endi := BitVec.ofNat 9 (s.len.toNat - 2), idx := 0#9,
               k := 0#3, sreg := b, phase := .feed }) ∧
    (4 ≤ s.len.toNat → s.len.toNat ≤ 258 → s.wbuf 0 = false → exec .parse s = .fault (.unwrittenBufRead 0))

/-! ## The sequencer -/

/-- The feed micro-step, case by case; it writes only CRC, sreg, k, idx and phase (10_state.md R32; 40_crc.md R67). -/
def Obligations.FeedMicroStep : Prop :=
  ∀ (s : State) (r : List Agent), s.phase = .feed → s.sched = .sequencer :: r →
    let c := (s.crc >>> 1) ^^^ (if (s.crc.getLsbD 0 != s.sreg.getLsbD 0) then 0xA001#16 else 0#16)
    (s.k ≠ 7#3 → step s = .next { s with crc := c, sreg := s.sreg >>> 1, k := s.k + 1#3, sched := r }) ∧
    (s.k = 7#3 → s.idx + 1#9 = s.endi → step s = .next
      { s with crc := c, sreg := s.sreg >>> 1, k := 0#3, idx := s.idx + 1#9, phase := .finish, sched := r }) ∧
    (s.k = 7#3 → s.idx + 1#9 ≠ s.endi → (s.idx + 1#9).toNat ≤ 257 →
      (∀ b, s.buf.readByte (s.idx + 1#9).toNat = some b →
        step s = .next { s with crc := c, sreg := b, k := 0#3, idx := s.idx + 1#9, sched := r }) ∧
      (s.wbuf (s.idx + 1#9).toNat = false → step s = .fault (.unwrittenBufRead (s.idx + 1#9).toNat)))

/-- The finish micro-step of CRC_FEED and CRC_BUF only clears BUSY and sets DONE (10_state.md R33; 40_crc.md R74,
R76). -/
def Obligations.CrcFinishMicroStep : Prop :=
  ∀ (s : State) (r : List Agent), s.phase = .finish → s.op = .feedOp ∨ s.op = .crcBuf → s.sched = .sequencer :: r →
    step s = .next { s with phase := .idle, done := true, sched := r }

/-- The finish micro-step of BUILD: CRC's low byte at BUF[LEN], its high byte at BUF[LEN+1], LEN + 2, BUSY cleared, DONE
set; every other byte of BUF and every other register is unchanged (41_frame.md R84). -/
def Obligations.BuildFinishMicroStep : Prop :=
  ∀ (s : State) (r : List Agent), s.phase = .finish → s.op = .build → s.sched = .sequencer :: r →
    2 ≤ s.len.toNat → s.len.toNat ≤ 256 →
    ∃ m : Memory,
      step s = .next { s with buf := m, len := BitVec.ofNat 9 (s.len.toNat + 2), phase := .idle, done := true,
                              sched := r } ∧
      m.readByte s.len.toNat = some (BitVec.ofNat 8 (s.crc.toNat % 256)) ∧
      m.readByte (s.len.toNat + 1) = some (BitVec.ofNat 8 (s.crc.toNat / 256)) ∧
      ∀ j, j ≠ s.len.toNat → j ≠ s.len.toNat + 1 → m.readByte j = s.buf.readByte j

/-- The finish micro-step of PARSE: MATCH is the comparison of the trailer with CRC; ERR is WrongCrc, WrongAddress or
none; PLEN and SENT as the success needs; CRC, BUF, LEN, EXP_ADDR and CAND are unchanged; a trailer byte never written
is the model fault (41_frame.md R87), of the lower index where both are (DEDUCED, notes/assumptions/14.md). -/
def Obligations.ParseFinishMicroStep : Prop :=
  ∀ (s : State) (r : List Agent), s.phase = .finish → s.op = .parse → s.sched = .sequencer :: r →
    4 ≤ s.len.toNat → s.len.toNat ≤ 258 →
    (∀ lo hi a p, s.buf.readByte (s.len.toNat - 2) = some lo → s.buf.readByte (s.len.toNat - 1) = some hi →
      s.buf.readByte 0 = some a → s.buf.readByte 1 = some p →
      let ok := decide (lo.toNat = s.crc.toNat % 256 ∧ hi.toNat = s.crc.toNat / 256)
      step s = .next
        { s with
          matched := ok
          err := if ok = false then .wrongCrc else if a ≠ s.expAddr then .wrongAddress else .noError
          plen := if ok = true ∧ a = s.expAddr then BitVec.ofNat 8 (s.len.toNat - 3) else 0x00#8
          sent := decide (ok = true ∧ a = s.expAddr ∧ s.len.toNat = 4 ∧ p = 0x05#8)
          phase := .idle
          done := true
          sched := r }) ∧
    (s.wbuf (s.len.toNat - 2) = false → step s = .fault (.unwrittenBufRead (s.len.toNat - 2))) ∧
    (∀ lo, s.buf.readByte (s.len.toNat - 2) = some lo → s.wbuf (s.len.toNat - 1) = false →
      step s = .fault (.unwrittenBufRead (s.len.toNat - 1)))

/-! ## The operations as a whole: the sequencer computes the atomic rule -/

/-- CRC_FEED as a whole: busy with every flag clear for 9 sequencer steps, then `CRC <- crc_byte(CRC, v)` and DONE; CMDR
and everything else the host can observe is unchanged (40_crc.md R74). What the hidden registers hold afterwards is the
model's reading of the spec (DEDUCED, notes/assumptions/12.md). -/
def Obligations.CrcFeedRunsToItsAtomicEffect : Prop :=
  ∀ (s : State) (v : Byte) (r : List Agent), s.busy = false →
    let start : State :=
      { s with pending := .txn (0x40700#19 ||| v.setWidth 19) :: s.pending
               sched := .host :: (List.replicate 9 .sequencer ++ r) }
    (∀ m, m < 9 → ∃ t, run (m + 1) start = .next t ∧ t.statusByte = 0x01#8) ∧
    run 10 start = .next
      { s with crc := crcByte s.crc v, done := true, err := .noError, matched := false, sent := false,
               cmderr := false, ovr := false, op := .feedOp, endi := 1#9, idx := 1#9, k := 0#3, sreg := 0x00#8,
               sched := r }

/-- CRC_BUF as a whole: after 8*LEN+1 sequencer steps CRC is the checksum of BUF[0..LEN-1] and DONE is set; BUF and every
other register but CMDR and the flags is unchanged (40_crc.md R76; 10_state.md R31, R35). What the hidden registers hold
afterwards is the model's reading of the spec (DEDUCED, notes/assumptions/12.md). -/
def Obligations.CrcBufRunsToItsAtomicEffect : Prop :=
  ∀ (s : State) (f : List Byte) (r : List Agent), s.busy = false → 1 ≤ s.len.toNat → s.len.toNat ≤ 258 →
    s.buf.slice 0 s.len.toNat = some f →
    run (8 * s.len.toNat + 2)
      { s with pending := .txn 0x40002#19 :: s.pending
               sched := .host :: (List.replicate (8 * s.len.toNat + 1) .sequencer ++ r) } = .next
      { s with cmdr := 0x02#8, crc := crc16 f, done := true, err := .noError, matched := false, sent := false,
               cmderr := false, ovr := false, op := .crcBuf, endi := s.len, idx := s.len, k := 0#3, sreg := 0x00#8,
               sched := r }

/-- BUILD as a whole: after 8*L0+1 sequencer steps BUF[0..L0+1] is `build` of the address, command and params,
LEN = L0+2 and CRC is the checksum of the L0 bytes; bytes above are unchanged, as are EXP_ADDR, CAND, PLEN and, since
acceptance set it to 0x04, CMDR (41_frame.md R81, R84). Nothing is said of the hidden registers while idle. -/
def Obligations.BuildRunsToItsAtomicEffect : Prop :=
  ∀ (s : State) (a c : Byte) (ps : List Byte) (r : List Agent), s.busy = false → s.len.toNat ≤ 256 →
    s.buf.slice 0 s.len.toNat = some (a :: c :: ps) →
    ∃ (m : Memory) (h : State),
      run (8 * s.len.toNat + 2)
        { s with pending := .txn 0x40004#19 :: s.pending
                 sched := .host :: (List.replicate (8 * s.len.toNat + 1) .sequencer ++ r) } = .next
        { s with cmdr := 0x04#8, crc := crc16 (a :: c :: ps), done := true, err := .noError, matched := false,
                 sent := false, cmderr := false, ovr := false, buf := m, len := BitVec.ofNat 9 (s.len.toNat + 2),
                 op := h.op, endi := h.endi, idx := h.idx, k := h.k, sreg := h.sreg, sched := r } ∧
      m.slice 0 (s.len.toNat + 2) = some (buildFrame a c ps) ∧
      ∀ i, s.len.toNat + 2 ≤ i → m.readByte i = s.buf.readByte i

/-- PARSE as a whole, past its length check: after 8*(LEN-2)+1 sequencer steps the registers say what
`parse(BUF[0..LEN-1], EXP_ADDR)` is. On success ERR = 00, MATCH = 1, PLEN is the payload's length, the payload stands
in BUF[1..LEN-3], SENT is set exactly for the payload [0x05]; on failure ERR is the failing check and PLEN = SENT = 0.
CRC is the checksum of BUF[0..LEN-3]; BUF, LEN, EXP_ADDR and CAND are unchanged (41_frame.md R85, R87 to R90;
60_exceptions.md R107). Nothing is said of the hidden registers while idle. -/
def Obligations.ParseRunsToItsAtomicEffect : Prop :=
  ∀ (s : State) (f : List Byte) (r : List Agent), s.busy = false → 4 ≤ s.len.toNat → s.len.toNat ≤ 258 →
    s.buf.slice 0 s.len.toNat = some f →
    ∃ (e : ErrCode) (m x : Bool) (n : Byte) (h : State),
      run (8 * (s.len.toNat - 2) + 2)
        { s with pending := .txn 0x40005#19 :: s.pending
                 sched := .host :: (List.replicate (8 * (s.len.toNat - 2) + 1) .sequencer ++ r) } = .next
        { s with cmdr := 0x05#8, crc := crc16 (f.take (s.len.toNat - 2)), done := true, err := e, matched := m,
                 sent := x, plen := n, cmderr := false, ovr := false, op := h.op, endi := h.endi, idx := h.idx,
                 k := h.k, sreg := h.sreg, sched := r } ∧
      match parseFrame f s.expAddr with
      | .ok p =>
        e = .noError ∧ m = true ∧ n.toNat = p.length ∧ 1 ≤ p.length ∧ p.length ≤ 255 ∧
        s.buf.slice 1 p.length = some p ∧ (x = true ↔ p = [0x05#8])
      | .error e' => e = e' ∧ e ≠ .noError ∧ n = 0x00#8 ∧ x = false ∧ (m = true ↔ e = .wrongAddress)

/-- The round trip, under every schedule without a reset: BUILD, poll, EXP_ADDR <- BUF[0], PARSE, poll come to a final
state with ERR = 00, PLEN = L0-1, BUF[1..L0-1] unchanged, and SENT exactly when L0 = 2 and BUF[1] = 0x05; every
STATUS byte the two polls read has OVR = 0, and so has the final state (41_frame.md R91; 70_reset_and_hazards.md R129). That the run goes on fairly once the schedule is
used up is the model's choice (notes/assumptions/1.md); `poll` is read as in notes/assumptions/9.md. -/
def Obligations.BuildThenParseRoundTrip : Prop :=
  ∀ (s : State) (a c : Byte) (ps : List Byte), s.busy = false → .reset ∉ s.sched → s.len.toNat ≤ 256 →
    s.buf.slice 0 s.len.toNat = some (a :: c :: ps) →
    s.pending = [.txn 0x40004#19, .poll, .txn (0x40400#19 ||| a.setWidth 19), .txn 0x40005#19, .poll] →
    ∃ n t, run n s = .next t ∧ Final t ∧ t.err = .noError ∧ t.plen.toNat = s.len.toNat - 1 ∧
      t.buf.slice 1 (s.len.toNat - 1) = some (c :: ps) ∧
      (t.sent = true ↔ s.len.toNat = 2 ∧ c = 0x05#8) ∧ t.ovr = false ∧
      ∃ polled, t.results = polled ++ s.results ∧ ∀ b ∈ polled, b.getLsbD 7 = false

/-- Streaming equivalence, under every schedule without a reset: CRC_INIT and one CRC_FEED with poll for each byte leave
[CRC_LO, CRC_HI] = compute(s); so do loading at most 258 bytes into BUF, writing LEN and running CRC_BUF
(40_crc.md R77). That the run goes on fairly once the schedule is used up is the model's choice
(notes/assumptions/1.md); `poll` is read as in notes/assumptions/9.md. -/
def Obligations.StreamingEqualsBuffered : Prop :=
  (∀ (s : State) (bs : List Byte), s.busy = false → .reset ∉ s.sched →
    s.pending = .txn 0x40001#19 :: bs.flatMap (fun b => [.txn (0x40700#19 ||| b.setWidth 19), .poll]) →
    ∃ n t, run n s = .next t ∧ Final t ∧ (t.crc.extractLsb' 0 8, t.crc.extractLsb' 8 8) = compute bs) ∧
  (∀ (s : State) (bs : List Byte), s.busy = false → .reset ∉ s.sched → bs.length ≤ 258 →
    s.pending = hostProgram [.load 0 bs, .setlen (BitVec.ofNat 9 bs.length), .cmd .crcBuf, .poll] →
    ∃ n t, run n s = .next t ∧ Final t ∧ (t.crc.extractLsb' 0 8, t.crc.extractLsb' 8 8) = compute bs)

/-- The host-program forms `setlen` and `load` do what their names say: LEN takes all 9 bits; BUF[i..] takes the bytes and
no other byte changes (30_encoding.md R63). The run is under the empty schedule, whose order is the model's choice
(notes/assumptions/1.md). -/
def Obligations.SetlenAndLoadWriteTheirTargets : Prop :=
  (∀ (s : State) (n : Len), s.busy = false →
    run 2 { s with pending := (HostLine.setlen n).ops, sched := [] } =
      .next { s with len := n, pending := [], sched := [] }) ∧
  (∀ (s : State) (i : Nat) (bs : List Byte), s.busy = false → i + bs.length ≤ 258 →
    ∃ m : Memory,
      run bs.length { s with pending := (HostLine.load i bs).ops, sched := [] } =
        .next { s with buf := m, pending := [], sched := [] } ∧
      m.slice i bs.length = some bs ∧ ∀ j, j < i ∨ i + bs.length ≤ j → m.readByte j = s.buf.readByte j)

/-! ## The machine as a whole -/

/-- No host access during a busy window reaches the running operation: under any interleaving of host turns and
sequencer turns inside the window the block computes what it computes undisturbed, fault or no fault
(10_state.md R35; 20_memory.md R49; 70_reset_and_hazards.md R127, R128). -/
def Obligations.HostCannotDisturbABusyWindow : Prop :=
  ∀ (s : State) (order : List Agent), Inv s → .reset ∉ order → order.count .sequencer < s.remaining →
    mapState State.blockCore (run order.length { s with sched := order }) =
      mapState State.blockCore
        (run (order.count .sequencer) { s with sched := List.replicate (order.count .sequencer) .sequencer })

/-- Each sequencer step of a busy window brings its end one step nearer, and no window is longer than 2065 steps
(60_exceptions.md R117; 10_state.md R31). -/
def Obligations.BusyWindowIsBounded : Prop :=
  ∀ s : State, Inv s → s.remaining ≤ 2065 ∧ (s.busy = true → 1 ≤ s.remaining) ∧
    ∀ t, s.busy = true → s.sequencerStep = .next t → t.remaining + 1 = s.remaining

/-- Every accepted operation completes: with the sequencer not starved (the schedule used up), within 2065 steps the block
is idle, or the operation has consumed a byte of BUF nothing wrote (60_exceptions.md R117). The order after the schedule
is used up is the model's choice (notes/assumptions/1.md). -/
def Obligations.EveryOperationEnds : Prop :=
  ∀ s : State, Inv s → s.sched = [] → s.busy = true →
    ∃ n, n ≤ 2065 ∧
      ((∃ t, run n s = .next t ∧ t.busy = false ∧ t.done = true) ∨ ∃ i, run n s = .fault (.unwrittenBufRead i))

/-- The one thing that stops the machine is a read of a byte of BUF nothing wrote: the guard for indices BUF does not
have is never reached, and nothing is refused (42_host_access.md R106; 10_state.md R30; 00_scope.md R12). -/
def Obligations.OnlyAnUnwrittenByteStopsTheMachine : Prop :=
  ∀ s : State, Inv s →
    (∀ f, step s = .fault f → ∃ i, i ≤ 257 ∧ s.wbuf i = false ∧ f = .unwrittenBufRead i) ∧
    ∀ r, step s ≠ .refused r

/-- The machine right after reset meets the invariant. -/
def Obligations.ResetMeetsTheInvariant : Prop := Inv State.reset

/-- Every step keeps the invariant, from every state that meets it, under every schedule and host program. -/
def Obligations.EveryStepKeepsTheInvariant : Prop :=
  ∀ s t : State, Inv s → step s = .next t → Inv t

/-- CRC changes only by reset, by the bit step of a feed micro-step, and by the load of 0xFFFF at CRC_INIT, CRC_BUF,
BUILD and PARSE accepted while idle and past their range check (10_state.md R17). -/
def Obligations.OnlyTheseWriteCrc : Prop :=
  ∀ s t : State, step s = .next t → t.crc ≠ s.crc →
    s.nextAgent = .reset ∨
    (s.nextAgent = .sequencer ∧ s.phase = .feed ∧ t.crc = crcStep s.crc (s.sreg.getLsbD 0)) ∨
    (s.nextAgent = .host ∧ s.busy = false ∧ t.crc = 0xFFFF#16 ∧
      (s.fetch = some .crcInit ∨ (s.fetch = some .crcBuf ∧ s.len.toNat ≤ 258) ∨
       (s.fetch = some .build ∧ 2 ≤ s.len.toNat ∧ s.len.toNat ≤ 256) ∨
       (s.fetch = some .parse ∧ 4 ≤ s.len.toNat ∧ s.len.toNat ≤ 258)))

/-- BUF changes only by reset, by WR_BUF while idle at its own index, and by BUILD's finish step at its two trailer
bytes (10_state.md R20; 60_exceptions.md R111: PARSE never writes BUF). -/
def Obligations.OnlyTheseWriteBuf : Prop :=
  ∀ (s t : State) (i : Nat), step s = .next t → t.buf.readByte i ≠ s.buf.readByte i →
    s.nextAgent = .reset ∨
    (s.nextAgent = .sequencer ∧ s.phase = .finish ∧ s.op = .build ∧ (i = s.len.toNat ∨ i = s.len.toNat + 1)) ∨
    (s.nextAgent = .host ∧ s.busy = false ∧ i ≤ 257 ∧
      ∃ v, s.fetch = some (.wrBuf (BitVec.ofNat 10 (0x100 + i)) v) ∧ t.buf.readByte i = some v)

/-- CMDR, LEN, EXP_ADDR, CAND and PLEN change only by their own writers (10_state.md R14, R18, R19, R21, R22): the host
while idle for the operand registers, BUILD for LEN, PARSE for PLEN, an accepted CMD write for CMDR, and reset. -/
def Obligations.OnlyTheseWriteTheRegisters : Prop :=
  ∀ s t : State, step s = .next t → s.nextAgent ≠ .reset →
    (t.expAddr ≠ s.expAddr → s.nextAgent = .host ∧ s.busy = false ∧ s.fetch = some (.wrExpAddr t.expAddr)) ∧
    (t.candLo ≠ s.candLo → s.nextAgent = .host ∧ s.busy = false ∧ s.fetch = some (.wrCandLo t.candLo)) ∧
    (t.candHi ≠ s.candHi → s.nextAgent = .host ∧ s.busy = false ∧ s.fetch = some (.wrCandHi t.candHi)) ∧
    (t.len ≠ s.len →
      (s.nextAgent = .sequencer ∧ s.phase = .finish ∧ s.op = .build ∧ t.len = s.len + 2#9) ∨
      (s.nextAgent = .host ∧ s.busy = false ∧ ∃ v, s.fetch = some (.wrLenLo v) ∨ s.fetch = some (.wrLenHi v))) ∧
    (t.plen ≠ s.plen →
      (s.nextAgent = .sequencer ∧ s.phase = .finish ∧ s.op = .parse) ∨
      (s.nextAgent = .host ∧ s.busy = false ∧ s.fetch = some .parse ∧ t.plen = 0x00#8 ∧ t.err = .wrongLength)) ∧
    (t.cmdr ≠ s.cmdr → s.nextAgent = .host ∧ s.busy = false ∧
      s.fetch = some (decode (0x40000#19 ||| t.cmdr.setWidth 19)))

/-- Who sets a flag, and who clears it (10_state.md R24 to R27). OVR is set only by a host write while busy; CMDERR only
by an illegal code, BUILD or CRC_BUF out of range; MATCH only by CRC_MATCH and by PARSE's finish step; SENT only by
PARSE's finish step; ERR only by PARSE, WrongLength at acceptance and the others at its finish step; DONE only by a
finish step or by an immediate operation. DONE, CMDERR and OVR are cleared only by acceptance or reset, and in the states
of the invariant ERR, MATCH and SENT too. -/
def Obligations.OnlyTheseSetTheFlags : Prop :=
  ∀ s t : State, step s = .next t →
    let idleHost := s.nextAgent = .host ∧ s.busy = false
    let parseFinish := s.nextAgent = .sequencer ∧ s.phase = .finish ∧ s.op = .parse
    let cleared := s.nextAgent = .reset ∨ (idleHost ∧
      ∃ w rest, s.pending = .txn w :: rest ∧ w.getLsbD 18 = true ∧
        (w.extractLsb' 8 10 = 0x000#10 ∨ w.extractLsb' 8 10 = 0x007#10))
    (t.ovr = true → s.ovr = true ∨
      (s.nextAgent = .host ∧ s.busy = true ∧ ∃ i, s.fetch = some i ∧ i.isWrite = true)) ∧
    (t.cmderr = true → s.cmderr = true ∨ (idleHost ∧
      ((∃ c, 6 ≤ c.toNat ∧ s.fetch = some (.cmdIllegal c)) ∨
       (s.fetch = some .build ∧ (s.len.toNat < 2 ∨ 256 < s.len.toNat)) ∨
       (s.fetch = some .crcBuf ∧ 258 < s.len.toNat)))) ∧
    (t.matched = true → s.matched = true ∨ (idleHost ∧ s.fetch = some .crcMatch) ∨ parseFinish) ∧
    (t.sent = true → s.sent = true ∨ parseFinish) ∧
    (t.err ≠ .noError → t.err = s.err ∨
      (idleHost ∧ s.fetch = some .parse ∧ t.err = .wrongLength ∧ (s.len.toNat < 4 ∨ 258 < s.len.toNat)) ∨
      (parseFinish ∧ t.err ≠ .wrongLength)) ∧
    (t.done = true → s.done = true ∨ (s.nextAgent = .sequencer ∧ s.phase = .finish) ∨ (idleHost ∧
      (s.fetch = some .nop ∨ s.fetch = some .crcInit ∨ s.fetch = some .crcMatch ∨
       (∃ c, 6 ≤ c.toNat ∧ s.fetch = some (.cmdIllegal c)) ∨
       (s.fetch = some .crcBuf ∧ (s.len.toNat = 0 ∨ 258 < s.len.toNat)) ∨
       (s.fetch = some .build ∧ (s.len.toNat < 2 ∨ 256 < s.len.toNat)) ∨
       (s.fetch = some .parse ∧ (s.len.toNat < 4 ∨ 258 < s.len.toNat))))) ∧
    (s.done = true → t.done = false → cleared) ∧
    (s.cmderr = true → t.cmderr = false → cleared) ∧
    (s.ovr = true → t.ovr = false → cleared) ∧
    (Inv s →
      (s.err ≠ .noError → t.err ≠ s.err → cleared) ∧
      (s.matched = true → t.matched = false → cleared) ∧
      (s.sent = true → t.sent = false → cleared))

/-- The sequencer position, `idx` and `k` (10_state.md R29): 0 after each acceptance, immediate or not; otherwise moved only
by a feed micro-step, to the next bit or past the last bit to the next byte (R32), and by reset; in the states of the
invariant it never wraps nor passes `endi` (00_scope.md R12). -/
def Obligations.OnlyTheseMoveThePosition : Prop :=
  ∀ s t : State, step s = .next t →
    let accepted := s.nextAgent = .host ∧ s.busy = false ∧
      ∃ w rest, s.pending = .txn w :: rest ∧ w.getLsbD 18 = true ∧
        (w.extractLsb' 8 10 = 0x000#10 ∨ w.extractLsb' 8 10 = 0x007#10)
    let fed := s.nextAgent = .sequencer ∧ s.phase = .feed
    (accepted → t.idx = 0#9 ∧ t.k = 0#3) ∧
    (fed → (s.k ≠ 7#3 ∧ t.idx = s.idx ∧ t.k = s.k + 1#3) ∨ (s.k = 7#3 ∧ t.idx = s.idx + 1#9 ∧ t.k = 0#3)) ∧
    (t.idx ≠ s.idx ∨ t.k ≠ s.k → s.nextAgent = .reset ∨ accepted ∨ fed) ∧
    (Inv s → fed →
      t.idx.toNat ≤ t.endi.toNat ∧
      8 * t.idx.toNat + t.k.toNat = 8 * s.idx.toNat + s.k.toNat + 1)
end

