-- ==== Sys2Proof/Laws/Crc.lean ====
section
/-! SUPPORT. Small laws of the CRC functions. -/

namespace Sys2Proof.Machine

@[simp] theorem crcBits_zero (c : Crc) (b : Byte) : crcBits c b 0 = c := rfl

theorem crcBits_succ (c : Crc) (b : Byte) (j : Nat) :
    crcBits c b (j + 1) = crcStep (crcBits c b j) (b.getLsbD j) := rfl

theorem crcBits_eight (c : Crc) (b : Byte) : crcBits c b 8 = crcByte c b := rfl

@[simp] theorem crc16_nil : crc16 [] = crcInit := rfl

theorem crc16_append (s t : List Byte) : crc16 (s ++ t) = t.foldl crcByte (crc16 s) := by
  simp [crc16, List.foldl_append]

theorem crc16_snoc (s : List Byte) (b : Byte) : crc16 (s ++ [b]) = crcByte (crc16 s) b := by
  simp [crc16_append]

/-- What the sequencer shifts out of sreg is the byte's bit k (40_crc.md R68). -/
theorem getLsbD_shift (b : Byte) (k : Nat) : (b >>> k).getLsbD 0 = b.getLsbD k := by
  simp

theorem byte_shift_eight (b : Byte) : b >>> 8 = 0#8 := by
  ext i hi
  simp

theorem crcBytes_eq (c : Crc) : crcBytes c = (crcLo c, crcHi c) := rfl

theorem State.computed_eq (s : State) : s.computed = crcBytes s.crc := rfl

/-- Two bytes match exactly when they are the same pair (40_crc.md R80). -/
theorem crcMatches_iff (a b : Byte × Byte) : crcMatches a b = true ↔ a = b := by
  obtain ⟨a0, a1⟩ := a
  obtain ⟨b0, b1⟩ := b
  simp [crcMatches]

@[simp] theorem length_trailerBytes (t : Byte × Byte) : (trailerBytes t).length = 2 := rfl

end Sys2Proof.Machine
end

