-- ==== Sys2Proof/Laws/Memory.lean ====
section
/-! SUPPORT. The laws of BUF: a read after a write, the canonical form kept by a write, and what a slice says. -/

namespace Sys2Proof.Machine

@[simp] theorem Memory.readByte_nil (i : Nat) : Memory.readByte [] i = none := rfl

theorem Memory.readByte_writeByte (m : Memory) (i j : Nat) (v : Byte) :
    (m.writeByte i v).readByte j = if j = i then some v else m.readByte j := by
  induction m with
  | nil => simp [Memory.writeByte, Memory.readByte]
  | cons c m ih =>
    obtain ⟨a, w⟩ := c
    simp only [Memory.writeByte]
    split_ifs with h1 h2 h3 h4 <;> simp_all [Memory.readByte]

@[simp] theorem Memory.readByte_writeByte_same (m : Memory) (i : Nat) (v : Byte) :
    (m.writeByte i v).readByte i = some v := by
  simp [Memory.readByte_writeByte]

theorem Memory.readByte_writeByte_other (m : Memory) {i j : Nat} (v : Byte) (h : j ≠ i) :
    (m.writeByte i v).readByte j = m.readByte j := by
  simp [Memory.readByte_writeByte, h]

theorem Memory.mem_writeByte {m : Memory} {i : Nat} {v : Byte} {c : Host.Cell} (h : c ∈ m.writeByte i v) :
    c = (i, v) ∨ c ∈ m := by
  induction m with
  | nil => simpa [Memory.writeByte] using h
  | cons d m ih =>
    obtain ⟨a, w⟩ := d
    simp only [Memory.writeByte] at h
    split_ifs at h <;> simp only [List.mem_cons] at h ⊢
    · tauto
    · tauto
    · rcases h with h | h
      · exact .inr (.inl h)
      · exact (ih h).imp_right .inr

theorem Memory.wf_nil : Memory.wf [] := by simp [Memory.wf]

/-- A write inside BUF keeps the canonical form. -/
theorem Memory.writeByte_wf {m : Memory} {i : Nat} (v : Byte) (hm : m.wf) (hi : i < Config.bufSize) :
    (m.writeByte i v).wf := by
  refine ⟨?_, fun c hc => ?_⟩
  · obtain ⟨hs, -⟩ := hm
    induction m with
    | nil => simp [Memory.writeByte]
    | cons d m ih =>
      obtain ⟨a, w⟩ := d
      obtain ⟨hd, hs⟩ := List.pairwise_cons.1 hs
      simp only [Memory.writeByte]
      split_ifs with h1 h2
      · refine List.pairwise_cons.2 ⟨fun c hc => ?_, List.pairwise_cons.2 ⟨hd, hs⟩⟩
        rcases List.mem_cons.1 hc with rfl | hc
        · exact h1
        · exact lt_trans h1 (hd c hc)
      · exact List.pairwise_cons.2 ⟨fun c hc => by simpa [h2] using hd c hc, hs⟩
      · refine List.pairwise_cons.2 ⟨fun c hc => ?_, ih hs⟩
        rcases Memory.mem_writeByte hc with rfl | hc
        · simp only; omega
        · exact hd c hc
  · rcases Memory.mem_writeByte hc with rfl | hc
    · exact hi
    · exact hm.2 c hc

/-- In canonical form two memories that read the same are the same data. -/
theorem Memory.ext_of_wf {m n : Memory} (hm : m.wf) (hn : n.wf) (h : ∀ i, m.readByte i = n.readByte i) : m = n := by
  have none_of_lt : ∀ (l : Memory) (a : Nat), (∀ c ∈ l, a < c.1) → l.readByte a = none := by
    intro l a hl
    induction l with
    | nil => rfl
    | cons d l ih =>
      obtain ⟨b, w⟩ := d
      have hb : a < b := hl (b, w) (by simp)
      simp [Memory.readByte, hb.ne, ih fun c hc => hl c (by simp [hc])]
  obtain ⟨hm, -⟩ := hm
  obtain ⟨hn, -⟩ := hn
  induction m generalizing n with
  | nil =>
    cases n with
    | nil => rfl
    | cons d n => simpa [Memory.readByte] using h d.1
  | cons c m ih =>
    obtain ⟨a, v⟩ := c
    cases n with
    | nil => simpa [Memory.readByte] using h a
    | cons d n =>
      obtain ⟨b, w⟩ := d
      obtain ⟨ha, hm'⟩ := List.pairwise_cons.1 hm
      obtain ⟨hb, hn'⟩ := List.pairwise_cons.1 hn
      have hab : a = b := by
        rcases lt_trichotomy a b with hlt | heq | hlt
        · have := h a
          have hx := none_of_lt n a fun c hc => lt_trans hlt (hb c hc)
          simp [Memory.readByte, hlt.ne, hx] at this
        · exact heq
        · have := h b
          have hx := none_of_lt m b fun c hc => lt_trans hlt (ha c hc)
          simp [Memory.readByte, hlt.ne, hx] at this
      subst hab
      have hvw : v = w := by simpa [Memory.readByte] using h a
      subst hvw
      congr 1
      refine ih (fun i => ?_) hm' hn'
      by_cases hi : i = a
      · subst hi
        rw [none_of_lt m i ha, none_of_lt n i hb]
      · simpa [Memory.readByte, hi] using h i

@[simp] theorem Memory.slice_zero (m : Memory) (i : Nat) : m.slice i 0 = some [] := rfl

theorem Memory.slice_succ_eq_some {m : Memory} {i n : Nat} {f : List Byte} :
    m.slice i (n + 1) = some f ↔ ∃ b r, m.readByte i = some b ∧ m.slice (i + 1) n = some r ∧ f = b :: r := by
  simp only [Memory.slice]
  cases m.readByte i <;> cases m.slice (i + 1) n <;> simp [eq_comm]

theorem Memory.slice_length {m : Memory} {i n : Nat} {f : List Byte} (h : m.slice i n = some f) : f.length = n := by
  induction n generalizing i f with
  | zero => simp_all
  | succ n ih =>
    obtain ⟨b, r, -, hr, rfl⟩ := Memory.slice_succ_eq_some.1 h
    simp [ih hr]

/-- A slice is its bytes: `slice i n = some f` exactly when `f` has `n` bytes and byte j of it is BUF[i+j]. -/
theorem Memory.slice_eq_some_iff {m : Memory} {i n : Nat} {f : List Byte} :
    m.slice i n = some f ↔ f.length = n ∧ ∀ j < n, m.readByte (i + j) = f[j]? := by
  induction n generalizing i f with
  | zero =>
    simp only [Memory.slice_zero, Option.some.injEq, Nat.not_lt_zero, false_implies, implies_true, and_true]
    exact ⟨fun h => by simp [← h], fun h => (List.eq_nil_of_length_eq_zero h).symm⟩
  | succ n ih =>
    rw [Memory.slice_succ_eq_some]
    constructor
    · rintro ⟨b, r, hb, hr, rfl⟩
      obtain ⟨hl, hr⟩ := ih.1 hr
      refine ⟨by simp [hl], fun j hj => ?_⟩
      cases j with
      | zero => simpa using hb
      | succ j => simpa [Nat.add_assoc, Nat.add_comm 1 j] using hr j (by omega)
    · rintro ⟨hl, h⟩
      cases f with
      | nil => simp at hl
      | cons b r =>
        refine ⟨b, r, by simpa using h 0 (by omega), ih.2 ⟨by simpa using hl, fun j hj => ?_⟩, rfl⟩
        simpa [Nat.add_assoc, Nat.add_comm 1 j] using h (j + 1) (by omega)

/-- One byte more at the end of a slice. -/
theorem Memory.slice_snoc {m : Memory} {i n : Nat} {f : List Byte} {b : Byte} (h : m.slice i n = some f)
    (hb : m.readByte (i + n) = some b) : m.slice i (n + 1) = some (f ++ [b]) := by
  obtain ⟨hl, h⟩ := Memory.slice_eq_some_iff.1 h
  refine Memory.slice_eq_some_iff.2 ⟨by simp [hl], fun j hj => ?_⟩
  rcases Nat.lt_succ_iff_lt_or_eq.1 hj with hj | rfl
  · rw [h j hj, List.getElem?_append_left (by omega)]
  · simp [hb, hl]

/-- A slice's first bytes are a slice. -/
theorem Memory.slice_take {m : Memory} {i n k : Nat} {f : List Byte} (h : m.slice i n = some f) (hk : k ≤ n) :
    m.slice i k = some (f.take k) := by
  obtain ⟨hl, h⟩ := Memory.slice_eq_some_iff.1 h
  refine Memory.slice_eq_some_iff.2 ⟨by simp [hl, hk], fun j hj => ?_⟩
  rw [h j (by omega), List.getElem?_take_of_lt hj]

/-- A slice without its first bytes is a slice. -/
theorem Memory.slice_drop {m : Memory} {i n k : Nat} {f : List Byte} (h : m.slice i n = some f) (hk : k ≤ n) :
    m.slice (i + k) (n - k) = some (f.drop k) := by
  obtain ⟨hl, h⟩ := Memory.slice_eq_some_iff.1 h
  refine Memory.slice_eq_some_iff.2 ⟨by simp [hl], fun j hj => ?_⟩
  rw [Nat.add_assoc, h (k + j) (by omega), List.getElem?_drop]

/-- A byte of a slice. -/
theorem Memory.slice_readByte {m : Memory} {n j : Nat} {f : List Byte} (h : m.slice 0 n = some f) (hj : j < n) :
    m.readByte j = f[j]? := by
  simpa using (Memory.slice_eq_some_iff.1 h).2 j hj

/-- A write outside a slice does not change it. -/
theorem Memory.slice_writeByte_other {m : Memory} {i n a : Nat} (v : Byte) (h : a < i ∨ i + n ≤ a) :
    (m.writeByte a v).slice i n = m.slice i n := by
  induction n generalizing i with
  | zero => rfl
  | succ n ih =>
    simp only [Memory.slice]
    rw [Memory.readByte_writeByte_other m v (by omega), ih (by omega)]

end Sys2Proof.Machine
end

