-- ==== Sys2Proof/Laws/Operands.lean ====
section
/-! SUPPORT. The operand forms and the word's fields as arithmetic. -/

namespace Sys2Proof

/-- An append read as a sum. -/
theorem toNat_append_eq {m n : Nat} (a : BitVec m) (b : BitVec n) :
    (a ++ b).toNat = a.toNat * 2 ^ n + b.toNat := by
  rw [BitVec.toNat_append, ← Nat.shiftLeft_add_eq_or_of_lt b.isLt, Nat.shiftLeft_eq]

theorem fieldD_toNat (w : Txn) : (fieldD w).toNat = w.toNat % 256 := by
  simp [fieldD]

theorem fieldA_toNat (w : Txn) : (fieldA w).toNat = w.toNat / 256 % 1024 := by
  simp [fieldA, Nat.shiftRight_eq_div_pow]

theorem fieldW_eq (w : Txn) : fieldW w = decide (2 ^ 18 ≤ w.toNat) := by
  have hw := w.isLt
  rw [Bool.eq_iff_iff]
  simp only [fieldW, BitVec.getLsbD, Nat.testBit_eq_decide_div_mod_eq, decide_eq_true_eq]
  omega

theorem encodeWrite_toNat (a : Addr) (d : Byte) : (encodeWrite a d).toNat = 2 ^ 18 + a.toNat * 256 + d.toNat := by
  have h := (toNat_append_eq ((1#1 ++ a : BitVec 11)) d).trans
    (congrArg (fun x => x * 2 ^ 8 + d.toNat) (toNat_append_eq 1#1 a))
  refine h.trans ?_
  simp
  omega

theorem encodeRead_toNat (a : Addr) : (encodeRead a).toNat = a.toNat * 256 := by
  have h := (toNat_append_eq ((0#1 ++ a : BitVec 11)) 0#8).trans
    (congrArg (fun x => x * 2 ^ 8 + (0#8).toNat) (toNat_append_eq 0#1 a))
  refine h.trans ?_
  simp

theorem fieldA_encodeWrite (a : Addr) (d : Byte) : fieldA (encodeWrite a d) = a := by
  have ha := a.isLt
  have hd := d.isLt
  apply BitVec.eq_of_toNat_eq
  rw [fieldA_toNat, encodeWrite_toNat]
  omega

theorem fieldD_encodeWrite (a : Addr) (d : Byte) : fieldD (encodeWrite a d) = d := by
  have hd := d.isLt
  apply BitVec.eq_of_toNat_eq
  rw [fieldD_toNat, encodeWrite_toNat]
  omega

theorem fieldW_encodeWrite (a : Addr) (d : Byte) : fieldW (encodeWrite a d) = true := by
  rw [fieldW_eq, encodeWrite_toNat]
  simp only [decide_eq_true_eq]
  omega

theorem fieldA_encodeRead (a : Addr) : fieldA (encodeRead a) = a := by
  have ha := a.isLt
  apply BitVec.eq_of_toNat_eq
  rw [fieldA_toNat, encodeRead_toNat]
  omega

theorem fieldW_encodeRead (a : Addr) : fieldW (encodeRead a) = false := by
  have ha := a.isLt
  rw [fieldW_eq, encodeRead_toNat]
  simp only [decide_eq_false_iff_not]
  omega

/-- `0x40000 | (a << 8) | d` with the data as a sum: the two agree, since the low byte of a write's base word is 0. -/
theorem encodeWrite_eq_ofNat (a : Addr) (d : Byte) :
    encodeWrite a d = BitVec.ofNat 19 (0x40000 + a.toNat * 256 + d.toNat) := by
  have ha := a.isLt
  have hd := d.isLt
  apply BitVec.eq_of_toNat_eq
  rw [encodeWrite_toNat, BitVec.toNat_ofNat]
  omega

theorem encodeWrite_zero_or (a : Addr) (d : Byte) : encodeWrite a d = encodeWrite a 0#8 ||| d.setWidth 19 := by
  apply BitVec.eq_of_toNat_eq
  have ha := a.isLt
  have hd := d.isLt
  have h := Nat.shiftLeft_add_eq_or_of_lt (i := 8) (b := d.toNat) hd (2 ^ 10 + a.toNat)
  rw [Nat.shiftLeft_eq] at h
  rw [BitVec.toNat_or, encodeWrite_toNat, encodeWrite_toNat, BitVec.toNat_setWidth,
    Nat.mod_eq_of_lt (by omega : d.toNat < 2 ^ 19), BitVec.toNat_ofNat]
  have e : 2 ^ 18 + a.toNat * 256 + 0 % 2 ^ 8 = (2 ^ 10 + a.toNat) * 2 ^ 8 := by omega
  rw [e, ← h]
  omega

/-- A write's word is decoded by its address and data. -/
theorem decode_encodeWrite (a : Addr) (d : Byte) : decode (encodeWrite a d) = decodeWrite a d := by
  simp [decode, fieldW_encodeWrite, fieldA_encodeWrite, fieldD_encodeWrite]

/-- A read's word is decoded by its address. -/
theorem decode_encodeRead (a : Addr) : decode (encodeRead a) = .rd a := by
  simp [decode, fieldW_encodeRead, fieldA_encodeRead]

end Sys2Proof

namespace Sys2Proof.Machine

theorem lenLo_toNat (n : Len) : (lenLo n).toNat = n.toNat % 256 := by
  simp [lenLo]

theorem lenHi_toNat (n : Len) : (lenHi n).toNat = n.toNat / 256 := by
  have hn := n.isLt
  simp only [lenHi, BitVec.toNat_setWidth, BitVec.extractLsb'_toNat, Nat.shiftRight_eq_div_pow]
  omega

theorem withLenLo_toNat (n : Len) (v : Byte) : (withLenLo n v).toNat = n.toNat / 256 * 256 + v.toNat := by
  have hn := n.isLt
  refine (toNat_append_eq (n.extractLsb' 8 1) v).trans ?_
  simp only [BitVec.extractLsb'_toNat, Nat.shiftRight_eq_div_pow]
  omega

theorem withLenHi_toNat (n : Len) (v : Byte) : (withLenHi n v).toNat = v.toNat % 2 * 256 + n.toNat % 256 := by
  refine (toNat_append_eq (v.extractLsb' 0 1) (n.extractLsb' 0 8)).trans ?_
  simp

theorem crcLo_toNat (c : Crc) : (crcLo c).toNat = c.toNat % 256 := by
  simp [crcLo]

theorem crcHi_toNat (c : Crc) : (crcHi c).toNat = c.toNat / 256 := by
  have hc := c.isLt
  simp only [crcHi, BitVec.extractLsb'_toNat, Nat.shiftRight_eq_div_pow]
  omega

/-- Inside the window the index is the address less 0x100 (20_memory.md R39). -/
theorem bufIndex_of_window {a : Addr} (h : bufWindow a) : bufIndex a = a.toNat - 0x100 := by
  have ha := a.isLt
  simp only [bufIndex, BitVec.toNat_sub, BitVec.toNat_ofNat]
  omega

theorem bufIndex_lt_of_window {a : Addr} (h : bufWindow a) : bufIndex a < Config.bufSize := by
  rw [bufIndex_of_window h]
  have hs : Config.bufSize = 258 := rfl
  omega

/-- Outside the window there is no such index. -/
theorem bufIndex_not_lt_of_outside {a : Addr} (h : ¬bufWindow a) : ¬bufIndex a < Config.bufSize := by
  have ha := a.isLt
  have hs : Config.bufSize = 258 := rfl
  simp only [bufIndex, BitVec.toNat_sub, BitVec.toNat_ofNat, bufWindow] at h ⊢
  omega

theorem crcBufInRange_iff (s : State) : s.crcBufInRange = true ↔ s.len.toNat ≤ 258 := by
  unfold State.crcBufInRange
  exact decide_eq_true_iff

theorem buildInRange_iff (s : State) : s.buildInRange = true ↔ 2 ≤ s.len.toNat ∧ s.len.toNat ≤ 256 := by
  unfold State.buildInRange
  exact decide_eq_true_iff

theorem parseInRange_iff (s : State) : s.parseInRange = true ↔ 4 ≤ s.len.toNat ∧ s.len.toNat ≤ 258 := by
  unfold State.parseInRange
  exact decide_eq_true_iff

end Sys2Proof.Machine
end

