-- ==== Sys2Proof/Laws/State.lean ====
section
/-! SUPPORT. For every named update of State, what it leaves in each field (and in BUSY): one lemma per field and
update, true by rfl, so that no proof unfolds an update. -/

namespace Sys2Proof.Machine

@[simp] theorem State.clearFlags_cmdr (s : State) : (s.clearFlags).cmdr = s.cmdr := rfl
@[simp] theorem State.clearFlags_done (s : State) : (s.clearFlags).done = false := rfl
@[simp] theorem State.clearFlags_err (s : State) : (s.clearFlags).err = .noError := rfl
@[simp] theorem State.clearFlags_matched (s : State) : (s.clearFlags).matched = false := rfl
@[simp] theorem State.clearFlags_sent (s : State) : (s.clearFlags).sent = false := rfl
@[simp] theorem State.clearFlags_cmderr (s : State) : (s.clearFlags).cmderr = false := rfl
@[simp] theorem State.clearFlags_ovr (s : State) : (s.clearFlags).ovr = false := rfl
@[simp] theorem State.clearFlags_len (s : State) : (s.clearFlags).len = s.len := rfl
@[simp] theorem State.clearFlags_expAddr (s : State) : (s.clearFlags).expAddr = s.expAddr := rfl
@[simp] theorem State.clearFlags_crc (s : State) : (s.clearFlags).crc = s.crc := rfl
@[simp] theorem State.clearFlags_plen (s : State) : (s.clearFlags).plen = s.plen := rfl
@[simp] theorem State.clearFlags_candLo (s : State) : (s.clearFlags).candLo = s.candLo := rfl
@[simp] theorem State.clearFlags_candHi (s : State) : (s.clearFlags).candHi = s.candHi := rfl
@[simp] theorem State.clearFlags_buf (s : State) : (s.clearFlags).buf = s.buf := rfl
@[simp] theorem State.clearFlags_phase (s : State) : (s.clearFlags).phase = s.phase := rfl
@[simp] theorem State.clearFlags_op (s : State) : (s.clearFlags).op = s.op := rfl
@[simp] theorem State.clearFlags_idx (s : State) : (s.clearFlags).idx = s.idx := rfl
@[simp] theorem State.clearFlags_endi (s : State) : (s.clearFlags).endi = s.endi := rfl
@[simp] theorem State.clearFlags_k (s : State) : (s.clearFlags).k = s.k := rfl
@[simp] theorem State.clearFlags_sreg (s : State) : (s.clearFlags).sreg = s.sreg := rfl
@[simp] theorem State.clearFlags_pending (s : State) : (s.clearFlags).pending = s.pending := rfl
@[simp] theorem State.clearFlags_sched (s : State) : (s.clearFlags).sched = s.sched := rfl
@[simp] theorem State.clearFlags_results (s : State) : (s.clearFlags).results = s.results := rfl
@[simp] theorem State.clearFlags_draws (s : State) : (s.clearFlags).draws = s.draws := rfl
@[simp] theorem State.clearFlags_busy (s : State) : (s.clearFlags).busy = s.busy := rfl

@[simp] theorem State.resetPosition_cmdr (s : State) : (s.resetPosition).cmdr = s.cmdr := rfl
@[simp] theorem State.resetPosition_done (s : State) : (s.resetPosition).done = s.done := rfl
@[simp] theorem State.resetPosition_err (s : State) : (s.resetPosition).err = s.err := rfl
@[simp] theorem State.resetPosition_matched (s : State) : (s.resetPosition).matched = s.matched := rfl
@[simp] theorem State.resetPosition_sent (s : State) : (s.resetPosition).sent = s.sent := rfl
@[simp] theorem State.resetPosition_cmderr (s : State) : (s.resetPosition).cmderr = s.cmderr := rfl
@[simp] theorem State.resetPosition_ovr (s : State) : (s.resetPosition).ovr = s.ovr := rfl
@[simp] theorem State.resetPosition_len (s : State) : (s.resetPosition).len = s.len := rfl
@[simp] theorem State.resetPosition_expAddr (s : State) : (s.resetPosition).expAddr = s.expAddr := rfl
@[simp] theorem State.resetPosition_crc (s : State) : (s.resetPosition).crc = s.crc := rfl
@[simp] theorem State.resetPosition_plen (s : State) : (s.resetPosition).plen = s.plen := rfl
@[simp] theorem State.resetPosition_candLo (s : State) : (s.resetPosition).candLo = s.candLo := rfl
@[simp] theorem State.resetPosition_candHi (s : State) : (s.resetPosition).candHi = s.candHi := rfl
@[simp] theorem State.resetPosition_buf (s : State) : (s.resetPosition).buf = s.buf := rfl
@[simp] theorem State.resetPosition_phase (s : State) : (s.resetPosition).phase = s.phase := rfl
@[simp] theorem State.resetPosition_op (s : State) : (s.resetPosition).op = s.op := rfl
@[simp] theorem State.resetPosition_idx (s : State) : (s.resetPosition).idx = 0#9 := rfl
@[simp] theorem State.resetPosition_endi (s : State) : (s.resetPosition).endi = s.endi := rfl
@[simp] theorem State.resetPosition_k (s : State) : (s.resetPosition).k = 0#3 := rfl
@[simp] theorem State.resetPosition_sreg (s : State) : (s.resetPosition).sreg = s.sreg := rfl
@[simp] theorem State.resetPosition_pending (s : State) : (s.resetPosition).pending = s.pending := rfl
@[simp] theorem State.resetPosition_sched (s : State) : (s.resetPosition).sched = s.sched := rfl
@[simp] theorem State.resetPosition_results (s : State) : (s.resetPosition).results = s.results := rfl
@[simp] theorem State.resetPosition_draws (s : State) : (s.resetPosition).draws = s.draws := rfl
@[simp] theorem State.resetPosition_busy (s : State) : (s.resetPosition).busy = s.busy := rfl

@[simp] theorem State.acceptCmd_cmdr (s : State) (c : Byte) : (s.acceptCmd c).cmdr = c := rfl
@[simp] theorem State.acceptCmd_done (s : State) (c : Byte) : (s.acceptCmd c).done = false := rfl
@[simp] theorem State.acceptCmd_err (s : State) (c : Byte) : (s.acceptCmd c).err = .noError := rfl
@[simp] theorem State.acceptCmd_matched (s : State) (c : Byte) : (s.acceptCmd c).matched = false := rfl
@[simp] theorem State.acceptCmd_sent (s : State) (c : Byte) : (s.acceptCmd c).sent = false := rfl
@[simp] theorem State.acceptCmd_cmderr (s : State) (c : Byte) : (s.acceptCmd c).cmderr = false := rfl
@[simp] theorem State.acceptCmd_ovr (s : State) (c : Byte) : (s.acceptCmd c).ovr = false := rfl
@[simp] theorem State.acceptCmd_len (s : State) (c : Byte) : (s.acceptCmd c).len = s.len := rfl
@[simp] theorem State.acceptCmd_expAddr (s : State) (c : Byte) : (s.acceptCmd c).expAddr = s.expAddr := rfl
@[simp] theorem State.acceptCmd_crc (s : State) (c : Byte) : (s.acceptCmd c).crc = s.crc := rfl
@[simp] theorem State.acceptCmd_plen (s : State) (c : Byte) : (s.acceptCmd c).plen = s.plen := rfl
@[simp] theorem State.acceptCmd_candLo (s : State) (c : Byte) : (s.acceptCmd c).candLo = s.candLo := rfl
@[simp] theorem State.acceptCmd_candHi (s : State) (c : Byte) : (s.acceptCmd c).candHi = s.candHi := rfl
@[simp] theorem State.acceptCmd_buf (s : State) (c : Byte) : (s.acceptCmd c).buf = s.buf := rfl
@[simp] theorem State.acceptCmd_phase (s : State) (c : Byte) : (s.acceptCmd c).phase = s.phase := rfl
@[simp] theorem State.acceptCmd_op (s : State) (c : Byte) : (s.acceptCmd c).op = s.op := rfl
@[simp] theorem State.acceptCmd_idx (s : State) (c : Byte) : (s.acceptCmd c).idx = 0#9 := rfl
@[simp] theorem State.acceptCmd_endi (s : State) (c : Byte) : (s.acceptCmd c).endi = s.endi := rfl
@[simp] theorem State.acceptCmd_k (s : State) (c : Byte) : (s.acceptCmd c).k = 0#3 := rfl
@[simp] theorem State.acceptCmd_sreg (s : State) (c : Byte) : (s.acceptCmd c).sreg = s.sreg := rfl
@[simp] theorem State.acceptCmd_pending (s : State) (c : Byte) : (s.acceptCmd c).pending = s.pending := rfl
@[simp] theorem State.acceptCmd_sched (s : State) (c : Byte) : (s.acceptCmd c).sched = s.sched := rfl
@[simp] theorem State.acceptCmd_results (s : State) (c : Byte) : (s.acceptCmd c).results = s.results := rfl
@[simp] theorem State.acceptCmd_draws (s : State) (c : Byte) : (s.acceptCmd c).draws = s.draws := rfl
@[simp] theorem State.acceptCmd_busy (s : State) (c : Byte) : (s.acceptCmd c).busy = s.busy := rfl

@[simp] theorem State.acceptData_cmdr (s : State) : (s.acceptData).cmdr = s.cmdr := rfl
@[simp] theorem State.acceptData_done (s : State) : (s.acceptData).done = false := rfl
@[simp] theorem State.acceptData_err (s : State) : (s.acceptData).err = .noError := rfl
@[simp] theorem State.acceptData_matched (s : State) : (s.acceptData).matched = false := rfl
@[simp] theorem State.acceptData_sent (s : State) : (s.acceptData).sent = false := rfl
@[simp] theorem State.acceptData_cmderr (s : State) : (s.acceptData).cmderr = false := rfl
@[simp] theorem State.acceptData_ovr (s : State) : (s.acceptData).ovr = false := rfl
@[simp] theorem State.acceptData_len (s : State) : (s.acceptData).len = s.len := rfl
@[simp] theorem State.acceptData_expAddr (s : State) : (s.acceptData).expAddr = s.expAddr := rfl
@[simp] theorem State.acceptData_crc (s : State) : (s.acceptData).crc = s.crc := rfl
@[simp] theorem State.acceptData_plen (s : State) : (s.acceptData).plen = s.plen := rfl
@[simp] theorem State.acceptData_candLo (s : State) : (s.acceptData).candLo = s.candLo := rfl
@[simp] theorem State.acceptData_candHi (s : State) : (s.acceptData).candHi = s.candHi := rfl
@[simp] theorem State.acceptData_buf (s : State) : (s.acceptData).buf = s.buf := rfl
@[simp] theorem State.acceptData_phase (s : State) : (s.acceptData).phase = s.phase := rfl
@[simp] theorem State.acceptData_op (s : State) : (s.acceptData).op = s.op := rfl
@[simp] theorem State.acceptData_idx (s : State) : (s.acceptData).idx = 0#9 := rfl
@[simp] theorem State.acceptData_endi (s : State) : (s.acceptData).endi = s.endi := rfl
@[simp] theorem State.acceptData_k (s : State) : (s.acceptData).k = 0#3 := rfl
@[simp] theorem State.acceptData_sreg (s : State) : (s.acceptData).sreg = s.sreg := rfl
@[simp] theorem State.acceptData_pending (s : State) : (s.acceptData).pending = s.pending := rfl
@[simp] theorem State.acceptData_sched (s : State) : (s.acceptData).sched = s.sched := rfl
@[simp] theorem State.acceptData_results (s : State) : (s.acceptData).results = s.results := rfl
@[simp] theorem State.acceptData_draws (s : State) : (s.acceptData).draws = s.draws := rfl
@[simp] theorem State.acceptData_busy (s : State) : (s.acceptData).busy = s.busy := rfl

@[simp] theorem State.complete_cmdr (s : State) : (s.complete).cmdr = s.cmdr := rfl
@[simp] theorem State.complete_done (s : State) : (s.complete).done = true := rfl
@[simp] theorem State.complete_err (s : State) : (s.complete).err = s.err := rfl
@[simp] theorem State.complete_matched (s : State) : (s.complete).matched = s.matched := rfl
@[simp] theorem State.complete_sent (s : State) : (s.complete).sent = s.sent := rfl
@[simp] theorem State.complete_cmderr (s : State) : (s.complete).cmderr = s.cmderr := rfl
@[simp] theorem State.complete_ovr (s : State) : (s.complete).ovr = s.ovr := rfl
@[simp] theorem State.complete_len (s : State) : (s.complete).len = s.len := rfl
@[simp] theorem State.complete_expAddr (s : State) : (s.complete).expAddr = s.expAddr := rfl
@[simp] theorem State.complete_crc (s : State) : (s.complete).crc = s.crc := rfl
@[simp] theorem State.complete_plen (s : State) : (s.complete).plen = s.plen := rfl
@[simp] theorem State.complete_candLo (s : State) : (s.complete).candLo = s.candLo := rfl
@[simp] theorem State.complete_candHi (s : State) : (s.complete).candHi = s.candHi := rfl
@[simp] theorem State.complete_buf (s : State) : (s.complete).buf = s.buf := rfl
@[simp] theorem State.complete_phase (s : State) : (s.complete).phase = s.phase := rfl
@[simp] theorem State.complete_op (s : State) : (s.complete).op = s.op := rfl
@[simp] theorem State.complete_idx (s : State) : (s.complete).idx = s.idx := rfl
@[simp] theorem State.complete_endi (s : State) : (s.complete).endi = s.endi := rfl
@[simp] theorem State.complete_k (s : State) : (s.complete).k = s.k := rfl
@[simp] theorem State.complete_sreg (s : State) : (s.complete).sreg = s.sreg := rfl
@[simp] theorem State.complete_pending (s : State) : (s.complete).pending = s.pending := rfl
@[simp] theorem State.complete_sched (s : State) : (s.complete).sched = s.sched := rfl
@[simp] theorem State.complete_results (s : State) : (s.complete).results = s.results := rfl
@[simp] theorem State.complete_draws (s : State) : (s.complete).draws = s.draws := rfl
@[simp] theorem State.complete_busy (s : State) : (s.complete).busy = s.busy := rfl

@[simp] theorem State.commandError_cmdr (s : State) : (s.commandError).cmdr = s.cmdr := rfl
@[simp] theorem State.commandError_done (s : State) : (s.commandError).done = true := rfl
@[simp] theorem State.commandError_err (s : State) : (s.commandError).err = s.err := rfl
@[simp] theorem State.commandError_matched (s : State) : (s.commandError).matched = s.matched := rfl
@[simp] theorem State.commandError_sent (s : State) : (s.commandError).sent = s.sent := rfl
@[simp] theorem State.commandError_cmderr (s : State) : (s.commandError).cmderr = true := rfl
@[simp] theorem State.commandError_ovr (s : State) : (s.commandError).ovr = s.ovr := rfl
@[simp] theorem State.commandError_len (s : State) : (s.commandError).len = s.len := rfl
@[simp] theorem State.commandError_expAddr (s : State) : (s.commandError).expAddr = s.expAddr := rfl
@[simp] theorem State.commandError_crc (s : State) : (s.commandError).crc = s.crc := rfl
@[simp] theorem State.commandError_plen (s : State) : (s.commandError).plen = s.plen := rfl
@[simp] theorem State.commandError_candLo (s : State) : (s.commandError).candLo = s.candLo := rfl
@[simp] theorem State.commandError_candHi (s : State) : (s.commandError).candHi = s.candHi := rfl
@[simp] theorem State.commandError_buf (s : State) : (s.commandError).buf = s.buf := rfl
@[simp] theorem State.commandError_phase (s : State) : (s.commandError).phase = s.phase := rfl
@[simp] theorem State.commandError_op (s : State) : (s.commandError).op = s.op := rfl
@[simp] theorem State.commandError_idx (s : State) : (s.commandError).idx = s.idx := rfl
@[simp] theorem State.commandError_endi (s : State) : (s.commandError).endi = s.endi := rfl
@[simp] theorem State.commandError_k (s : State) : (s.commandError).k = s.k := rfl
@[simp] theorem State.commandError_sreg (s : State) : (s.commandError).sreg = s.sreg := rfl
@[simp] theorem State.commandError_pending (s : State) : (s.commandError).pending = s.pending := rfl
@[simp] theorem State.commandError_sched (s : State) : (s.commandError).sched = s.sched := rfl
@[simp] theorem State.commandError_results (s : State) : (s.commandError).results = s.results := rfl
@[simp] theorem State.commandError_draws (s : State) : (s.commandError).draws = s.draws := rfl
@[simp] theorem State.commandError_busy (s : State) : (s.commandError).busy = s.busy := rfl

@[simp] theorem State.parseError_cmdr (s : State) (m : Bool) (e : ErrCode) : (s.parseError m e).cmdr = s.cmdr := rfl
@[simp] theorem State.parseError_done (s : State) (m : Bool) (e : ErrCode) : (s.parseError m e).done = s.done := rfl
@[simp] theorem State.parseError_err (s : State) (m : Bool) (e : ErrCode) : (s.parseError m e).err = e := rfl
@[simp] theorem State.parseError_matched (s : State) (m : Bool) (e : ErrCode) : (s.parseError m e).matched = m := rfl
@[simp] theorem State.parseError_sent (s : State) (m : Bool) (e : ErrCode) : (s.parseError m e).sent = false := rfl
@[simp] theorem State.parseError_cmderr (s : State) (m : Bool) (e : ErrCode) : (s.parseError m e).cmderr = s.cmderr := rfl
@[simp] theorem State.parseError_ovr (s : State) (m : Bool) (e : ErrCode) : (s.parseError m e).ovr = s.ovr := rfl
@[simp] theorem State.parseError_len (s : State) (m : Bool) (e : ErrCode) : (s.parseError m e).len = s.len := rfl
@[simp] theorem State.parseError_expAddr (s : State) (m : Bool) (e : ErrCode) : (s.parseError m e).expAddr = s.expAddr := rfl
@[simp] theorem State.parseError_crc (s : State) (m : Bool) (e : ErrCode) : (s.parseError m e).crc = s.crc := rfl
@[simp] theorem State.parseError_plen (s : State) (m : Bool) (e : ErrCode) : (s.parseError m e).plen = 0x00#8 := rfl
@[simp] theorem State.parseError_candLo (s : State) (m : Bool) (e : ErrCode) : (s.parseError m e).candLo = s.candLo := rfl
@[simp] theorem State.parseError_candHi (s : State) (m : Bool) (e : ErrCode) : (s.parseError m e).candHi = s.candHi := rfl
@[simp] theorem State.parseError_buf (s : State) (m : Bool) (e : ErrCode) : (s.parseError m e).buf = s.buf := rfl
@[simp] theorem State.parseError_phase (s : State) (m : Bool) (e : ErrCode) : (s.parseError m e).phase = s.phase := rfl
@[simp] theorem State.parseError_op (s : State) (m : Bool) (e : ErrCode) : (s.parseError m e).op = s.op := rfl
@[simp] theorem State.parseError_idx (s : State) (m : Bool) (e : ErrCode) : (s.parseError m e).idx = s.idx := rfl
@[simp] theorem State.parseError_endi (s : State) (m : Bool) (e : ErrCode) : (s.parseError m e).endi = s.endi := rfl
@[simp] theorem State.parseError_k (s : State) (m : Bool) (e : ErrCode) : (s.parseError m e).k = s.k := rfl
@[simp] theorem State.parseError_sreg (s : State) (m : Bool) (e : ErrCode) : (s.parseError m e).sreg = s.sreg := rfl
@[simp] theorem State.parseError_pending (s : State) (m : Bool) (e : ErrCode) : (s.parseError m e).pending = s.pending := rfl
@[simp] theorem State.parseError_sched (s : State) (m : Bool) (e : ErrCode) : (s.parseError m e).sched = s.sched := rfl
@[simp] theorem State.parseError_results (s : State) (m : Bool) (e : ErrCode) : (s.parseError m e).results = s.results := rfl
@[simp] theorem State.parseError_draws (s : State) (m : Bool) (e : ErrCode) : (s.parseError m e).draws = s.draws := rfl
@[simp] theorem State.parseError_busy (s : State) (m : Bool) (e : ErrCode) : (s.parseError m e).busy = s.busy := rfl

@[simp] theorem State.overrun_cmdr (s : State) : (s.overrun).cmdr = s.cmdr := rfl
@[simp] theorem State.overrun_done (s : State) : (s.overrun).done = s.done := rfl
@[simp] theorem State.overrun_err (s : State) : (s.overrun).err = s.err := rfl
@[simp] theorem State.overrun_matched (s : State) : (s.overrun).matched = s.matched := rfl
@[simp] theorem State.overrun_sent (s : State) : (s.overrun).sent = s.sent := rfl
@[simp] theorem State.overrun_cmderr (s : State) : (s.overrun).cmderr = s.cmderr := rfl
@[simp] theorem State.overrun_ovr (s : State) : (s.overrun).ovr = true := rfl
@[simp] theorem State.overrun_len (s : State) : (s.overrun).len = s.len := rfl
@[simp] theorem State.overrun_expAddr (s : State) : (s.overrun).expAddr = s.expAddr := rfl
@[simp] theorem State.overrun_crc (s : State) : (s.overrun).crc = s.crc := rfl
@[simp] theorem State.overrun_plen (s : State) : (s.overrun).plen = s.plen := rfl
@[simp] theorem State.overrun_candLo (s : State) : (s.overrun).candLo = s.candLo := rfl
@[simp] theorem State.overrun_candHi (s : State) : (s.overrun).candHi = s.candHi := rfl
@[simp] theorem State.overrun_buf (s : State) : (s.overrun).buf = s.buf := rfl
@[simp] theorem State.overrun_phase (s : State) : (s.overrun).phase = s.phase := rfl
@[simp] theorem State.overrun_op (s : State) : (s.overrun).op = s.op := rfl
@[simp] theorem State.overrun_idx (s : State) : (s.overrun).idx = s.idx := rfl
@[simp] theorem State.overrun_endi (s : State) : (s.overrun).endi = s.endi := rfl
@[simp] theorem State.overrun_k (s : State) : (s.overrun).k = s.k := rfl
@[simp] theorem State.overrun_sreg (s : State) : (s.overrun).sreg = s.sreg := rfl
@[simp] theorem State.overrun_pending (s : State) : (s.overrun).pending = s.pending := rfl
@[simp] theorem State.overrun_sched (s : State) : (s.overrun).sched = s.sched := rfl
@[simp] theorem State.overrun_results (s : State) : (s.overrun).results = s.results := rfl
@[simp] theorem State.overrun_draws (s : State) : (s.overrun).draws = s.draws := rfl
@[simp] theorem State.overrun_busy (s : State) : (s.overrun).busy = s.busy := rfl

@[simp] theorem State.returnByte_cmdr (s : State) (b : Byte) : (s.returnByte b).cmdr = s.cmdr := rfl
@[simp] theorem State.returnByte_done (s : State) (b : Byte) : (s.returnByte b).done = s.done := rfl
@[simp] theorem State.returnByte_err (s : State) (b : Byte) : (s.returnByte b).err = s.err := rfl
@[simp] theorem State.returnByte_matched (s : State) (b : Byte) : (s.returnByte b).matched = s.matched := rfl
@[simp] theorem State.returnByte_sent (s : State) (b : Byte) : (s.returnByte b).sent = s.sent := rfl
@[simp] theorem State.returnByte_cmderr (s : State) (b : Byte) : (s.returnByte b).cmderr = s.cmderr := rfl
@[simp] theorem State.returnByte_ovr (s : State) (b : Byte) : (s.returnByte b).ovr = s.ovr := rfl
@[simp] theorem State.returnByte_len (s : State) (b : Byte) : (s.returnByte b).len = s.len := rfl
@[simp] theorem State.returnByte_expAddr (s : State) (b : Byte) : (s.returnByte b).expAddr = s.expAddr := rfl
@[simp] theorem State.returnByte_crc (s : State) (b : Byte) : (s.returnByte b).crc = s.crc := rfl
@[simp] theorem State.returnByte_plen (s : State) (b : Byte) : (s.returnByte b).plen = s.plen := rfl
@[simp] theorem State.returnByte_candLo (s : State) (b : Byte) : (s.returnByte b).candLo = s.candLo := rfl
@[simp] theorem State.returnByte_candHi (s : State) (b : Byte) : (s.returnByte b).candHi = s.candHi := rfl
@[simp] theorem State.returnByte_buf (s : State) (b : Byte) : (s.returnByte b).buf = s.buf := rfl
@[simp] theorem State.returnByte_phase (s : State) (b : Byte) : (s.returnByte b).phase = s.phase := rfl
@[simp] theorem State.returnByte_op (s : State) (b : Byte) : (s.returnByte b).op = s.op := rfl
@[simp] theorem State.returnByte_idx (s : State) (b : Byte) : (s.returnByte b).idx = s.idx := rfl
@[simp] theorem State.returnByte_endi (s : State) (b : Byte) : (s.returnByte b).endi = s.endi := rfl
@[simp] theorem State.returnByte_k (s : State) (b : Byte) : (s.returnByte b).k = s.k := rfl
@[simp] theorem State.returnByte_sreg (s : State) (b : Byte) : (s.returnByte b).sreg = s.sreg := rfl
@[simp] theorem State.returnByte_pending (s : State) (b : Byte) : (s.returnByte b).pending = s.pending := rfl
@[simp] theorem State.returnByte_sched (s : State) (b : Byte) : (s.returnByte b).sched = s.sched := rfl
@[simp] theorem State.returnByte_results (s : State) (b : Byte) : (s.returnByte b).results = b :: s.results := rfl
@[simp] theorem State.returnByte_draws (s : State) (b : Byte) : (s.returnByte b).draws = s.draws := rfl
@[simp] theorem State.returnByte_busy (s : State) (b : Byte) : (s.returnByte b).busy = s.busy := rfl

@[simp] theorem State.returnDraw_cmdr (s : State) : (s.returnDraw).cmdr = s.cmdr := rfl
@[simp] theorem State.returnDraw_done (s : State) : (s.returnDraw).done = s.done := rfl
@[simp] theorem State.returnDraw_err (s : State) : (s.returnDraw).err = s.err := rfl
@[simp] theorem State.returnDraw_matched (s : State) : (s.returnDraw).matched = s.matched := rfl
@[simp] theorem State.returnDraw_sent (s : State) : (s.returnDraw).sent = s.sent := rfl
@[simp] theorem State.returnDraw_cmderr (s : State) : (s.returnDraw).cmderr = s.cmderr := rfl
@[simp] theorem State.returnDraw_ovr (s : State) : (s.returnDraw).ovr = s.ovr := rfl
@[simp] theorem State.returnDraw_len (s : State) : (s.returnDraw).len = s.len := rfl
@[simp] theorem State.returnDraw_expAddr (s : State) : (s.returnDraw).expAddr = s.expAddr := rfl
@[simp] theorem State.returnDraw_crc (s : State) : (s.returnDraw).crc = s.crc := rfl
@[simp] theorem State.returnDraw_plen (s : State) : (s.returnDraw).plen = s.plen := rfl
@[simp] theorem State.returnDraw_candLo (s : State) : (s.returnDraw).candLo = s.candLo := rfl
@[simp] theorem State.returnDraw_candHi (s : State) : (s.returnDraw).candHi = s.candHi := rfl
@[simp] theorem State.returnDraw_buf (s : State) : (s.returnDraw).buf = s.buf := rfl
@[simp] theorem State.returnDraw_phase (s : State) : (s.returnDraw).phase = s.phase := rfl
@[simp] theorem State.returnDraw_op (s : State) : (s.returnDraw).op = s.op := rfl
@[simp] theorem State.returnDraw_idx (s : State) : (s.returnDraw).idx = s.idx := rfl
@[simp] theorem State.returnDraw_endi (s : State) : (s.returnDraw).endi = s.endi := rfl
@[simp] theorem State.returnDraw_k (s : State) : (s.returnDraw).k = s.k := rfl
@[simp] theorem State.returnDraw_sreg (s : State) : (s.returnDraw).sreg = s.sreg := rfl
@[simp] theorem State.returnDraw_pending (s : State) : (s.returnDraw).pending = s.pending := rfl
@[simp] theorem State.returnDraw_sched (s : State) : (s.returnDraw).sched = s.sched := rfl
@[simp] theorem State.returnDraw_results (s : State) : (s.returnDraw).results = Config.anyByte s.draws :: s.results := rfl
@[simp] theorem State.returnDraw_draws (s : State) : (s.returnDraw).draws = s.draws + 1 := rfl
@[simp] theorem State.returnDraw_busy (s : State) : (s.returnDraw).busy = s.busy := rfl

@[simp] theorem State.startFeed_cmdr (s : State) (o : SeqOp) (n : Len) (b : Byte) : (s.startFeed o n b).cmdr = s.cmdr := rfl
@[simp] theorem State.startFeed_done (s : State) (o : SeqOp) (n : Len) (b : Byte) : (s.startFeed o n b).done = s.done := rfl
@[simp] theorem State.startFeed_err (s : State) (o : SeqOp) (n : Len) (b : Byte) : (s.startFeed o n b).err = s.err := rfl
@[simp] theorem State.startFeed_matched (s : State) (o : SeqOp) (n : Len) (b : Byte) : (s.startFeed o n b).matched = s.matched := rfl
@[simp] theorem State.startFeed_sent (s : State) (o : SeqOp) (n : Len) (b : Byte) : (s.startFeed o n b).sent = s.sent := rfl
@[simp] theorem State.startFeed_cmderr (s : State) (o : SeqOp) (n : Len) (b : Byte) : (s.startFeed o n b).cmderr = s.cmderr := rfl
@[simp] theorem State.startFeed_ovr (s : State) (o : SeqOp) (n : Len) (b : Byte) : (s.startFeed o n b).ovr = s.ovr := rfl
@[simp] theorem State.startFeed_len (s : State) (o : SeqOp) (n : Len) (b : Byte) : (s.startFeed o n b).len = s.len := rfl
@[simp] theorem State.startFeed_expAddr (s : State) (o : SeqOp) (n : Len) (b : Byte) : (s.startFeed o n b).expAddr = s.expAddr := rfl
@[simp] theorem State.startFeed_crc (s : State) (o : SeqOp) (n : Len) (b : Byte) : (s.startFeed o n b).crc = s.crc := rfl
@[simp] theorem State.startFeed_plen (s : State) (o : SeqOp) (n : Len) (b : Byte) : (s.startFeed o n b).plen = s.plen := rfl
@[simp] theorem State.startFeed_candLo (s : State) (o : SeqOp) (n : Len) (b : Byte) : (s.startFeed o n b).candLo = s.candLo := rfl
@[simp] theorem State.startFeed_candHi (s : State) (o : SeqOp) (n : Len) (b : Byte) : (s.startFeed o n b).candHi = s.candHi := rfl
@[simp] theorem State.startFeed_buf (s : State) (o : SeqOp) (n : Len) (b : Byte) : (s.startFeed o n b).buf = s.buf := rfl
@[simp] theorem State.startFeed_phase (s : State) (o : SeqOp) (n : Len) (b : Byte) : (s.startFeed o n b).phase = .feed := rfl
@[simp] theorem State.startFeed_op (s : State) (o : SeqOp) (n : Len) (b : Byte) : (s.startFeed o n b).op = o := rfl
@[simp] theorem State.startFeed_idx (s : State) (o : SeqOp) (n : Len) (b : Byte) : (s.startFeed o n b).idx = 0#9 := rfl
@[simp] theorem State.startFeed_endi (s : State) (o : SeqOp) (n : Len) (b : Byte) : (s.startFeed o n b).endi = n := rfl
@[simp] theorem State.startFeed_k (s : State) (o : SeqOp) (n : Len) (b : Byte) : (s.startFeed o n b).k = 0#3 := rfl
@[simp] theorem State.startFeed_sreg (s : State) (o : SeqOp) (n : Len) (b : Byte) : (s.startFeed o n b).sreg = b := rfl
@[simp] theorem State.startFeed_pending (s : State) (o : SeqOp) (n : Len) (b : Byte) : (s.startFeed o n b).pending = s.pending := rfl
@[simp] theorem State.startFeed_sched (s : State) (o : SeqOp) (n : Len) (b : Byte) : (s.startFeed o n b).sched = s.sched := rfl
@[simp] theorem State.startFeed_results (s : State) (o : SeqOp) (n : Len) (b : Byte) : (s.startFeed o n b).results = s.results := rfl
@[simp] theorem State.startFeed_draws (s : State) (o : SeqOp) (n : Len) (b : Byte) : (s.startFeed o n b).draws = s.draws := rfl
@[simp] theorem State.startFeed_busy (s : State) (o : SeqOp) (n : Len) (b : Byte) : (s.startFeed o n b).busy = true := rfl

@[simp] theorem State.settle_cmdr (s : State) : (s.settle).cmdr = s.cmdr := rfl
@[simp] theorem State.settle_done (s : State) : (s.settle).done = true := rfl
@[simp] theorem State.settle_err (s : State) : (s.settle).err = s.err := rfl
@[simp] theorem State.settle_matched (s : State) : (s.settle).matched = s.matched := rfl
@[simp] theorem State.settle_sent (s : State) : (s.settle).sent = s.sent := rfl
@[simp] theorem State.settle_cmderr (s : State) : (s.settle).cmderr = s.cmderr := rfl
@[simp] theorem State.settle_ovr (s : State) : (s.settle).ovr = s.ovr := rfl
@[simp] theorem State.settle_len (s : State) : (s.settle).len = s.len := rfl
@[simp] theorem State.settle_expAddr (s : State) : (s.settle).expAddr = s.expAddr := rfl
@[simp] theorem State.settle_crc (s : State) : (s.settle).crc = s.crc := rfl
@[simp] theorem State.settle_plen (s : State) : (s.settle).plen = s.plen := rfl
@[simp] theorem State.settle_candLo (s : State) : (s.settle).candLo = s.candLo := rfl
@[simp] theorem State.settle_candHi (s : State) : (s.settle).candHi = s.candHi := rfl
@[simp] theorem State.settle_buf (s : State) : (s.settle).buf = s.buf := rfl
@[simp] theorem State.settle_phase (s : State) : (s.settle).phase = .idle := rfl
@[simp] theorem State.settle_op (s : State) : (s.settle).op = s.op := rfl
@[simp] theorem State.settle_idx (s : State) : (s.settle).idx = s.idx := rfl
@[simp] theorem State.settle_endi (s : State) : (s.settle).endi = s.endi := rfl
@[simp] theorem State.settle_k (s : State) : (s.settle).k = s.k := rfl
@[simp] theorem State.settle_sreg (s : State) : (s.settle).sreg = s.sreg := rfl
@[simp] theorem State.settle_pending (s : State) : (s.settle).pending = s.pending := rfl
@[simp] theorem State.settle_sched (s : State) : (s.settle).sched = s.sched := rfl
@[simp] theorem State.settle_results (s : State) : (s.settle).results = s.results := rfl
@[simp] theorem State.settle_draws (s : State) : (s.settle).draws = s.draws := rfl
@[simp] theorem State.settle_busy (s : State) : (s.settle).busy = false := rfl

@[simp] theorem State.resetEvent_cmdr (s : State) : (s.resetEvent).cmdr = 0x00#8 := rfl
@[simp] theorem State.resetEvent_done (s : State) : (s.resetEvent).done = false := rfl
@[simp] theorem State.resetEvent_err (s : State) : (s.resetEvent).err = .noError := rfl
@[simp] theorem State.resetEvent_matched (s : State) : (s.resetEvent).matched = false := rfl
@[simp] theorem State.resetEvent_sent (s : State) : (s.resetEvent).sent = false := rfl
@[simp] theorem State.resetEvent_cmderr (s : State) : (s.resetEvent).cmderr = false := rfl
@[simp] theorem State.resetEvent_ovr (s : State) : (s.resetEvent).ovr = false := rfl
@[simp] theorem State.resetEvent_len (s : State) : (s.resetEvent).len = 0#9 := rfl
@[simp] theorem State.resetEvent_expAddr (s : State) : (s.resetEvent).expAddr = 0x00#8 := rfl
@[simp] theorem State.resetEvent_crc (s : State) : (s.resetEvent).crc = 0xFFFF#16 := rfl
@[simp] theorem State.resetEvent_plen (s : State) : (s.resetEvent).plen = 0x00#8 := rfl
@[simp] theorem State.resetEvent_candLo (s : State) : (s.resetEvent).candLo = 0x00#8 := rfl
@[simp] theorem State.resetEvent_candHi (s : State) : (s.resetEvent).candHi = 0x00#8 := rfl
@[simp] theorem State.resetEvent_buf (s : State) : (s.resetEvent).buf = [] := rfl
@[simp] theorem State.resetEvent_phase (s : State) : (s.resetEvent).phase = .idle := rfl
@[simp] theorem State.resetEvent_op (s : State) : (s.resetEvent).op = .feedOp := rfl
@[simp] theorem State.resetEvent_idx (s : State) : (s.resetEvent).idx = 0#9 := rfl
@[simp] theorem State.resetEvent_endi (s : State) : (s.resetEvent).endi = 0#9 := rfl
@[simp] theorem State.resetEvent_k (s : State) : (s.resetEvent).k = 0#3 := rfl
@[simp] theorem State.resetEvent_sreg (s : State) : (s.resetEvent).sreg = 0x00#8 := rfl
@[simp] theorem State.resetEvent_pending (s : State) : (s.resetEvent).pending = s.pending := rfl
@[simp] theorem State.resetEvent_sched (s : State) : (s.resetEvent).sched = s.sched := rfl
@[simp] theorem State.resetEvent_results (s : State) : (s.resetEvent).results = s.results := rfl
@[simp] theorem State.resetEvent_draws (s : State) : (s.resetEvent).draws = s.draws := rfl
@[simp] theorem State.resetEvent_busy (s : State) : (s.resetEvent).busy = false := rfl

@[simp] theorem State.setCmdr_cmdr (s : State) (c : Byte) : (s.setCmdr c).cmdr = c := rfl
@[simp] theorem State.setCmdr_done (s : State) (c : Byte) : (s.setCmdr c).done = s.done := rfl
@[simp] theorem State.setCmdr_err (s : State) (c : Byte) : (s.setCmdr c).err = s.err := rfl
@[simp] theorem State.setCmdr_matched (s : State) (c : Byte) : (s.setCmdr c).matched = s.matched := rfl
@[simp] theorem State.setCmdr_sent (s : State) (c : Byte) : (s.setCmdr c).sent = s.sent := rfl
@[simp] theorem State.setCmdr_cmderr (s : State) (c : Byte) : (s.setCmdr c).cmderr = s.cmderr := rfl
@[simp] theorem State.setCmdr_ovr (s : State) (c : Byte) : (s.setCmdr c).ovr = s.ovr := rfl
@[simp] theorem State.setCmdr_len (s : State) (c : Byte) : (s.setCmdr c).len = s.len := rfl
@[simp] theorem State.setCmdr_expAddr (s : State) (c : Byte) : (s.setCmdr c).expAddr = s.expAddr := rfl
@[simp] theorem State.setCmdr_crc (s : State) (c : Byte) : (s.setCmdr c).crc = s.crc := rfl
@[simp] theorem State.setCmdr_plen (s : State) (c : Byte) : (s.setCmdr c).plen = s.plen := rfl
@[simp] theorem State.setCmdr_candLo (s : State) (c : Byte) : (s.setCmdr c).candLo = s.candLo := rfl
@[simp] theorem State.setCmdr_candHi (s : State) (c : Byte) : (s.setCmdr c).candHi = s.candHi := rfl
@[simp] theorem State.setCmdr_buf (s : State) (c : Byte) : (s.setCmdr c).buf = s.buf := rfl
@[simp] theorem State.setCmdr_phase (s : State) (c : Byte) : (s.setCmdr c).phase = s.phase := rfl
@[simp] theorem State.setCmdr_op (s : State) (c : Byte) : (s.setCmdr c).op = s.op := rfl
@[simp] theorem State.setCmdr_idx (s : State) (c : Byte) : (s.setCmdr c).idx = s.idx := rfl
@[simp] theorem State.setCmdr_endi (s : State) (c : Byte) : (s.setCmdr c).endi = s.endi := rfl
@[simp] theorem State.setCmdr_k (s : State) (c : Byte) : (s.setCmdr c).k = s.k := rfl
@[simp] theorem State.setCmdr_sreg (s : State) (c : Byte) : (s.setCmdr c).sreg = s.sreg := rfl
@[simp] theorem State.setCmdr_pending (s : State) (c : Byte) : (s.setCmdr c).pending = s.pending := rfl
@[simp] theorem State.setCmdr_sched (s : State) (c : Byte) : (s.setCmdr c).sched = s.sched := rfl
@[simp] theorem State.setCmdr_results (s : State) (c : Byte) : (s.setCmdr c).results = s.results := rfl
@[simp] theorem State.setCmdr_draws (s : State) (c : Byte) : (s.setCmdr c).draws = s.draws := rfl
@[simp] theorem State.setCmdr_busy (s : State) (c : Byte) : (s.setCmdr c).busy = s.busy := rfl

@[simp] theorem State.setLen_cmdr (s : State) (n : Len) : (s.setLen n).cmdr = s.cmdr := rfl
@[simp] theorem State.setLen_done (s : State) (n : Len) : (s.setLen n).done = s.done := rfl
@[simp] theorem State.setLen_err (s : State) (n : Len) : (s.setLen n).err = s.err := rfl
@[simp] theorem State.setLen_matched (s : State) (n : Len) : (s.setLen n).matched = s.matched := rfl
@[simp] theorem State.setLen_sent (s : State) (n : Len) : (s.setLen n).sent = s.sent := rfl
@[simp] theorem State.setLen_cmderr (s : State) (n : Len) : (s.setLen n).cmderr = s.cmderr := rfl
@[simp] theorem State.setLen_ovr (s : State) (n : Len) : (s.setLen n).ovr = s.ovr := rfl
@[simp] theorem State.setLen_len (s : State) (n : Len) : (s.setLen n).len = n := rfl
@[simp] theorem State.setLen_expAddr (s : State) (n : Len) : (s.setLen n).expAddr = s.expAddr := rfl
@[simp] theorem State.setLen_crc (s : State) (n : Len) : (s.setLen n).crc = s.crc := rfl
@[simp] theorem State.setLen_plen (s : State) (n : Len) : (s.setLen n).plen = s.plen := rfl
@[simp] theorem State.setLen_candLo (s : State) (n : Len) : (s.setLen n).candLo = s.candLo := rfl
@[simp] theorem State.setLen_candHi (s : State) (n : Len) : (s.setLen n).candHi = s.candHi := rfl
@[simp] theorem State.setLen_buf (s : State) (n : Len) : (s.setLen n).buf = s.buf := rfl
@[simp] theorem State.setLen_phase (s : State) (n : Len) : (s.setLen n).phase = s.phase := rfl
@[simp] theorem State.setLen_op (s : State) (n : Len) : (s.setLen n).op = s.op := rfl
@[simp] theorem State.setLen_idx (s : State) (n : Len) : (s.setLen n).idx = s.idx := rfl
@[simp] theorem State.setLen_endi (s : State) (n : Len) : (s.setLen n).endi = s.endi := rfl
@[simp] theorem State.setLen_k (s : State) (n : Len) : (s.setLen n).k = s.k := rfl
@[simp] theorem State.setLen_sreg (s : State) (n : Len) : (s.setLen n).sreg = s.sreg := rfl
@[simp] theorem State.setLen_pending (s : State) (n : Len) : (s.setLen n).pending = s.pending := rfl
@[simp] theorem State.setLen_sched (s : State) (n : Len) : (s.setLen n).sched = s.sched := rfl
@[simp] theorem State.setLen_results (s : State) (n : Len) : (s.setLen n).results = s.results := rfl
@[simp] theorem State.setLen_draws (s : State) (n : Len) : (s.setLen n).draws = s.draws := rfl
@[simp] theorem State.setLen_busy (s : State) (n : Len) : (s.setLen n).busy = s.busy := rfl

@[simp] theorem State.setExpAddr_cmdr (s : State) (v : Byte) : (s.setExpAddr v).cmdr = s.cmdr := rfl
@[simp] theorem State.setExpAddr_done (s : State) (v : Byte) : (s.setExpAddr v).done = s.done := rfl
@[simp] theorem State.setExpAddr_err (s : State) (v : Byte) : (s.setExpAddr v).err = s.err := rfl
@[simp] theorem State.setExpAddr_matched (s : State) (v : Byte) : (s.setExpAddr v).matched = s.matched := rfl
@[simp] theorem State.setExpAddr_sent (s : State) (v : Byte) : (s.setExpAddr v).sent = s.sent := rfl
@[simp] theorem State.setExpAddr_cmderr (s : State) (v : Byte) : (s.setExpAddr v).cmderr = s.cmderr := rfl
@[simp] theorem State.setExpAddr_ovr (s : State) (v : Byte) : (s.setExpAddr v).ovr = s.ovr := rfl
@[simp] theorem State.setExpAddr_len (s : State) (v : Byte) : (s.setExpAddr v).len = s.len := rfl
@[simp] theorem State.setExpAddr_expAddr (s : State) (v : Byte) : (s.setExpAddr v).expAddr = v := rfl
@[simp] theorem State.setExpAddr_crc (s : State) (v : Byte) : (s.setExpAddr v).crc = s.crc := rfl
@[simp] theorem State.setExpAddr_plen (s : State) (v : Byte) : (s.setExpAddr v).plen = s.plen := rfl
@[simp] theorem State.setExpAddr_candLo (s : State) (v : Byte) : (s.setExpAddr v).candLo = s.candLo := rfl
@[simp] theorem State.setExpAddr_candHi (s : State) (v : Byte) : (s.setExpAddr v).candHi = s.candHi := rfl
@[simp] theorem State.setExpAddr_buf (s : State) (v : Byte) : (s.setExpAddr v).buf = s.buf := rfl
@[simp] theorem State.setExpAddr_phase (s : State) (v : Byte) : (s.setExpAddr v).phase = s.phase := rfl
@[simp] theorem State.setExpAddr_op (s : State) (v : Byte) : (s.setExpAddr v).op = s.op := rfl
@[simp] theorem State.setExpAddr_idx (s : State) (v : Byte) : (s.setExpAddr v).idx = s.idx := rfl
@[simp] theorem State.setExpAddr_endi (s : State) (v : Byte) : (s.setExpAddr v).endi = s.endi := rfl
@[simp] theorem State.setExpAddr_k (s : State) (v : Byte) : (s.setExpAddr v).k = s.k := rfl
@[simp] theorem State.setExpAddr_sreg (s : State) (v : Byte) : (s.setExpAddr v).sreg = s.sreg := rfl
@[simp] theorem State.setExpAddr_pending (s : State) (v : Byte) : (s.setExpAddr v).pending = s.pending := rfl
@[simp] theorem State.setExpAddr_sched (s : State) (v : Byte) : (s.setExpAddr v).sched = s.sched := rfl
@[simp] theorem State.setExpAddr_results (s : State) (v : Byte) : (s.setExpAddr v).results = s.results := rfl
@[simp] theorem State.setExpAddr_draws (s : State) (v : Byte) : (s.setExpAddr v).draws = s.draws := rfl
@[simp] theorem State.setExpAddr_busy (s : State) (v : Byte) : (s.setExpAddr v).busy = s.busy := rfl

@[simp] theorem State.setCandLo_cmdr (s : State) (v : Byte) : (s.setCandLo v).cmdr = s.cmdr := rfl
@[simp] theorem State.setCandLo_done (s : State) (v : Byte) : (s.setCandLo v).done = s.done := rfl
@[simp] theorem State.setCandLo_err (s : State) (v : Byte) : (s.setCandLo v).err = s.err := rfl
@[simp] theorem State.setCandLo_matched (s : State) (v : Byte) : (s.setCandLo v).matched = s.matched := rfl
@[simp] theorem State.setCandLo_sent (s : State) (v : Byte) : (s.setCandLo v).sent = s.sent := rfl
@[simp] theorem State.setCandLo_cmderr (s : State) (v : Byte) : (s.setCandLo v).cmderr = s.cmderr := rfl
@[simp] theorem State.setCandLo_ovr (s : State) (v : Byte) : (s.setCandLo v).ovr = s.ovr := rfl
@[simp] theorem State.setCandLo_len (s : State) (v : Byte) : (s.setCandLo v).len = s.len := rfl
@[simp] theorem State.setCandLo_expAddr (s : State) (v : Byte) : (s.setCandLo v).expAddr = s.expAddr := rfl
@[simp] theorem State.setCandLo_crc (s : State) (v : Byte) : (s.setCandLo v).crc = s.crc := rfl
@[simp] theorem State.setCandLo_plen (s : State) (v : Byte) : (s.setCandLo v).plen = s.plen := rfl
@[simp] theorem State.setCandLo_candLo (s : State) (v : Byte) : (s.setCandLo v).candLo = v := rfl
@[simp] theorem State.setCandLo_candHi (s : State) (v : Byte) : (s.setCandLo v).candHi = s.candHi := rfl
@[simp] theorem State.setCandLo_buf (s : State) (v : Byte) : (s.setCandLo v).buf = s.buf := rfl
@[simp] theorem State.setCandLo_phase (s : State) (v : Byte) : (s.setCandLo v).phase = s.phase := rfl
@[simp] theorem State.setCandLo_op (s : State) (v : Byte) : (s.setCandLo v).op = s.op := rfl
@[simp] theorem State.setCandLo_idx (s : State) (v : Byte) : (s.setCandLo v).idx = s.idx := rfl
@[simp] theorem State.setCandLo_endi (s : State) (v : Byte) : (s.setCandLo v).endi = s.endi := rfl
@[simp] theorem State.setCandLo_k (s : State) (v : Byte) : (s.setCandLo v).k = s.k := rfl
@[simp] theorem State.setCandLo_sreg (s : State) (v : Byte) : (s.setCandLo v).sreg = s.sreg := rfl
@[simp] theorem State.setCandLo_pending (s : State) (v : Byte) : (s.setCandLo v).pending = s.pending := rfl
@[simp] theorem State.setCandLo_sched (s : State) (v : Byte) : (s.setCandLo v).sched = s.sched := rfl
@[simp] theorem State.setCandLo_results (s : State) (v : Byte) : (s.setCandLo v).results = s.results := rfl
@[simp] theorem State.setCandLo_draws (s : State) (v : Byte) : (s.setCandLo v).draws = s.draws := rfl
@[simp] theorem State.setCandLo_busy (s : State) (v : Byte) : (s.setCandLo v).busy = s.busy := rfl

@[simp] theorem State.setCandHi_cmdr (s : State) (v : Byte) : (s.setCandHi v).cmdr = s.cmdr := rfl
@[simp] theorem State.setCandHi_done (s : State) (v : Byte) : (s.setCandHi v).done = s.done := rfl
@[simp] theorem State.setCandHi_err (s : State) (v : Byte) : (s.setCandHi v).err = s.err := rfl
@[simp] theorem State.setCandHi_matched (s : State) (v : Byte) : (s.setCandHi v).matched = s.matched := rfl
@[simp] theorem State.setCandHi_sent (s : State) (v : Byte) : (s.setCandHi v).sent = s.sent := rfl
@[simp] theorem State.setCandHi_cmderr (s : State) (v : Byte) : (s.setCandHi v).cmderr = s.cmderr := rfl
@[simp] theorem State.setCandHi_ovr (s : State) (v : Byte) : (s.setCandHi v).ovr = s.ovr := rfl
@[simp] theorem State.setCandHi_len (s : State) (v : Byte) : (s.setCandHi v).len = s.len := rfl
@[simp] theorem State.setCandHi_expAddr (s : State) (v : Byte) : (s.setCandHi v).expAddr = s.expAddr := rfl
@[simp] theorem State.setCandHi_crc (s : State) (v : Byte) : (s.setCandHi v).crc = s.crc := rfl
@[simp] theorem State.setCandHi_plen (s : State) (v : Byte) : (s.setCandHi v).plen = s.plen := rfl
@[simp] theorem State.setCandHi_candLo (s : State) (v : Byte) : (s.setCandHi v).candLo = s.candLo := rfl
@[simp] theorem State.setCandHi_candHi (s : State) (v : Byte) : (s.setCandHi v).candHi = v := rfl
@[simp] theorem State.setCandHi_buf (s : State) (v : Byte) : (s.setCandHi v).buf = s.buf := rfl
@[simp] theorem State.setCandHi_phase (s : State) (v : Byte) : (s.setCandHi v).phase = s.phase := rfl
@[simp] theorem State.setCandHi_op (s : State) (v : Byte) : (s.setCandHi v).op = s.op := rfl
@[simp] theorem State.setCandHi_idx (s : State) (v : Byte) : (s.setCandHi v).idx = s.idx := rfl
@[simp] theorem State.setCandHi_endi (s : State) (v : Byte) : (s.setCandHi v).endi = s.endi := rfl
@[simp] theorem State.setCandHi_k (s : State) (v : Byte) : (s.setCandHi v).k = s.k := rfl
@[simp] theorem State.setCandHi_sreg (s : State) (v : Byte) : (s.setCandHi v).sreg = s.sreg := rfl
@[simp] theorem State.setCandHi_pending (s : State) (v : Byte) : (s.setCandHi v).pending = s.pending := rfl
@[simp] theorem State.setCandHi_sched (s : State) (v : Byte) : (s.setCandHi v).sched = s.sched := rfl
@[simp] theorem State.setCandHi_results (s : State) (v : Byte) : (s.setCandHi v).results = s.results := rfl
@[simp] theorem State.setCandHi_draws (s : State) (v : Byte) : (s.setCandHi v).draws = s.draws := rfl
@[simp] theorem State.setCandHi_busy (s : State) (v : Byte) : (s.setCandHi v).busy = s.busy := rfl

@[simp] theorem State.loadCrc_cmdr (s : State) : (s.loadCrc).cmdr = s.cmdr := rfl
@[simp] theorem State.loadCrc_done (s : State) : (s.loadCrc).done = s.done := rfl
@[simp] theorem State.loadCrc_err (s : State) : (s.loadCrc).err = s.err := rfl
@[simp] theorem State.loadCrc_matched (s : State) : (s.loadCrc).matched = s.matched := rfl
@[simp] theorem State.loadCrc_sent (s : State) : (s.loadCrc).sent = s.sent := rfl
@[simp] theorem State.loadCrc_cmderr (s : State) : (s.loadCrc).cmderr = s.cmderr := rfl
@[simp] theorem State.loadCrc_ovr (s : State) : (s.loadCrc).ovr = s.ovr := rfl
@[simp] theorem State.loadCrc_len (s : State) : (s.loadCrc).len = s.len := rfl
@[simp] theorem State.loadCrc_expAddr (s : State) : (s.loadCrc).expAddr = s.expAddr := rfl
@[simp] theorem State.loadCrc_crc (s : State) : (s.loadCrc).crc = crcInit := rfl
@[simp] theorem State.loadCrc_plen (s : State) : (s.loadCrc).plen = s.plen := rfl
@[simp] theorem State.loadCrc_candLo (s : State) : (s.loadCrc).candLo = s.candLo := rfl
@[simp] theorem State.loadCrc_candHi (s : State) : (s.loadCrc).candHi = s.candHi := rfl
@[simp] theorem State.loadCrc_buf (s : State) : (s.loadCrc).buf = s.buf := rfl
@[simp] theorem State.loadCrc_phase (s : State) : (s.loadCrc).phase = s.phase := rfl
@[simp] theorem State.loadCrc_op (s : State) : (s.loadCrc).op = s.op := rfl
@[simp] theorem State.loadCrc_idx (s : State) : (s.loadCrc).idx = s.idx := rfl
@[simp] theorem State.loadCrc_endi (s : State) : (s.loadCrc).endi = s.endi := rfl
@[simp] theorem State.loadCrc_k (s : State) : (s.loadCrc).k = s.k := rfl
@[simp] theorem State.loadCrc_sreg (s : State) : (s.loadCrc).sreg = s.sreg := rfl
@[simp] theorem State.loadCrc_pending (s : State) : (s.loadCrc).pending = s.pending := rfl
@[simp] theorem State.loadCrc_sched (s : State) : (s.loadCrc).sched = s.sched := rfl
@[simp] theorem State.loadCrc_results (s : State) : (s.loadCrc).results = s.results := rfl
@[simp] theorem State.loadCrc_draws (s : State) : (s.loadCrc).draws = s.draws := rfl
@[simp] theorem State.loadCrc_busy (s : State) : (s.loadCrc).busy = s.busy := rfl

@[simp] theorem State.setMatch_cmdr (s : State) (m : Bool) : (s.setMatch m).cmdr = s.cmdr := rfl
@[simp] theorem State.setMatch_done (s : State) (m : Bool) : (s.setMatch m).done = s.done := rfl
@[simp] theorem State.setMatch_err (s : State) (m : Bool) : (s.setMatch m).err = s.err := rfl
@[simp] theorem State.setMatch_matched (s : State) (m : Bool) : (s.setMatch m).matched = m := rfl
@[simp] theorem State.setMatch_sent (s : State) (m : Bool) : (s.setMatch m).sent = s.sent := rfl
@[simp] theorem State.setMatch_cmderr (s : State) (m : Bool) : (s.setMatch m).cmderr = s.cmderr := rfl
@[simp] theorem State.setMatch_ovr (s : State) (m : Bool) : (s.setMatch m).ovr = s.ovr := rfl
@[simp] theorem State.setMatch_len (s : State) (m : Bool) : (s.setMatch m).len = s.len := rfl
@[simp] theorem State.setMatch_expAddr (s : State) (m : Bool) : (s.setMatch m).expAddr = s.expAddr := rfl
@[simp] theorem State.setMatch_crc (s : State) (m : Bool) : (s.setMatch m).crc = s.crc := rfl
@[simp] theorem State.setMatch_plen (s : State) (m : Bool) : (s.setMatch m).plen = s.plen := rfl
@[simp] theorem State.setMatch_candLo (s : State) (m : Bool) : (s.setMatch m).candLo = s.candLo := rfl
@[simp] theorem State.setMatch_candHi (s : State) (m : Bool) : (s.setMatch m).candHi = s.candHi := rfl
@[simp] theorem State.setMatch_buf (s : State) (m : Bool) : (s.setMatch m).buf = s.buf := rfl
@[simp] theorem State.setMatch_phase (s : State) (m : Bool) : (s.setMatch m).phase = s.phase := rfl
@[simp] theorem State.setMatch_op (s : State) (m : Bool) : (s.setMatch m).op = s.op := rfl
@[simp] theorem State.setMatch_idx (s : State) (m : Bool) : (s.setMatch m).idx = s.idx := rfl
@[simp] theorem State.setMatch_endi (s : State) (m : Bool) : (s.setMatch m).endi = s.endi := rfl
@[simp] theorem State.setMatch_k (s : State) (m : Bool) : (s.setMatch m).k = s.k := rfl
@[simp] theorem State.setMatch_sreg (s : State) (m : Bool) : (s.setMatch m).sreg = s.sreg := rfl
@[simp] theorem State.setMatch_pending (s : State) (m : Bool) : (s.setMatch m).pending = s.pending := rfl
@[simp] theorem State.setMatch_sched (s : State) (m : Bool) : (s.setMatch m).sched = s.sched := rfl
@[simp] theorem State.setMatch_results (s : State) (m : Bool) : (s.setMatch m).results = s.results := rfl
@[simp] theorem State.setMatch_draws (s : State) (m : Bool) : (s.setMatch m).draws = s.draws := rfl
@[simp] theorem State.setMatch_busy (s : State) (m : Bool) : (s.setMatch m).busy = s.busy := rfl

@[simp] theorem State.writeBuf_cmdr (s : State) (i : Nat) (v : Byte) : (s.writeBuf i v).cmdr = s.cmdr := rfl
@[simp] theorem State.writeBuf_done (s : State) (i : Nat) (v : Byte) : (s.writeBuf i v).done = s.done := rfl
@[simp] theorem State.writeBuf_err (s : State) (i : Nat) (v : Byte) : (s.writeBuf i v).err = s.err := rfl
@[simp] theorem State.writeBuf_matched (s : State) (i : Nat) (v : Byte) : (s.writeBuf i v).matched = s.matched := rfl
@[simp] theorem State.writeBuf_sent (s : State) (i : Nat) (v : Byte) : (s.writeBuf i v).sent = s.sent := rfl
@[simp] theorem State.writeBuf_cmderr (s : State) (i : Nat) (v : Byte) : (s.writeBuf i v).cmderr = s.cmderr := rfl
@[simp] theorem State.writeBuf_ovr (s : State) (i : Nat) (v : Byte) : (s.writeBuf i v).ovr = s.ovr := rfl
@[simp] theorem State.writeBuf_len (s : State) (i : Nat) (v : Byte) : (s.writeBuf i v).len = s.len := rfl
@[simp] theorem State.writeBuf_expAddr (s : State) (i : Nat) (v : Byte) : (s.writeBuf i v).expAddr = s.expAddr := rfl
@[simp] theorem State.writeBuf_crc (s : State) (i : Nat) (v : Byte) : (s.writeBuf i v).crc = s.crc := rfl
@[simp] theorem State.writeBuf_plen (s : State) (i : Nat) (v : Byte) : (s.writeBuf i v).plen = s.plen := rfl
@[simp] theorem State.writeBuf_candLo (s : State) (i : Nat) (v : Byte) : (s.writeBuf i v).candLo = s.candLo := rfl
@[simp] theorem State.writeBuf_candHi (s : State) (i : Nat) (v : Byte) : (s.writeBuf i v).candHi = s.candHi := rfl
@[simp] theorem State.writeBuf_buf (s : State) (i : Nat) (v : Byte) : (s.writeBuf i v).buf = s.buf.writeByte i v := rfl
@[simp] theorem State.writeBuf_phase (s : State) (i : Nat) (v : Byte) : (s.writeBuf i v).phase = s.phase := rfl
@[simp] theorem State.writeBuf_op (s : State) (i : Nat) (v : Byte) : (s.writeBuf i v).op = s.op := rfl
@[simp] theorem State.writeBuf_idx (s : State) (i : Nat) (v : Byte) : (s.writeBuf i v).idx = s.idx := rfl
@[simp] theorem State.writeBuf_endi (s : State) (i : Nat) (v : Byte) : (s.writeBuf i v).endi = s.endi := rfl
@[simp] theorem State.writeBuf_k (s : State) (i : Nat) (v : Byte) : (s.writeBuf i v).k = s.k := rfl
@[simp] theorem State.writeBuf_sreg (s : State) (i : Nat) (v : Byte) : (s.writeBuf i v).sreg = s.sreg := rfl
@[simp] theorem State.writeBuf_pending (s : State) (i : Nat) (v : Byte) : (s.writeBuf i v).pending = s.pending := rfl
@[simp] theorem State.writeBuf_sched (s : State) (i : Nat) (v : Byte) : (s.writeBuf i v).sched = s.sched := rfl
@[simp] theorem State.writeBuf_results (s : State) (i : Nat) (v : Byte) : (s.writeBuf i v).results = s.results := rfl
@[simp] theorem State.writeBuf_draws (s : State) (i : Nat) (v : Byte) : (s.writeBuf i v).draws = s.draws := rfl
@[simp] theorem State.writeBuf_busy (s : State) (i : Nat) (v : Byte) : (s.writeBuf i v).busy = s.busy := rfl

@[simp] theorem State.feedBit_cmdr (s : State) : (s.feedBit).cmdr = s.cmdr := rfl
@[simp] theorem State.feedBit_done (s : State) : (s.feedBit).done = s.done := rfl
@[simp] theorem State.feedBit_err (s : State) : (s.feedBit).err = s.err := rfl
@[simp] theorem State.feedBit_matched (s : State) : (s.feedBit).matched = s.matched := rfl
@[simp] theorem State.feedBit_sent (s : State) : (s.feedBit).sent = s.sent := rfl
@[simp] theorem State.feedBit_cmderr (s : State) : (s.feedBit).cmderr = s.cmderr := rfl
@[simp] theorem State.feedBit_ovr (s : State) : (s.feedBit).ovr = s.ovr := rfl
@[simp] theorem State.feedBit_len (s : State) : (s.feedBit).len = s.len := rfl
@[simp] theorem State.feedBit_expAddr (s : State) : (s.feedBit).expAddr = s.expAddr := rfl
@[simp] theorem State.feedBit_crc (s : State) : (s.feedBit).crc = crcStep s.crc (s.sreg.getLsbD 0) := rfl
@[simp] theorem State.feedBit_plen (s : State) : (s.feedBit).plen = s.plen := rfl
@[simp] theorem State.feedBit_candLo (s : State) : (s.feedBit).candLo = s.candLo := rfl
@[simp] theorem State.feedBit_candHi (s : State) : (s.feedBit).candHi = s.candHi := rfl
@[simp] theorem State.feedBit_buf (s : State) : (s.feedBit).buf = s.buf := rfl
@[simp] theorem State.feedBit_phase (s : State) : (s.feedBit).phase = s.phase := rfl
@[simp] theorem State.feedBit_op (s : State) : (s.feedBit).op = s.op := rfl
@[simp] theorem State.feedBit_idx (s : State) : (s.feedBit).idx = s.idx := rfl
@[simp] theorem State.feedBit_endi (s : State) : (s.feedBit).endi = s.endi := rfl
@[simp] theorem State.feedBit_k (s : State) : (s.feedBit).k = s.k + 1#3 := rfl
@[simp] theorem State.feedBit_sreg (s : State) : (s.feedBit).sreg = s.sreg >>> 1 := rfl
@[simp] theorem State.feedBit_pending (s : State) : (s.feedBit).pending = s.pending := rfl
@[simp] theorem State.feedBit_sched (s : State) : (s.feedBit).sched = s.sched := rfl
@[simp] theorem State.feedBit_results (s : State) : (s.feedBit).results = s.results := rfl
@[simp] theorem State.feedBit_draws (s : State) : (s.feedBit).draws = s.draws := rfl
@[simp] theorem State.feedBit_busy (s : State) : (s.feedBit).busy = s.busy := rfl

@[simp] theorem State.feedNextByte_cmdr (s : State) (b : Byte) : (s.feedNextByte b).cmdr = s.cmdr := rfl
@[simp] theorem State.feedNextByte_done (s : State) (b : Byte) : (s.feedNextByte b).done = s.done := rfl
@[simp] theorem State.feedNextByte_err (s : State) (b : Byte) : (s.feedNextByte b).err = s.err := rfl
@[simp] theorem State.feedNextByte_matched (s : State) (b : Byte) : (s.feedNextByte b).matched = s.matched := rfl
@[simp] theorem State.feedNextByte_sent (s : State) (b : Byte) : (s.feedNextByte b).sent = s.sent := rfl
@[simp] theorem State.feedNextByte_cmderr (s : State) (b : Byte) : (s.feedNextByte b).cmderr = s.cmderr := rfl
@[simp] theorem State.feedNextByte_ovr (s : State) (b : Byte) : (s.feedNextByte b).ovr = s.ovr := rfl
@[simp] theorem State.feedNextByte_len (s : State) (b : Byte) : (s.feedNextByte b).len = s.len := rfl
@[simp] theorem State.feedNextByte_expAddr (s : State) (b : Byte) : (s.feedNextByte b).expAddr = s.expAddr := rfl
@[simp] theorem State.feedNextByte_crc (s : State) (b : Byte) : (s.feedNextByte b).crc = crcStep s.crc (s.sreg.getLsbD 0) := rfl
@[simp] theorem State.feedNextByte_plen (s : State) (b : Byte) : (s.feedNextByte b).plen = s.plen := rfl
@[simp] theorem State.feedNextByte_candLo (s : State) (b : Byte) : (s.feedNextByte b).candLo = s.candLo := rfl
@[simp] theorem State.feedNextByte_candHi (s : State) (b : Byte) : (s.feedNextByte b).candHi = s.candHi := rfl
@[simp] theorem State.feedNextByte_buf (s : State) (b : Byte) : (s.feedNextByte b).buf = s.buf := rfl
@[simp] theorem State.feedNextByte_phase (s : State) (b : Byte) : (s.feedNextByte b).phase = s.phase := rfl
@[simp] theorem State.feedNextByte_op (s : State) (b : Byte) : (s.feedNextByte b).op = s.op := rfl
@[simp] theorem State.feedNextByte_idx (s : State) (b : Byte) : (s.feedNextByte b).idx = s.idx + 1#9 := rfl
@[simp] theorem State.feedNextByte_endi (s : State) (b : Byte) : (s.feedNextByte b).endi = s.endi := rfl
@[simp] theorem State.feedNextByte_k (s : State) (b : Byte) : (s.feedNextByte b).k = 0#3 := rfl
@[simp] theorem State.feedNextByte_sreg (s : State) (b : Byte) : (s.feedNextByte b).sreg = b := rfl
@[simp] theorem State.feedNextByte_pending (s : State) (b : Byte) : (s.feedNextByte b).pending = s.pending := rfl
@[simp] theorem State.feedNextByte_sched (s : State) (b : Byte) : (s.feedNextByte b).sched = s.sched := rfl
@[simp] theorem State.feedNextByte_results (s : State) (b : Byte) : (s.feedNextByte b).results = s.results := rfl
@[simp] theorem State.feedNextByte_draws (s : State) (b : Byte) : (s.feedNextByte b).draws = s.draws := rfl
@[simp] theorem State.feedNextByte_busy (s : State) (b : Byte) : (s.feedNextByte b).busy = s.busy := rfl

@[simp] theorem State.feedLastBit_cmdr (s : State) : (s.feedLastBit).cmdr = s.cmdr := rfl
@[simp] theorem State.feedLastBit_done (s : State) : (s.feedLastBit).done = s.done := rfl
@[simp] theorem State.feedLastBit_err (s : State) : (s.feedLastBit).err = s.err := rfl
@[simp] theorem State.feedLastBit_matched (s : State) : (s.feedLastBit).matched = s.matched := rfl
@[simp] theorem State.feedLastBit_sent (s : State) : (s.feedLastBit).sent = s.sent := rfl
@[simp] theorem State.feedLastBit_cmderr (s : State) : (s.feedLastBit).cmderr = s.cmderr := rfl
@[simp] theorem State.feedLastBit_ovr (s : State) : (s.feedLastBit).ovr = s.ovr := rfl
@[simp] theorem State.feedLastBit_len (s : State) : (s.feedLastBit).len = s.len := rfl
@[simp] theorem State.feedLastBit_expAddr (s : State) : (s.feedLastBit).expAddr = s.expAddr := rfl
@[simp] theorem State.feedLastBit_crc (s : State) : (s.feedLastBit).crc = crcStep s.crc (s.sreg.getLsbD 0) := rfl
@[simp] theorem State.feedLastBit_plen (s : State) : (s.feedLastBit).plen = s.plen := rfl
@[simp] theorem State.feedLastBit_candLo (s : State) : (s.feedLastBit).candLo = s.candLo := rfl
@[simp] theorem State.feedLastBit_candHi (s : State) : (s.feedLastBit).candHi = s.candHi := rfl
@[simp] theorem State.feedLastBit_buf (s : State) : (s.feedLastBit).buf = s.buf := rfl
@[simp] theorem State.feedLastBit_phase (s : State) : (s.feedLastBit).phase = .finish := rfl
@[simp] theorem State.feedLastBit_op (s : State) : (s.feedLastBit).op = s.op := rfl
@[simp] theorem State.feedLastBit_idx (s : State) : (s.feedLastBit).idx = s.idx + 1#9 := rfl
@[simp] theorem State.feedLastBit_endi (s : State) : (s.feedLastBit).endi = s.endi := rfl
@[simp] theorem State.feedLastBit_k (s : State) : (s.feedLastBit).k = 0#3 := rfl
@[simp] theorem State.feedLastBit_sreg (s : State) : (s.feedLastBit).sreg = s.sreg >>> 1 := rfl
@[simp] theorem State.feedLastBit_pending (s : State) : (s.feedLastBit).pending = s.pending := rfl
@[simp] theorem State.feedLastBit_sched (s : State) : (s.feedLastBit).sched = s.sched := rfl
@[simp] theorem State.feedLastBit_results (s : State) : (s.feedLastBit).results = s.results := rfl
@[simp] theorem State.feedLastBit_draws (s : State) : (s.feedLastBit).draws = s.draws := rfl
@[simp] theorem State.feedLastBit_busy (s : State) : (s.feedLastBit).busy = true := rfl

@[simp] theorem State.parseOk_cmdr (s : State) (x : Bool) : (s.parseOk x).cmdr = s.cmdr := rfl
@[simp] theorem State.parseOk_done (s : State) (x : Bool) : (s.parseOk x).done = s.done := rfl
@[simp] theorem State.parseOk_err (s : State) (x : Bool) : (s.parseOk x).err = .noError := rfl
@[simp] theorem State.parseOk_matched (s : State) (x : Bool) : (s.parseOk x).matched = true := rfl
@[simp] theorem State.parseOk_sent (s : State) (x : Bool) : (s.parseOk x).sent = x := rfl
@[simp] theorem State.parseOk_cmderr (s : State) (x : Bool) : (s.parseOk x).cmderr = s.cmderr := rfl
@[simp] theorem State.parseOk_ovr (s : State) (x : Bool) : (s.parseOk x).ovr = s.ovr := rfl
@[simp] theorem State.parseOk_len (s : State) (x : Bool) : (s.parseOk x).len = s.len := rfl
@[simp] theorem State.parseOk_expAddr (s : State) (x : Bool) : (s.parseOk x).expAddr = s.expAddr := rfl
@[simp] theorem State.parseOk_crc (s : State) (x : Bool) : (s.parseOk x).crc = s.crc := rfl
@[simp] theorem State.parseOk_plen (s : State) (x : Bool) : (s.parseOk x).plen = s.payloadLen := rfl
@[simp] theorem State.parseOk_candLo (s : State) (x : Bool) : (s.parseOk x).candLo = s.candLo := rfl
@[simp] theorem State.parseOk_candHi (s : State) (x : Bool) : (s.parseOk x).candHi = s.candHi := rfl
@[simp] theorem State.parseOk_buf (s : State) (x : Bool) : (s.parseOk x).buf = s.buf := rfl
@[simp] theorem State.parseOk_phase (s : State) (x : Bool) : (s.parseOk x).phase = s.phase := rfl
@[simp] theorem State.parseOk_op (s : State) (x : Bool) : (s.parseOk x).op = s.op := rfl
@[simp] theorem State.parseOk_idx (s : State) (x : Bool) : (s.parseOk x).idx = s.idx := rfl
@[simp] theorem State.parseOk_endi (s : State) (x : Bool) : (s.parseOk x).endi = s.endi := rfl
@[simp] theorem State.parseOk_k (s : State) (x : Bool) : (s.parseOk x).k = s.k := rfl
@[simp] theorem State.parseOk_sreg (s : State) (x : Bool) : (s.parseOk x).sreg = s.sreg := rfl
@[simp] theorem State.parseOk_pending (s : State) (x : Bool) : (s.parseOk x).pending = s.pending := rfl
@[simp] theorem State.parseOk_sched (s : State) (x : Bool) : (s.parseOk x).sched = s.sched := rfl
@[simp] theorem State.parseOk_results (s : State) (x : Bool) : (s.parseOk x).results = s.results := rfl
@[simp] theorem State.parseOk_draws (s : State) (x : Bool) : (s.parseOk x).draws = s.draws := rfl
@[simp] theorem State.parseOk_busy (s : State) (x : Bool) : (s.parseOk x).busy = s.busy := rfl

@[simp] theorem State.setPending_cmdr (s : State) (l : List HostOp) : (s.setPending l).cmdr = s.cmdr := rfl
@[simp] theorem State.setPending_done (s : State) (l : List HostOp) : (s.setPending l).done = s.done := rfl
@[simp] theorem State.setPending_err (s : State) (l : List HostOp) : (s.setPending l).err = s.err := rfl
@[simp] theorem State.setPending_matched (s : State) (l : List HostOp) : (s.setPending l).matched = s.matched := rfl
@[simp] theorem State.setPending_sent (s : State) (l : List HostOp) : (s.setPending l).sent = s.sent := rfl
@[simp] theorem State.setPending_cmderr (s : State) (l : List HostOp) : (s.setPending l).cmderr = s.cmderr := rfl
@[simp] theorem State.setPending_ovr (s : State) (l : List HostOp) : (s.setPending l).ovr = s.ovr := rfl
@[simp] theorem State.setPending_len (s : State) (l : List HostOp) : (s.setPending l).len = s.len := rfl
@[simp] theorem State.setPending_expAddr (s : State) (l : List HostOp) : (s.setPending l).expAddr = s.expAddr := rfl
@[simp] theorem State.setPending_crc (s : State) (l : List HostOp) : (s.setPending l).crc = s.crc := rfl
@[simp] theorem State.setPending_plen (s : State) (l : List HostOp) : (s.setPending l).plen = s.plen := rfl
@[simp] theorem State.setPending_candLo (s : State) (l : List HostOp) : (s.setPending l).candLo = s.candLo := rfl
@[simp] theorem State.setPending_candHi (s : State) (l : List HostOp) : (s.setPending l).candHi = s.candHi := rfl
@[simp] theorem State.setPending_buf (s : State) (l : List HostOp) : (s.setPending l).buf = s.buf := rfl
@[simp] theorem State.setPending_phase (s : State) (l : List HostOp) : (s.setPending l).phase = s.phase := rfl
@[simp] theorem State.setPending_op (s : State) (l : List HostOp) : (s.setPending l).op = s.op := rfl
@[simp] theorem State.setPending_idx (s : State) (l : List HostOp) : (s.setPending l).idx = s.idx := rfl
@[simp] theorem State.setPending_endi (s : State) (l : List HostOp) : (s.setPending l).endi = s.endi := rfl
@[simp] theorem State.setPending_k (s : State) (l : List HostOp) : (s.setPending l).k = s.k := rfl
@[simp] theorem State.setPending_sreg (s : State) (l : List HostOp) : (s.setPending l).sreg = s.sreg := rfl
@[simp] theorem State.setPending_pending (s : State) (l : List HostOp) : (s.setPending l).pending = l := rfl
@[simp] theorem State.setPending_sched (s : State) (l : List HostOp) : (s.setPending l).sched = s.sched := rfl
@[simp] theorem State.setPending_results (s : State) (l : List HostOp) : (s.setPending l).results = s.results := rfl
@[simp] theorem State.setPending_draws (s : State) (l : List HostOp) : (s.setPending l).draws = s.draws := rfl
@[simp] theorem State.setPending_busy (s : State) (l : List HostOp) : (s.setPending l).busy = s.busy := rfl

@[simp] theorem State.setSched_cmdr (s : State) (l : List Agent) : (s.setSched l).cmdr = s.cmdr := rfl
@[simp] theorem State.setSched_done (s : State) (l : List Agent) : (s.setSched l).done = s.done := rfl
@[simp] theorem State.setSched_err (s : State) (l : List Agent) : (s.setSched l).err = s.err := rfl
@[simp] theorem State.setSched_matched (s : State) (l : List Agent) : (s.setSched l).matched = s.matched := rfl
@[simp] theorem State.setSched_sent (s : State) (l : List Agent) : (s.setSched l).sent = s.sent := rfl
@[simp] theorem State.setSched_cmderr (s : State) (l : List Agent) : (s.setSched l).cmderr = s.cmderr := rfl
@[simp] theorem State.setSched_ovr (s : State) (l : List Agent) : (s.setSched l).ovr = s.ovr := rfl
@[simp] theorem State.setSched_len (s : State) (l : List Agent) : (s.setSched l).len = s.len := rfl
@[simp] theorem State.setSched_expAddr (s : State) (l : List Agent) : (s.setSched l).expAddr = s.expAddr := rfl
@[simp] theorem State.setSched_crc (s : State) (l : List Agent) : (s.setSched l).crc = s.crc := rfl
@[simp] theorem State.setSched_plen (s : State) (l : List Agent) : (s.setSched l).plen = s.plen := rfl
@[simp] theorem State.setSched_candLo (s : State) (l : List Agent) : (s.setSched l).candLo = s.candLo := rfl
@[simp] theorem State.setSched_candHi (s : State) (l : List Agent) : (s.setSched l).candHi = s.candHi := rfl
@[simp] theorem State.setSched_buf (s : State) (l : List Agent) : (s.setSched l).buf = s.buf := rfl
@[simp] theorem State.setSched_phase (s : State) (l : List Agent) : (s.setSched l).phase = s.phase := rfl
@[simp] theorem State.setSched_op (s : State) (l : List Agent) : (s.setSched l).op = s.op := rfl
@[simp] theorem State.setSched_idx (s : State) (l : List Agent) : (s.setSched l).idx = s.idx := rfl
@[simp] theorem State.setSched_endi (s : State) (l : List Agent) : (s.setSched l).endi = s.endi := rfl
@[simp] theorem State.setSched_k (s : State) (l : List Agent) : (s.setSched l).k = s.k := rfl
@[simp] theorem State.setSched_sreg (s : State) (l : List Agent) : (s.setSched l).sreg = s.sreg := rfl
@[simp] theorem State.setSched_pending (s : State) (l : List Agent) : (s.setSched l).pending = s.pending := rfl
@[simp] theorem State.setSched_sched (s : State) (l : List Agent) : (s.setSched l).sched = l := rfl
@[simp] theorem State.setSched_results (s : State) (l : List Agent) : (s.setSched l).results = s.results := rfl
@[simp] theorem State.setSched_draws (s : State) (l : List Agent) : (s.setSched l).draws = s.draws := rfl
@[simp] theorem State.setSched_busy (s : State) (l : List Agent) : (s.setSched l).busy = s.busy := rfl

@[simp] theorem State.popSched_cmdr (s : State) : (s.popSched).cmdr = s.cmdr := rfl
@[simp] theorem State.popSched_done (s : State) : (s.popSched).done = s.done := rfl
@[simp] theorem State.popSched_err (s : State) : (s.popSched).err = s.err := rfl
@[simp] theorem State.popSched_matched (s : State) : (s.popSched).matched = s.matched := rfl
@[simp] theorem State.popSched_sent (s : State) : (s.popSched).sent = s.sent := rfl
@[simp] theorem State.popSched_cmderr (s : State) : (s.popSched).cmderr = s.cmderr := rfl
@[simp] theorem State.popSched_ovr (s : State) : (s.popSched).ovr = s.ovr := rfl
@[simp] theorem State.popSched_len (s : State) : (s.popSched).len = s.len := rfl
@[simp] theorem State.popSched_expAddr (s : State) : (s.popSched).expAddr = s.expAddr := rfl
@[simp] theorem State.popSched_crc (s : State) : (s.popSched).crc = s.crc := rfl
@[simp] theorem State.popSched_plen (s : State) : (s.popSched).plen = s.plen := rfl
@[simp] theorem State.popSched_candLo (s : State) : (s.popSched).candLo = s.candLo := rfl
@[simp] theorem State.popSched_candHi (s : State) : (s.popSched).candHi = s.candHi := rfl
@[simp] theorem State.popSched_buf (s : State) : (s.popSched).buf = s.buf := rfl
@[simp] theorem State.popSched_phase (s : State) : (s.popSched).phase = s.phase := rfl
@[simp] theorem State.popSched_op (s : State) : (s.popSched).op = s.op := rfl
@[simp] theorem State.popSched_idx (s : State) : (s.popSched).idx = s.idx := rfl
@[simp] theorem State.popSched_endi (s : State) : (s.popSched).endi = s.endi := rfl
@[simp] theorem State.popSched_k (s : State) : (s.popSched).k = s.k := rfl
@[simp] theorem State.popSched_sreg (s : State) : (s.popSched).sreg = s.sreg := rfl
@[simp] theorem State.popSched_pending (s : State) : (s.popSched).pending = s.pending := rfl
@[simp] theorem State.popSched_sched (s : State) : (s.popSched).sched = s.sched.tail := rfl
@[simp] theorem State.popSched_results (s : State) : (s.popSched).results = s.results := rfl
@[simp] theorem State.popSched_draws (s : State) : (s.popSched).draws = s.draws := rfl
@[simp] theorem State.popSched_busy (s : State) : (s.popSched).busy = s.busy := rfl

@[simp] theorem State.placeTxn_cmdr (s : State) (w : Txn) : (s.placeTxn w).cmdr = s.cmdr := rfl
@[simp] theorem State.placeTxn_done (s : State) (w : Txn) : (s.placeTxn w).done = s.done := rfl
@[simp] theorem State.placeTxn_err (s : State) (w : Txn) : (s.placeTxn w).err = s.err := rfl
@[simp] theorem State.placeTxn_matched (s : State) (w : Txn) : (s.placeTxn w).matched = s.matched := rfl
@[simp] theorem State.placeTxn_sent (s : State) (w : Txn) : (s.placeTxn w).sent = s.sent := rfl
@[simp] theorem State.placeTxn_cmderr (s : State) (w : Txn) : (s.placeTxn w).cmderr = s.cmderr := rfl
@[simp] theorem State.placeTxn_ovr (s : State) (w : Txn) : (s.placeTxn w).ovr = s.ovr := rfl
@[simp] theorem State.placeTxn_len (s : State) (w : Txn) : (s.placeTxn w).len = s.len := rfl
@[simp] theorem State.placeTxn_expAddr (s : State) (w : Txn) : (s.placeTxn w).expAddr = s.expAddr := rfl
@[simp] theorem State.placeTxn_crc (s : State) (w : Txn) : (s.placeTxn w).crc = s.crc := rfl
@[simp] theorem State.placeTxn_plen (s : State) (w : Txn) : (s.placeTxn w).plen = s.plen := rfl
@[simp] theorem State.placeTxn_candLo (s : State) (w : Txn) : (s.placeTxn w).candLo = s.candLo := rfl
@[simp] theorem State.placeTxn_candHi (s : State) (w : Txn) : (s.placeTxn w).candHi = s.candHi := rfl
@[simp] theorem State.placeTxn_buf (s : State) (w : Txn) : (s.placeTxn w).buf = s.buf := rfl
@[simp] theorem State.placeTxn_phase (s : State) (w : Txn) : (s.placeTxn w).phase = s.phase := rfl
@[simp] theorem State.placeTxn_op (s : State) (w : Txn) : (s.placeTxn w).op = s.op := rfl
@[simp] theorem State.placeTxn_idx (s : State) (w : Txn) : (s.placeTxn w).idx = s.idx := rfl
@[simp] theorem State.placeTxn_endi (s : State) (w : Txn) : (s.placeTxn w).endi = s.endi := rfl
@[simp] theorem State.placeTxn_k (s : State) (w : Txn) : (s.placeTxn w).k = s.k := rfl
@[simp] theorem State.placeTxn_sreg (s : State) (w : Txn) : (s.placeTxn w).sreg = s.sreg := rfl
@[simp] theorem State.placeTxn_pending (s : State) (w : Txn) : (s.placeTxn w).pending = .txn w :: s.pending := rfl
@[simp] theorem State.placeTxn_sched (s : State) (w : Txn) : (s.placeTxn w).sched = .host :: s.sched := rfl
@[simp] theorem State.placeTxn_results (s : State) (w : Txn) : (s.placeTxn w).results = s.results := rfl
@[simp] theorem State.placeTxn_draws (s : State) (w : Txn) : (s.placeTxn w).draws = s.draws := rfl
@[simp] theorem State.placeTxn_busy (s : State) (w : Txn) : (s.placeTxn w).busy = s.busy := rfl

@[simp] theorem State.blockCore_cmdr (s : State) : (s.blockCore).cmdr = s.cmdr := rfl
@[simp] theorem State.blockCore_done (s : State) : (s.blockCore).done = s.done := rfl
@[simp] theorem State.blockCore_err (s : State) : (s.blockCore).err = s.err := rfl
@[simp] theorem State.blockCore_matched (s : State) : (s.blockCore).matched = s.matched := rfl
@[simp] theorem State.blockCore_sent (s : State) : (s.blockCore).sent = s.sent := rfl
@[simp] theorem State.blockCore_cmderr (s : State) : (s.blockCore).cmderr = s.cmderr := rfl
@[simp] theorem State.blockCore_ovr (s : State) : (s.blockCore).ovr = false := rfl
@[simp] theorem State.blockCore_len (s : State) : (s.blockCore).len = s.len := rfl
@[simp] theorem State.blockCore_expAddr (s : State) : (s.blockCore).expAddr = s.expAddr := rfl
@[simp] theorem State.blockCore_crc (s : State) : (s.blockCore).crc = s.crc := rfl
@[simp] theorem State.blockCore_plen (s : State) : (s.blockCore).plen = s.plen := rfl
@[simp] theorem State.blockCore_candLo (s : State) : (s.blockCore).candLo = s.candLo := rfl
@[simp] theorem State.blockCore_candHi (s : State) : (s.blockCore).candHi = s.candHi := rfl
@[simp] theorem State.blockCore_buf (s : State) : (s.blockCore).buf = s.buf := rfl
@[simp] theorem State.blockCore_phase (s : State) : (s.blockCore).phase = s.phase := rfl
@[simp] theorem State.blockCore_op (s : State) : (s.blockCore).op = s.op := rfl
@[simp] theorem State.blockCore_idx (s : State) : (s.blockCore).idx = s.idx := rfl
@[simp] theorem State.blockCore_endi (s : State) : (s.blockCore).endi = s.endi := rfl
@[simp] theorem State.blockCore_k (s : State) : (s.blockCore).k = s.k := rfl
@[simp] theorem State.blockCore_sreg (s : State) : (s.blockCore).sreg = s.sreg := rfl
@[simp] theorem State.blockCore_pending (s : State) : (s.blockCore).pending = [] := rfl
@[simp] theorem State.blockCore_sched (s : State) : (s.blockCore).sched = [] := rfl
@[simp] theorem State.blockCore_results (s : State) : (s.blockCore).results = [] := rfl
@[simp] theorem State.blockCore_draws (s : State) : (s.blockCore).draws = 0 := rfl
@[simp] theorem State.blockCore_busy (s : State) : (s.blockCore).busy = s.busy := rfl

end Sys2Proof.Machine
end

