-- ==== Sys2Proof/Laws/Ops.lean ====
section
/-! SUPPORT. For each shared operation, once, everything it can do. Proofs cite these instead of unfolding the
operation. -/

namespace Sys2Proof.Machine

theorem State.busy_iff (s : State) : s.busy = true ↔ s.phase ≠ .idle := by
  unfold State.busy
  cases s.phase <;> simp

theorem State.idle_iff (s : State) : s.busy = false ↔ s.phase = .idle := by
  unfold State.busy
  cases s.phase <;> simp

theorem State.readBuf_eq_ok {s : State} {i : Nat} {b : Byte} :
    s.readBuf i = .ok b ↔ i < Config.bufSize ∧ s.buf.readByte i = some b := by
  unfold State.readBuf
  split_ifs with h
  · cases s.buf.readByte i <;> simp [h]
  · simp [h]

/-- Where BUF[i] is written, the operation goes on with it. -/
theorem State.withBufByte_of_read {s : State} {i : Nat} {b : Byte} (go : Byte → Result) (hi : i < Config.bufSize)
    (hb : s.buf.readByte i = some b) : s.withBufByte i go = go b := by
  simp [State.withBufByte, State.readBuf_eq_ok.2 ⟨hi, hb⟩]

/-- Where BUF[i] is unwritten, it is the model fault. -/
theorem State.withBufByte_of_unwritten {s : State} {i : Nat} (go : Byte → Result) (hi : i < Config.bufSize)
    (hb : s.buf.readByte i = none) : s.withBufByte i go = .fault (.unwrittenBufRead i) := by
  simp [State.withBufByte, State.readBuf, hi, hb]

/-- Where there is no BUF[i], it is the guard's fault. -/
theorem State.withBufByte_of_no_byte {s : State} {i : Nat} (go : Byte → Result) (hi : ¬i < Config.bufSize) :
    s.withBufByte i go = .fault (.noSuchBufByte i) := by
  simp [State.withBufByte, State.readBuf, hi]

/-- All that reading BUF[i] can do. -/
theorem State.withBufByte_cases (s : State) (i : Nat) (go : Byte → Result) :
    (∃ b, i < Config.bufSize ∧ s.buf.readByte i = some b ∧ s.withBufByte i go = go b) ∨
    (i < Config.bufSize ∧ s.buf.readByte i = none ∧ s.withBufByte i go = .fault (.unwrittenBufRead i)) ∨
    (¬i < Config.bufSize ∧ s.withBufByte i go = .fault (.noSuchBufByte i)) := by
  by_cases hi : i < Config.bufSize
  · cases hb : s.buf.readByte i with
    | none => exact .inr (.inl ⟨hi, rfl, State.withBufByte_of_unwritten go hi hb⟩)
    | some b => exact .inl ⟨b, hi, rfl, State.withBufByte_of_read go hi hb⟩
  · exact .inr (.inr ⟨hi, State.withBufByte_of_no_byte go hi⟩)

/-- If reading BUF[i] goes on to a next state, the byte was there. -/
theorem State.withBufByte_next {s t : State} {i : Nat} {go : Byte → Result} (h : s.withBufByte i go = .next t) :
    ∃ b, i < Config.bufSize ∧ s.buf.readByte i = some b ∧ go b = .next t := by
  rcases s.withBufByte_cases i go with ⟨b, hi, hb, he⟩ | ⟨-, -, he⟩ | ⟨-, he⟩
  · exact ⟨b, hi, hb, he ▸ h⟩
  · rw [he] at h; cases h
  · rw [he] at h; cases h

theorem State.storeBufByte_of_lt (s : State) {i : Nat} (v : Byte) (go : State → Result) (hi : i < Config.bufSize) :
    s.storeBufByte i v go = go (s.writeBuf i v) := by
  simp [State.storeBufByte, hi]

/-- If storing BUF[i] goes on to a next state, the index is one of BUF's. -/
theorem State.storeBufByte_next {s t : State} {i : Nat} {v : Byte} {go : State → Result}
    (h : s.storeBufByte i v go = .next t) :
    i < Config.bufSize ∧ go (s.writeBuf i v) = .next t := by
  unfold State.storeBufByte at h
  split_ifs at h with hi
  exact ⟨hi, h⟩

/-- A write while idle has its own effect. -/
theorem State.hostWrite_idle {s : State} (go : State → Result) (h : s.busy = false) : s.hostWrite go = go s := by
  simp [State.hostWrite, h]

/-- A write while busy is dropped with OVR (70_reset_and_hazards.md R127). -/
theorem State.hostWrite_busy {s : State} (go : State → Result) (h : s.busy = true) :
    s.hostWrite go = .next s.overrun := by
  simp [State.hostWrite, h]

/-- All that a host write can do. -/
theorem State.hostWrite_next {s t : State} {go : State → Result} (h : s.hostWrite go = .next t) :
    (s.busy = true ∧ t = s.overrun) ∨ (s.busy = false ∧ go s = .next t) := by
  cases hb : s.busy with
  | true => rw [State.hostWrite_busy go hb] at h; cases h; exact .inl ⟨rfl, rfl⟩
  | false => exact .inr ⟨rfl, by rwa [State.hostWrite_idle go hb] at h⟩

/-- Where BUF[0] is written, an operation over BUF starts with it (10_state.md R34). -/
theorem State.startOverBuf_of_read {s : State} {b : Byte} (o : SeqOp) (n : Len) (hb : s.buf.readByte 0 = some b) :
    s.startOverBuf o n = .next (s.loadCrc.startFeed o n b) :=
  State.withBufByte_of_read _ (by decide) hb

/-- If an operation over BUF starts, BUF[0] was written. -/
theorem State.startOverBuf_next {s t : State} {o : SeqOp} {n : Len} (h : s.startOverBuf o n = .next t) :
    ∃ b, s.buf.readByte 0 = some b ∧ t = s.loadCrc.startFeed o n b := by
  obtain ⟨b, -, hb, h⟩ := State.withBufByte_next h
  cases h
  exact ⟨b, hb, rfl⟩

end Sys2Proof.Machine
end

