-- ==== Sys2Proof/Laws/PerInstr.lean ====
section
/-! SUPPORT. The per-instruction families of LAWS.json. -/

namespace Sys2Proof.Laws.WriteBit

/-- Bit 18 of an operation's word is 1 exactly for the writes (30_encoding.md R53, R55). -/
def Statement (i : Instr) : Prop := fieldW (encode i) = i.isWrite

theorem write_bit (a : Addr) (d : Byte) : fieldW (encodeWrite a d) = true := by
  simp only [fieldW, encodeWrite, BitVec.getLsbD_append]
  simp

theorem read_bit (a : Addr) : fieldW (encodeRead a) = false := by
  simp only [fieldW, encodeRead, BitVec.getLsbD_append]
  simp

theorem rd (a : Addr) : Statement (.rd a) := read_bit a
theorem nop : Statement .nop := write_bit _ _
theorem crcInit : Statement .crcInit := write_bit _ _
theorem crcBuf : Statement .crcBuf := write_bit _ _
theorem crcMatch : Statement .crcMatch := write_bit _ _
theorem build : Statement .build := write_bit _ _
theorem parse : Statement .parse := write_bit _ _
theorem cmdIllegal (c : Byte) : Statement (.cmdIllegal c) := write_bit _ _
theorem wrRo (a : Addr) (v : Byte) : Statement (.wrRo a v) := write_bit _ _
theorem wrLenLo (v : Byte) : Statement (.wrLenLo v) := write_bit _ _
theorem wrLenHi (v : Byte) : Statement (.wrLenHi v) := write_bit _ _
theorem wrExpAddr (v : Byte) : Statement (.wrExpAddr v) := write_bit _ _
theorem crcFeed (v : Byte) : Statement (.crcFeed v) := write_bit _ _
theorem wrCandLo (v : Byte) : Statement (.wrCandLo v) := write_bit _ _
theorem wrCandHi (v : Byte) : Statement (.wrCandHi v) := write_bit _ _
theorem wrBuf (a : Addr) (v : Byte) : Statement (.wrBuf a v) := write_bit _ _
theorem wrRsvd (a : Addr) (v : Byte) : Statement (.wrRsvd a v) := write_bit _ _

end Sys2Proof.Laws.WriteBit
end

