-- ==== Sys2Proof/Laws/Sequencer.lean ====
section
/-! SUPPORT. What one micro-step of the sequencer can do (10_state.md R32, R33). -/

namespace Sys2Proof.Machine

/-- All that a feed micro-step can do: the next bit, the next byte, or the last bit of the last byte. -/
theorem State.feedStep_next {s t : State} (h : s.feedStep = .next t) :
    (s.k ≠ 7#3 ∧ t = s.feedBit) ∨
    (s.k = 7#3 ∧ s.idx + 1#9 = s.endi ∧ t = s.feedLastBit) ∨
    (s.k = 7#3 ∧ s.idx + 1#9 ≠ s.endi ∧ ∃ b, (s.idx + 1#9).toNat < Config.bufSize ∧
      s.buf.readByte (s.idx + 1#9).toNat = some b ∧
      t = s.feedNextByte b) := by
  unfold State.feedStep at h
  split_ifs at h with hk he
  · cases h
    exact .inr (.inl ⟨hk, he, rfl⟩)
  · obtain ⟨b, hi, hb, h⟩ := State.withBufByte_next h
    cases h
    exact .inr (.inr ⟨hk, he, b, hi, hb, rfl⟩)
  · cases h
    exact .inl ⟨hk, rfl⟩

/-- All that BUILD's finish action can do. -/
theorem State.finishBuild_next {s t : State} (h : s.finishBuild = .next t) :
    s.len.toNat + 1 < Config.bufSize ∧
    t = (((s.writeBuf s.len.toNat (crcLo s.crc)).writeBuf (s.len.toNat + 1) (crcHi s.crc)).setLen
      (s.len + 2#9)).settle := by
  obtain ⟨-, h⟩ := State.storeBufByte_next h
  obtain ⟨hi, h⟩ := State.storeBufByte_next h
  cases h
  exact ⟨hi, rfl⟩

/-- All that PARSE's success can do. -/
theorem State.parseSuccess_next {s t : State} (h : s.parseSuccess = .next t) :
    (s.len = 4#9 ∧ ∃ p, s.buf.readByte 1 = some p ∧
      t = (s.parseOk (sentFlag s.len p)).settle) ∨
    (s.len ≠ 4#9 ∧ t = (s.parseOk false).settle) := by
  unfold State.parseSuccess at h
  split_ifs at h with hl
  · obtain ⟨p, -, hp, h⟩ := State.withBufByte_next h
    cases h
    exact .inl ⟨hl, p, hp, rfl⟩
  · cases h
    exact .inr ⟨hl, rfl⟩

/-- All that PARSE's finish action can do: WrongCrc, WrongAddress, or success, by the trailer and BUF[0]. -/
theorem State.finishParse_next {s t : State} (h : s.finishParse = .next t) :
    ∃ lo hi, s.buf.readByte s.trailerLoIndex = some lo ∧ s.buf.readByte s.trailerHiIndex = some hi ∧
      (((lo, hi) ≠ crcBytes s.crc ∧ t = (s.parseError false .wrongCrc).settle) ∨
       ((lo, hi) = crcBytes s.crc ∧ ∃ a, s.buf.readByte 0 = some a ∧
         ((a ≠ s.expAddr ∧ t = (s.parseError true .wrongAddress).settle) ∨
          (a = s.expAddr ∧ s.parseSuccess = .next t)))) := by
  obtain ⟨lo, -, hlo, h⟩ := State.withBufByte_next h
  obtain ⟨hi, -, hhi, h⟩ := State.withBufByte_next h
  refine ⟨lo, hi, hlo, hhi, ?_⟩
  split_ifs at h with hm
  · obtain ⟨a, -, ha, h⟩ := State.withBufByte_next h
    refine .inr ⟨(crcMatches_iff _ _).1 hm, a, ha, ?_⟩
    split_ifs at h with he
    · exact .inr ⟨he, h⟩
    · cases h
      exact .inl ⟨he, rfl⟩
  · cases h
    exact .inl ⟨fun hx => hm ((crcMatches_iff _ _).2 hx), rfl⟩

/-- The sequencer's step by phase and operation. -/
theorem State.sequencerStep_next {s t : State} (h : s.sequencerStep = .next t) :
    (s.phase = .idle ∧ t = s) ∨ (s.phase = .feed ∧ s.feedStep = .next t) ∨
    (s.phase = .finish ∧ (s.op = .feedOp ∨ s.op = .crcBuf) ∧ t = s.settle) ∨
    (s.phase = .finish ∧ s.op = .build ∧ s.finishBuild = .next t) ∨
    (s.phase = .finish ∧ s.op = .parse ∧ s.finishParse = .next t) := by
  unfold State.sequencerStep at h
  split at h
  · cases h; exact .inl ⟨‹_›, rfl⟩
  · exact .inr (.inl ⟨‹_›, h⟩)
  · unfold State.finishStep at h
    split at h
    · cases h; exact .inr (.inr (.inl ⟨‹_›, .inl ‹_›, rfl⟩))
    · cases h; exact .inr (.inr (.inl ⟨‹_›, .inr ‹_›, rfl⟩))
    · exact .inr (.inr (.inr (.inl ⟨‹_›, ‹_›, h⟩)))
    · exact .inr (.inr (.inr (.inr ⟨‹_›, ‹_›, h⟩)))

/-- Reading a byte of BUF looks at BUF alone. -/
theorem State.withBufByte_congr {s u : State} (f : Result → Result) (i : Nat) {go go' : Byte → Result}
    (hb : u.buf = s.buf) (hf : ∀ e, f (.fault e) = .fault e) (h : ∀ b, go' b = f (go b)) :
    u.withBufByte i go' = f (s.withBufByte i go) := by
  unfold State.withBufByte
  rw [show u.readBuf i = s.readBuf i from by unfold State.readBuf; rw [hb]]
  split
  · exact h _
  · exact (hf _).symm

/-- The host's side of the state, and OVR: what the sequencer neither reads nor writes (10_state.md R32, R33, R35). -/
def State.setHostSide (s : State) (o : Bool) (p : List HostOp) (l : List Agent) (r : List Byte) (d : Nat) : State :=
  { s with ovr := o, pending := p, sched := l, results := r, draws := d }

/-- A micro-step goes the same way whatever the host's side and OVR are, and leaves them. -/
theorem State.sequencerStep_setHostSide (s : State) (o : Bool) (p : List HostOp) (l : List Agent) (r : List Byte)
    (d : Nat) :
    (s.setHostSide o p l r d).sequencerStep =
      match s.sequencerStep with
      | .next t => .next (t.setHostSide o p l r d)
      | .fault e => .fault e
      | .refused e => .refused e := by
  let f : Result → Result := fun x =>
    match x with
    | .next t => .next (t.setHostSide o p l r d)
    | .fault e => .fault e
    | .refused e => .refused e
  have read : ∀ (i : Nat) {go go' : Byte → Result}, (∀ b, go' b = f (go b)) →
      (s.setHostSide o p l r d).withBufByte i go' = f (s.withBufByte i go) :=
    fun i _ _ h => State.withBufByte_congr f i rfl (fun _ => rfl) h
  change _ = f s.sequencerStep
  unfold State.sequencerStep
  rw [show (s.setHostSide o p l r d).phase = s.phase from rfl]
  cases s.phase with
  | idle => rfl
  | feed =>
    simp only [State.feedStep]
    rw [show (s.setHostSide o p l r d).k = s.k from rfl, show (s.setHostSide o p l r d).idx = s.idx from rfl,
      show (s.setHostSide o p l r d).endi = s.endi from rfl]
    split_ifs
    · rfl
    · exact read _ fun _ => rfl
    · rfl
  | finish =>
    simp only [State.finishStep]
    rw [show (s.setHostSide o p l r d).op = s.op from rfl]
    cases s.op with
    | feedOp => rfl
    | crcBuf => rfl
    | build =>
      simp only [State.finishBuild, State.storeBufByte]
      rw [show (s.setHostSide o p l r d).len = s.len from rfl]
      split_ifs <;> rfl
    | parse =>
      refine read _ fun _ => read _ fun _ => ?_
      rw [show (s.setHostSide o p l r d).computed = s.computed from rfl]
      split_ifs
      · refine read _ fun _ => ?_
        rw [show (s.setHostSide o p l r d).expAddr = s.expAddr from rfl]
        split_ifs
        · simp only [State.parseSuccess]
          rw [show (s.setHostSide o p l r d).len = s.len from rfl]
          split_ifs
          · exact read _ fun _ => rfl
          · rfl
        · rfl
      · rfl

/-- A finish micro-step that completes leaves the block idle with DONE set (10_state.md R33). -/
theorem State.finish_next {s t : State} (hp : s.phase = .finish) (h : s.sequencerStep = .next t) :
    t.phase = .idle ∧ t.done = true := by
  rcases State.sequencerStep_next h with ⟨hx, -⟩ | ⟨hx, -⟩ | ⟨-, -, rfl⟩ | ⟨-, -, h⟩ | ⟨-, -, h⟩
  · rw [hp] at hx; cases hx
  · rw [hp] at hx; cases hx
  · exact ⟨rfl, rfl⟩
  · obtain ⟨-, rfl⟩ := State.finishBuild_next h
    exact ⟨rfl, rfl⟩
  · obtain ⟨-, -, -, -, ⟨-, rfl⟩ | ⟨-, -, -, ⟨-, rfl⟩ | ⟨-, h⟩⟩⟩ := State.finishParse_next h
    · exact ⟨rfl, rfl⟩
    · exact ⟨rfl, rfl⟩
    · rcases State.parseSuccess_next h with ⟨-, -, -, rfl⟩ | ⟨-, rfl⟩ <;> exact ⟨rfl, rfl⟩

end Sys2Proof.Machine
end

