-- ==== Sys2Proof/Laws/Step.lean ====
section
/-! SUPPORT. One step is one turn; runs compose; no arm of exec refuses; reads and writes by what they can do. -/

namespace Sys2Proof.Machine

@[simp] theorem run_zero (s : State) : run 0 s = .next s := rfl

theorem run_succ (n : Nat) (s : State) :
    run (n + 1) s =
      match step s with
      | .next t => run n t
      | .fault e => .fault e
      | .refused e => .refused e := rfl

/-- The runs claims speak of are the host's runs of the machine. -/
theorem run_eq_core_run (n : Nat) (s : State) : run n s = Host.Core.run Sys2Proof.core n s := by
  induction n generalizing s with
  | zero => rfl
  | succ n ih =>
    have hc : Sys2Proof.core.step s = step s := rfl
    simp only [run, Host.Core.run, hc]
    cases step s with
    | next t => exact ih t
    | fault e => rfl
    | refused e => rfl

theorem run_succ_of_next {s t : State} (n : Nat) (h : step s = .next t) : run (n + 1) s = run n t := by
  rw [run_succ, h]

theorem run_succ_of_fault {s : State} {e : Fault} (n : Nat) (h : step s = .fault e) : run (n + 1) s = .fault e := by
  rw [run_succ, h]

theorem run_one (s : State) : run 1 s = step s := by
  rw [run_succ]
  cases step s <;> rfl

theorem run_add_of_next {s t : State} {m : Nat} (n : Nat) (h : run m s = .next t) : run (m + n) s = run n t := by
  induction m generalizing s with
  | zero => cases h; simp
  | succ m ih =>
    rw [run_succ] at h
    rw [Nat.add_right_comm, run_succ]
    cases hs : step s with
    | next u => rw [hs] at h; exact ih h
    | fault e => rw [hs] at h; cases h
    | refused e => rw [hs] at h; cases h

theorem State.nextAgent_cons {s : State} {a : Agent} {r : List Agent} (h : s.sched = a :: r) : s.nextAgent = a := by
  simp [State.nextAgent, h]

theorem State.nextAgent_nil {s : State} (h : s.sched = []) :
    s.nextAgent = if s.busy then .sequencer else .host := by
  simp [State.nextAgent, h]

theorem step_of_sched {s : State} {a : Agent} {r : List Agent} (h : s.sched = a :: r) :
    step s = turn a (s.setSched r) := by
  simp [step, State.nextAgent_cons h, State.popSched, h]

theorem State.setSched_self (s : State) : s.setSched s.sched = s := rfl

theorem State.setPending_self (s : State) : s.setPending s.pending = s := rfl

theorem step_of_no_sched {s : State} (h : s.sched = []) :
    step s = turn (if s.busy then .sequencer else .host) s := by
  have hp : s.popSched = s := by
    rw [State.popSched, h]
    exact (congrArg s.setSched h.symm).trans s.setSched_self
  simp [step, State.nextAgent_nil h, hp]

/-- The host's turn with a transaction to perform. -/
theorem hostTurn_txn {s : State} {w : Txn} {rest : List HostOp} (h : s.pending = .txn w :: rest) :
    hostTurn s = exec (decode w) (s.setPending rest) := by
  simp [hostTurn, State.fetch, State.popHost, h]

/-- The host's turn with nothing to perform. -/
theorem hostTurn_nil {s : State} (h : s.pending = []) : hostTurn s = .next s := by
  simp [hostTurn, State.fetch, h]

/-- A read of STATUS returns it, idle or busy (42_host_access.md R96). -/
theorem execRd_status (s : State) : exec (.rd 0x001#10) s = .next (s.returnByte s.statusByte) := by
  simp only [exec, execRd]
  split_ifs
  · rfl
  · rfl

/-- A poll while busy stays at the head. -/
theorem hostTurn_poll_busy {s : State} {rest : List HostOp} (h : s.pending = .poll :: rest) (hb : s.busy = true) :
    hostTurn s = .next (s.returnByte s.statusByte) := by
  simp [hostTurn, State.fetch, State.popHost, h, hb, execRd_status]

/-- A poll while idle is over. -/
theorem hostTurn_poll_idle {s : State} {rest : List HostOp} (h : s.pending = .poll :: rest) (hb : s.busy = false) :
    hostTurn s = .next ((s.setPending rest).returnByte s.statusByte) := by
  simp [hostTurn, State.fetch, State.popHost, h, hb, execRd_status]
  rfl

/-- An idle read changes only the list of results. -/
theorem State.readIdle_next {s t : State} {a : Addr} (h : s.readIdle a = .next t) : ∃ b, t = s.returnByte b := by
  unfold State.readIdle at h
  split_ifs at h
  · obtain ⟨b, -, -, h⟩ := State.withBufByte_next h
    cases h
    exact ⟨b, rfl⟩
  · cases h
    exact ⟨_, rfl⟩

/-- A read changes only the results and the draws taken (20_memory.md R45). -/
theorem execRd_next {s t : State} {a : Addr} (h : execRd a s = .next t) :
    (∃ b, t = s.returnByte b) ∨ (s.busy = true ∧ t = s.returnDraw) := by
  unfold execRd at h
  split_ifs at h with hb
  · unfold State.readBusy at h
    split_ifs at h
    · cases h; exact .inl ⟨_, rfl⟩
    · cases h; exact .inr ⟨hb, rfl⟩
  · exact .inl (State.readIdle_next h)

/-- Taking the host's next step off touches nothing but what the host has left to do. -/
theorem State.popHost_eq (s : State) : s.popHost = s ∨ ∃ l, s.popHost = s.setPending l := by
  unfold State.popHost
  split
  · exact .inl rfl
  · exact .inr ⟨_, rfl⟩
  · split_ifs
    · exact .inl rfl
    · exact .inr ⟨_, rfl⟩

@[simp] theorem State.popHost_cmdr (s : State) : s.popHost.cmdr = s.cmdr :=
  s.popHost_eq.elim (congrArg State.cmdr) fun ⟨_, h⟩ => (congrArg State.cmdr h :)

@[simp] theorem State.popHost_done (s : State) : s.popHost.done = s.done :=
  s.popHost_eq.elim (congrArg State.done) fun ⟨_, h⟩ => (congrArg State.done h :)

@[simp] theorem State.popHost_err (s : State) : s.popHost.err = s.err :=
  s.popHost_eq.elim (congrArg State.err) fun ⟨_, h⟩ => (congrArg State.err h :)

@[simp] theorem State.popHost_matched (s : State) : s.popHost.matched = s.matched :=
  s.popHost_eq.elim (congrArg State.matched) fun ⟨_, h⟩ => (congrArg State.matched h :)

@[simp] theorem State.popHost_sent (s : State) : s.popHost.sent = s.sent :=
  s.popHost_eq.elim (congrArg State.sent) fun ⟨_, h⟩ => (congrArg State.sent h :)

@[simp] theorem State.popHost_cmderr (s : State) : s.popHost.cmderr = s.cmderr :=
  s.popHost_eq.elim (congrArg State.cmderr) fun ⟨_, h⟩ => (congrArg State.cmderr h :)

@[simp] theorem State.popHost_ovr (s : State) : s.popHost.ovr = s.ovr :=
  s.popHost_eq.elim (congrArg State.ovr) fun ⟨_, h⟩ => (congrArg State.ovr h :)

@[simp] theorem State.popHost_len (s : State) : s.popHost.len = s.len :=
  s.popHost_eq.elim (congrArg State.len) fun ⟨_, h⟩ => (congrArg State.len h :)

@[simp] theorem State.popHost_expAddr (s : State) : s.popHost.expAddr = s.expAddr :=
  s.popHost_eq.elim (congrArg State.expAddr) fun ⟨_, h⟩ => (congrArg State.expAddr h :)

@[simp] theorem State.popHost_crc (s : State) : s.popHost.crc = s.crc :=
  s.popHost_eq.elim (congrArg State.crc) fun ⟨_, h⟩ => (congrArg State.crc h :)

@[simp] theorem State.popHost_plen (s : State) : s.popHost.plen = s.plen :=
  s.popHost_eq.elim (congrArg State.plen) fun ⟨_, h⟩ => (congrArg State.plen h :)

@[simp] theorem State.popHost_candLo (s : State) : s.popHost.candLo = s.candLo :=
  s.popHost_eq.elim (congrArg State.candLo) fun ⟨_, h⟩ => (congrArg State.candLo h :)

@[simp] theorem State.popHost_candHi (s : State) : s.popHost.candHi = s.candHi :=
  s.popHost_eq.elim (congrArg State.candHi) fun ⟨_, h⟩ => (congrArg State.candHi h :)

@[simp] theorem State.popHost_buf (s : State) : s.popHost.buf = s.buf :=
  s.popHost_eq.elim (congrArg State.buf) fun ⟨_, h⟩ => (congrArg State.buf h :)

@[simp] theorem State.popHost_phase (s : State) : s.popHost.phase = s.phase :=
  s.popHost_eq.elim (congrArg State.phase) fun ⟨_, h⟩ => (congrArg State.phase h :)

@[simp] theorem State.popHost_op (s : State) : s.popHost.op = s.op :=
  s.popHost_eq.elim (congrArg State.op) fun ⟨_, h⟩ => (congrArg State.op h :)

@[simp] theorem State.popHost_idx (s : State) : s.popHost.idx = s.idx :=
  s.popHost_eq.elim (congrArg State.idx) fun ⟨_, h⟩ => (congrArg State.idx h :)

@[simp] theorem State.popHost_endi (s : State) : s.popHost.endi = s.endi :=
  s.popHost_eq.elim (congrArg State.endi) fun ⟨_, h⟩ => (congrArg State.endi h :)

@[simp] theorem State.popHost_k (s : State) : s.popHost.k = s.k :=
  s.popHost_eq.elim (congrArg State.k) fun ⟨_, h⟩ => (congrArg State.k h :)

@[simp] theorem State.popHost_sreg (s : State) : s.popHost.sreg = s.sreg :=
  s.popHost_eq.elim (congrArg State.sreg) fun ⟨_, h⟩ => (congrArg State.sreg h :)

@[simp] theorem State.popHost_sched (s : State) : s.popHost.sched = s.sched :=
  s.popHost_eq.elim (congrArg State.sched) fun ⟨_, h⟩ => (congrArg State.sched h :)

@[simp] theorem State.popHost_results (s : State) : s.popHost.results = s.results :=
  s.popHost_eq.elim (congrArg State.results) fun ⟨_, h⟩ => (congrArg State.results h :)

@[simp] theorem State.popHost_draws (s : State) : s.popHost.draws = s.draws :=
  s.popHost_eq.elim (congrArg State.draws) fun ⟨_, h⟩ => (congrArg State.draws h :)

@[simp] theorem State.popHost_busy (s : State) : s.popHost.busy = s.busy :=
  s.popHost_eq.elim (congrArg State.busy) fun ⟨_, h⟩ => (congrArg State.busy h :)

/-- All that one step can do: a reset event, a sequencer step, or a host turn with nothing or one instruction to
perform. -/
theorem step_next {s t : State} (h : step s = .next t) :
    (s.nextAgent = .reset ∧ t = s.popSched.resetEvent) ∨
    (s.nextAgent = .sequencer ∧ s.popSched.sequencerStep = .next t) ∨
    (s.nextAgent = .host ∧ s.fetch = none ∧ t = s.popSched) ∨
    (s.nextAgent = .host ∧ ∃ i, s.fetch = some i ∧ exec i s.popSched.popHost = .next t) := by
  unfold step turn at h
  split at h
  · unfold hostTurn at h
    rw [show s.popSched.fetch = s.fetch from rfl] at h
    split at h
    · exact .inr (.inr (.inr ⟨‹_›, _, ‹_›, h⟩))
    · cases h; exact .inr (.inr (.inl ⟨‹_›, ‹_›, rfl⟩))
  · exact .inr (.inl ⟨‹_›, h⟩)
  · cases h; exact .inl ⟨‹_›, rfl⟩

/-- What `feedProgress` says (10_state.md R28, R32). -/
theorem State.feedProgress_iff (s : State) :
    s.feedProgress = true ↔ ∃ f b, s.buf.slice 0 s.idx.toNat = some f ∧ s.buf.readByte s.idx.toNat = some b ∧
      s.crc = crcBits (crc16 f) b s.k.toNat ∧ s.sreg = b >>> s.k.toNat := by
  unfold State.feedProgress
  cases s.buf.slice 0 s.idx.toNat <;> cases s.buf.readByte s.idx.toNat <;> simp

/-- What `finishProgress` says (10_state.md R32). -/
theorem State.finishProgress_iff (s : State) :
    s.finishProgress = true ↔ ∃ f, s.buf.slice 0 s.endi.toNat = some f ∧ s.crc = crc16 f := by
  unfold State.finishProgress
  cases s.buf.slice 0 s.endi.toNat <;> simp

/-- Every write goes through the busy-write rule (70_reset_and_hazards.md R127): its own effect is `go`. -/
theorem exec_write_form (i : Instr) (h : i.isWrite = true) : ∃ go, ∀ s, exec i s = State.hostWrite s go := by
  cases i <;> first | exact ⟨_, fun _ => rfl⟩ | simp [Instr.isWrite] at h

/-- What a host transaction does to a state it completes in while the block is idle and it starts or ends an operation
or writes: one case for each effect of 40_crc.md, 41_frame.md and 42_host_access.md. -/
inductive IdleEffect (s : State) : State → Prop
  | ignored : IdleEffect s s
  | read (b : Byte) : IdleEffect s (s.returnByte b)
  | nop : IdleEffect s (s.acceptCmd 0x00#8).complete
  | rejected (c : Byte) : IdleEffect s (s.acceptCmd c).commandError
  | crcInit : IdleEffect s (s.acceptCmd 0x01#8).loadCrc.complete
  | crcBufEmpty (hl : s.len = 0#9) : IdleEffect s (s.acceptCmd 0x02#8).loadCrc.complete
  | crcMatch : IdleEffect s ((s.acceptCmd 0x03#8).setMatch s.matchFlag).complete
  | wrongLength (hl : s.parseInRange = false) :
      IdleEffect s ((s.acceptCmd 0x05#8).parseError false .wrongLength).complete
  | feedStarted (v : Byte) : IdleEffect s (s.acceptData.startFeed .feedOp 1#9 v)
  | crcBufStarted (b : Byte) (hl : s.crcBufInRange = true) (h0 : s.len ≠ 0#9) (hb : s.buf.readByte 0 = some b) :
      IdleEffect s ((s.acceptCmd 0x02#8).loadCrc.startFeed .crcBuf s.len b)
  | buildStarted (b : Byte) (hl : s.buildInRange = true) (hb : s.buf.readByte 0 = some b) :
      IdleEffect s ((s.acceptCmd 0x04#8).loadCrc.startFeed .build s.len b)
  | parseStarted (b : Byte) (hl : s.parseInRange = true) (hb : s.buf.readByte 0 = some b) :
      IdleEffect s ((s.acceptCmd 0x05#8).loadCrc.startFeed .parse (s.len - 2#9) b)
  | lenWritten (n : Len) : IdleEffect s (s.setLen n)
  | expAddrWritten (v : Byte) : IdleEffect s (s.setExpAddr v)
  | candLoWritten (v : Byte) : IdleEffect s (s.setCandLo v)
  | candHiWritten (v : Byte) : IdleEffect s (s.setCandHi v)
  | bufWritten (j : Nat) (v : Byte) (hj : j < Config.bufSize) : IdleEffect s (s.writeBuf j v)

/-- What a host transaction does while busy (70_reset_and_hazards.md R127, R128). -/
inductive BusyEffect (s : State) : State → Prop
  | read (b : Byte) : BusyEffect s (s.returnByte b)
  | draw : BusyEffect s s.returnDraw
  | dropped : BusyEffect s s.overrun

theorem execRd_effect {s t : State} {a : Addr} (h : execRd a s = .next t) :
    (s.busy = true ∧ BusyEffect s t) ∨ (s.busy = false ∧ IdleEffect s t) := by
  cases hb : s.busy with
  | true =>
    rcases execRd_next h with ⟨b, rfl⟩ | ⟨-, rfl⟩
    · exact .inl ⟨rfl, .read b⟩
    · exact .inl ⟨rfl, .draw⟩
  | false =>
    rcases execRd_next h with ⟨b, rfl⟩ | ⟨hx, -⟩
    · exact .inr ⟨rfl, .read b⟩
    · rw [hb] at hx; cases hx

theorem hostWrite_effect {s t : State} {go : State → Result} (h : s.hostWrite go = .next t)
    (hgo : ∀ u, go s = .next u → IdleEffect s u) :
    (s.busy = true ∧ BusyEffect s t) ∨ (s.busy = false ∧ IdleEffect s t) := by
  rcases State.hostWrite_next h with ⟨hb, rfl⟩ | ⟨hb, h⟩
  · exact .inl ⟨hb, .dropped⟩
  · exact .inr ⟨hb, hgo _ h⟩

/-- All that a host transaction can do: while busy a read or a dropped write, while idle one of the idle effects. -/
theorem exec_effect {i : Instr} {s t : State} (h : exec i s = .next t) :
    (s.busy = true ∧ BusyEffect s t) ∨ (s.busy = false ∧ IdleEffect s t) := by
  cases i with
  | rd a => exact execRd_effect h
  | nop =>
    simp only [exec, execNop] at h
    exact hostWrite_effect h fun u hu => by cases hu; exact .nop
  | crcInit =>
    simp only [exec, execCrcInit] at h
    exact hostWrite_effect h fun u hu => by cases hu; exact .crcInit
  | crcBuf =>
    simp only [exec, execCrcBuf] at h
    refine hostWrite_effect h fun u hu => ?_
    split_ifs at hu with hr hz
    · cases hu; exact .crcBufEmpty hz
    · obtain ⟨b, hb, rfl⟩ := State.startOverBuf_next hu
      exact .crcBufStarted b hr hz hb
    · cases hu; exact .rejected _
  | crcMatch =>
    simp only [exec, execCrcMatch] at h
    exact hostWrite_effect h fun u hu => by cases hu; exact .crcMatch
  | build =>
    simp only [exec, execBuild] at h
    refine hostWrite_effect h fun u hu => ?_
    split_ifs at hu with hr
    · obtain ⟨b, hb, rfl⟩ := State.startOverBuf_next hu
      exact .buildStarted b hr hb
    · cases hu; exact .rejected _
  | parse =>
    simp only [exec, execParse] at h
    refine hostWrite_effect h fun u hu => ?_
    split_ifs at hu with hr
    · obtain ⟨b, hb, rfl⟩ := State.startOverBuf_next hu
      exact .parseStarted b hr hb
    · cases hu; exact .wrongLength (by simpa using hr)
  | cmdIllegal c =>
    simp only [exec, execCmdIllegal] at h
    exact hostWrite_effect h fun u hu => by cases hu; exact .rejected c
  | wrRo a v =>
    simp only [exec, execWrRo] at h
    exact hostWrite_effect h fun u hu => by cases hu; exact .ignored
  | wrLenLo v =>
    simp only [exec, execWrLenLo] at h
    exact hostWrite_effect h fun u hu => by cases hu; exact .lenWritten _
  | wrLenHi v =>
    simp only [exec, execWrLenHi] at h
    exact hostWrite_effect h fun u hu => by cases hu; exact .lenWritten _
  | wrExpAddr v =>
    simp only [exec, execWrExpAddr] at h
    exact hostWrite_effect h fun u hu => by cases hu; exact .expAddrWritten v
  | crcFeed v =>
    simp only [exec, execCrcFeed] at h
    exact hostWrite_effect h fun u hu => by cases hu; exact .feedStarted v
  | wrCandLo v =>
    simp only [exec, execWrCandLo] at h
    exact hostWrite_effect h fun u hu => by cases hu; exact .candLoWritten v
  | wrCandHi v =>
    simp only [exec, execWrCandHi] at h
    exact hostWrite_effect h fun u hu => by cases hu; exact .candHiWritten v
  | wrBuf a v =>
    simp only [exec, execWrBuf] at h
    refine hostWrite_effect h fun u hu => ?_
    obtain ⟨hj, hu⟩ := State.storeBufByte_next hu
    cases hu
    exact .bufWritten _ v hj
  | wrRsvd a v =>
    simp only [exec, execWrRsvd] at h
    exact hostWrite_effect h fun u hu => by cases hu; exact .ignored

end Sys2Proof.Machine
end

