-- ==== Sys2Proof/Tests/Slice0.lean ====
section
/-! SUPPORT. The model's own tests: expected values are written out from spec/ (the encodings of 30_encoding.md, the
vectors of 95_test_vectors.md), never taken from the model. Then, for each statement of the obligations that has
hypotheses, a witness that meets them (`witness_<statement>`). -/

namespace Sys2Proof.Tests

open Sys2Proof.Machine

/-- The bytes of BUF from index `i` on. -/
def cells (i : Nat) : List Byte → Memory
  | [] => []
  | b :: bs => (i, b) :: cells (i + 1) bs

/-- Right after reset but for BUF[0..] = `bs` and LEN = |bs|. -/
def loaded (bs : List Byte) : State := { State.reset with buf := cells 0 bs, len := BitVec.ofNat 9 bs.length }

/-- Right after reset but for LEN = `n` and BUF[0] = 0x2A. -/
def oneByte (n : Len) : State := { State.reset with buf := [(0, 0x2A#8)], len := n }

/-- A field of the next state, if there is one. -/
def after {α : Type} (f : State → α) : Result → Option α
  | .next s => some (f s)
  | .fault _ => none
  | .refused _ => none

/-- The fault a step stops with, if it does. -/
def faultOf : Result → Option Fault
  | .next _ => none
  | .fault e => some e
  | .refused _ => none

/-! ## Well-formedness: an ill-formed term for each check -/

theorem test_cmdIllegal_refuses_legal_code :
    (Instr.cmdIllegal 0x05#8).wellFormed = false ∧ (Instr.cmdIllegal 0x06#8).wellFormed = true := by decide

theorem test_wrRo_refuses_writable_address :
    (Instr.wrRo 0x002#10 0#8).wellFormed = false ∧ (Instr.wrRo 0x008#10 0#8).wellFormed = true := by decide

theorem test_wrBuf_refuses_outside_window :
    (Instr.wrBuf 0x0FF#10 0#8).wellFormed = false ∧ (Instr.wrBuf 0x202#10 0#8).wellFormed = false ∧
    (Instr.wrBuf 0x100#10 0#8).wellFormed = true ∧ (Instr.wrBuf 0x201#10 0#8).wellFormed = true := by decide

theorem test_wrRsvd_refuses_mapped_address :
    (Instr.wrRsvd 0x00A#10 0#8).wellFormed = false ∧ (Instr.wrRsvd 0x100#10 0#8).wellFormed = false ∧
    (Instr.wrRsvd 0x201#10 0#8).wellFormed = false ∧ (Instr.wrRsvd 0x00B#10 0#8).wellFormed = true := by decide

/-! ## Decoding: words written out bit by bit from 30_encoding.md R53 (W, A, D) and R55 -/

theorem test_decode_rd : decode 0b0000000000100000000#19 = .rd 0x001#10 := by decide
theorem test_decode_rd_ignores_d : decode 0b0010000001011111111#19 = .rd 0x102#10 := by decide
theorem test_decode_nop : decode 0b1000000000000000000#19 = .nop := by decide
theorem test_decode_crcInit : decode 0b1000000000000000001#19 = .crcInit := by decide
theorem test_decode_crcBuf : decode 0b1000000000000000010#19 = .crcBuf := by decide
theorem test_decode_crcMatch : decode 0b1000000000000000011#19 = .crcMatch := by decide
theorem test_decode_build : decode 0b1000000000000000100#19 = .build := by decide
theorem test_decode_parse : decode 0b1000000000000000101#19 = .parse := by decide
theorem test_decode_cmdIllegal : decode 0b1000000000000000110#19 = .cmdIllegal 0x06#8 := by decide
theorem test_decode_wrRo : decode 0b1000000011000000000#19 = .wrRo 0x006#10 0x00#8 := by decide
theorem test_decode_wrLenLo : decode 0b1000000001000000011#19 = .wrLenLo 0x03#8 := by decide
theorem test_decode_wrLenHi : decode 0b1000000001100000001#19 = .wrLenHi 0x01#8 := by decide
theorem test_decode_wrExpAddr : decode 0b1000000010000101010#19 = .wrExpAddr 0x2A#8 := by decide
theorem test_decode_crcFeed : decode 0b1000000011100110001#19 = .crcFeed 0x31#8 := by decide
theorem test_decode_wrCandLo : decode 0b1000000100100110111#19 = .wrCandLo 0x37#8 := by decide
theorem test_decode_wrCandHi : decode 0b1000000101001001011#19 = .wrCandHi 0x4B#8 := by decide
theorem test_decode_wrBuf : decode 0b1010000000000101010#19 = .wrBuf 0x100#10 0x2A#8 := by decide
theorem test_decode_wrBuf_last : decode 0b1100000000101011010#19 = .wrBuf 0x201#10 0x5A#8 := by decide
theorem test_decode_wrRsvd : decode 0b1100000001001011010#19 = .wrRsvd 0x202#10 0x5A#8 := by decide
theorem test_decode_wrRsvd_below : decode 0b1000000101100000000#19 = .wrRsvd 0x00B#10 0x00#8 := by decide

theorem test_decodeTableWord : decodeTableWord 24 0x40005 = some .parse ∧ decodeTableWord 24 0x80000 = none := by decide

/-- P2's first line, `load 0, 0x2A, 0x05, 0xDE, 0xD3`, and `setlen 4` as words (95_test_vectors.md part 3). -/
theorem test_hostProgram :
    hostProgram [.load 0 [0x2A#8, 0x05#8, 0xDE#8, 0xD3#8], .setlen 4#9, .poll] =
      [.txn 0x5002A#19, .txn 0x50105#19, .txn 0x502DE#19, .txn 0x503D3#19, .txn 0x40204#19, .txn 0x40300#19,
       .poll] := by decide

/-! ## The CRC functions: vectors of 95_test_vectors.md -/

/-- V-STEP-1, 2, 4, 8, 10. -/
theorem test_crcStep :
    crcStep 0xFFFF#16 false = 0xDFFE#16 ∧ crcStep 0xFFFF#16 true = 0x7FFF#16 ∧
    crcStep 0x0000#16 true = 0xA001#16 ∧ crcStep 0x8000#16 true = 0xE001#16 ∧
    crcStep 0x4B37#16 true = 0x259B#16 := by decide

/-- V-BYTE-1, 7, 8. -/
theorem test_crcByte :
    crcByte 0xFFFF#16 0x00#8 = 0x40BF#16 ∧ crcByte 0x1234#16 0x34#8 = 0x0012#16 ∧
    crcByte 0x4B37#16 0x37#8 = 0x004B#16 := by decide

/-- V-CRC-1, 9, 11: the trailer's low byte first. -/
theorem test_compute :
    compute [] = (0xFF#8, 0xFF#8) ∧
    compute [0x31#8, 0x32#8, 0x33#8, 0x34#8, 0x35#8, 0x36#8, 0x37#8, 0x38#8, 0x39#8] = (0x37#8, 0x4B#8) ∧
    compute [0x01#8, 0x02#8, 0x03#8, 0x04#8] = (0xA1#8, 0x2B#8) := by decide +kernel

/-- V-BUILD-1, V-BUILD-8. -/
theorem test_buildFrame :
    buildFrame 0x2A#8 0x00#8 [] = [0x2A#8, 0x00#8, 0x1E#8, 0xD0#8] ∧
    buildFrame 0x2A#8 0x08#8 [0x14#8, 0xA0#8] = [0x2A#8, 0x08#8, 0x14#8, 0xA0#8, 0x86#8, 0x86#8] := by decide +kernel

/-- V-PARSE-3, 5, 6, 2: the errors in their order, and the sentinel payload. -/
theorem test_parseFrame :
    parseFrame [0x2A#8, 0x05#8, 0xDE#8, 0xD3#8] 0x2B#8 = .error .wrongAddress ∧
    parseFrame [0x2B#8, 0x00#8, 0x1E#8, 0xD0#8] 0x2A#8 = .error .wrongCrc ∧
    parseFrame [0x2A#8, 0x00#8, 0x1E#8] 0x2A#8 = .error .wrongLength ∧
    parseFrame [0x2A#8, 0x05#8, 0xDE#8, 0xD3#8] 0x2A#8 = .ok [0x05#8] := by decide +kernel

/-! ## One step of each operation -/

/-- V-HOST-1. -/
theorem test_nop :
    after State.statusByte (exec .nop { State.reset with done := true, err := .wrongCrc, ovr := true }) =
      some 0x02#8 := by decide

/-- V-INIT-1. -/
theorem test_crcInit :
    after (fun t => (t.crc, t.statusByte)) (exec .crcInit { State.reset with crc := 0x4B37#16 }) =
      some (0xFFFF#16, 0x02#8) := by decide

/-- 10_state.md R29: an immediate operation's acceptance puts the sequencer position at 0, rejected ones too. -/
theorem test_acceptance_resets_position :
    after (fun t => (t.idx, t.k)) (exec .nop { State.reset with idx := 2#9, k := 3#3 }) = some (0#9, 0#3) ∧
    after (fun t => (t.idx, t.k)) (exec .build { State.reset with idx := 2#9, k := 3#3 }) = some (0#9, 0#3) := by decide

/-- V-BUF-4, V-BUF-1. -/
theorem test_crcBuf_immediate :
    after (fun t => (t.crc, t.statusByte)) (exec .crcBuf { State.reset with crc := 0x4B37#16, len := 259#9 }) =
      some (0x4B37#16, 0x42#8) ∧
    after (fun t => (t.crc, t.statusByte)) (exec .crcBuf { State.reset with crc := 0x4B37#16 }) =
      some (0xFFFF#16, 0x02#8) := by decide

/-- V-BUF-5. -/
theorem test_crcBuf_unwritten :
    faultOf (exec .crcBuf { State.reset with len := 2#9 }) = some (.unwrittenBufRead 0) := by decide

/-- V-MATCH-1, V-MATCH-2. -/
theorem test_crcMatch :
    after State.statusByte
      (exec .crcMatch { State.reset with crc := 0x4B37#16, candLo := 0x37#8, candHi := 0x4B#8 }) = some 0x12#8 ∧
    after State.statusByte
      (exec .crcMatch { State.reset with crc := 0x4B37#16, candLo := 0x4B#8, candHi := 0x37#8 }) = some 0x02#8 := by
  decide

/-- V-FEED-2's acceptance: CRC is not initialised again, BUSY and nothing else in STATUS. -/
theorem test_crcFeed :
    after (fun t => (t.crc, t.statusByte, t.sreg, t.endi))
      (exec (.crcFeed 0x34#8) { State.reset with crc := 0x1234#16, done := true }) =
      some (0x1234#16, 0x01#8, 0x34#8, 1#9) := by decide

/-- V-BUILD-12, V-BUILD-13: LEN = 1 and LEN = 257. -/
theorem test_build_out_of_range :
    after State.statusByte (exec .build (oneByte 1#9)) = some 0x42#8 ∧
    after State.statusByte (exec .build (oneByte 257#9)) = some 0x42#8 ∧
    after State.statusByte (exec .build (oneByte 256#9)) = some 0x01#8 := by decide

/-- V-BUILD-1's finish step: 2A 00 1E D0, LEN = 4. -/
theorem test_build_finish :
    after (fun t => (t.buf.slice 0 4, t.len, t.statusByte))
      ({ loaded [0x2A#8, 0x00#8] with crc := 0xD01E#16, phase := .finish, op := .build }.sequencerStep) =
      some (some [0x2A#8, 0x00#8, 0x1E#8, 0xD0#8], 4#9, 0x02#8) := by decide

/-- V-PARSE-6, V-PARSE-7. -/
theorem test_parse_wrong_length :
    after State.statusByte (exec .parse (oneByte 3#9)) = some 0x06#8 ∧
    after State.statusByte (exec .parse (oneByte 259#9)) = some 0x06#8 ∧
    after (fun t => (t.statusByte, t.endi)) (exec .parse (oneByte 258#9)) = some (0x01#8, 256#9) := by decide

/-- The finish steps of V-PARSE-2, V-PARSE-3 and V-PARSE-4. -/
theorem test_parse_finish :
    (let s := { loaded [0x2A#8, 0x05#8, 0xDE#8, 0xD3#8] with crc := 0xD3DE#16, phase := .finish, op := .parse }
     after (fun t => (t.statusByte, t.plen)) ({ s with expAddr := 0x2A#8 }.sequencerStep) = some (0x32#8, 0x01#8) ∧
     after (fun t => (t.statusByte, t.plen)) ({ s with expAddr := 0x2B#8 }.sequencerStep) = some (0x1E#8, 0x00#8) ∧
     after (fun t => (t.statusByte, t.plen))
      ({ s with buf := cells 0 [0x2A#8, 0x05#8, 0xD3#8, 0xDE#8] }.sequencerStep) = some (0x0A#8, 0x00#8)) := by decide

/-- V-HOST-2. -/
theorem test_cmdIllegal :
    after (fun t => (t.statusByte, t.cmdr)) (exec (.cmdIllegal 0x08#8) State.reset) = some (0x42#8, 0x08#8) := by decide

/-- V-RST-1, V-HOST-7. -/
theorem test_rd :
    after State.results (exec (.rd 0x005#10) State.reset) = some [0xFF#8] ∧
    after State.results (exec (.rd 0x3FF#10) State.reset) = some [0x00#8] := by decide

/-- V-HOST-11, V-HOST-12. -/
theorem test_rd_buf :
    faultOf (exec (.rd 0x100#10) State.reset) = some (.unwrittenBufRead 0) ∧
    after State.results (exec (.rd 0x201#10) { State.reset with buf := [(257, 0x5A#8)] }) = some [0x5A#8] := by decide

/-- V-HOST-6. -/
theorem test_wrLenLo : after State.len (exec (.wrLenLo 0x02#8) { State.reset with len := 0x100#9 }) = some 258#9 := by
  decide

/-- V-HOST-5, and R99's corner case. -/
theorem test_wrLenHi :
    after State.len (exec (.wrLenHi 0xFF#8) State.reset) = some 0x100#9 ∧
    after State.len (exec (.wrLenHi 0xFE#8) { State.reset with len := 0x104#9 }) = some 0x004#9 := by decide

/-- V-HOST-10. -/
theorem test_wrExpAddr : after State.expAddr (exec (.wrExpAddr 0x2B#8) State.reset) = some 0x2B#8 := by decide

/-- 42_host_access.md R101: MATCH is not re-evaluated. -/
theorem test_wrCandLo :
    after (fun t => (t.candLo, t.candHi, t.matched)) (exec (.wrCandLo 0x37#8) { State.reset with matched := true }) =
      some (0x37#8, 0x00#8, true) := by decide

/-- 42_host_access.md R101. -/
theorem test_wrCandHi :
    after (fun t => (t.candLo, t.candHi)) (exec (.wrCandHi 0x4B#8) State.reset) = some (0x00#8, 0x4B#8) := by decide

/-- V-HOST-12's write, and the canonical form around a neighbour. -/
theorem test_wrBuf :
    after State.buf (exec (.wrBuf 0x201#10 0x5A#8) State.reset) = some [(257, 0x5A#8)] ∧
    after State.buf (exec (.wrBuf 0x100#10 0x2A#8) { State.reset with buf := [(1, 0x00#8)] }) =
      some [(0, 0x2A#8), (1, 0x00#8)] := by decide

/-- V-HOST-8. -/
theorem test_wrRo :
    after (fun t => (t.crc, t.statusByte)) (exec (.wrRo 0x005#10 0x00#8) { State.reset with crc := 0xD01E#16 }) =
      some (0xD01E#16, 0x00#8) := by decide

/-- V-HOST-13. -/
theorem test_wrRsvd : after (fun t => (t.buf, t.statusByte)) (exec (.wrRsvd 0x202#10 0x5A#8) State.reset) =
    some ([], 0x00#8) := by decide

/-- V-BUSY-2: a write while BUSY is dropped and sets OVR. -/
theorem test_busy_write :
    after (fun t => (t.cmdr, t.crc, t.statusByte))
      (exec .crcInit { State.reset with phase := .feed, crc := 0x1234#16 }) =
      some (0x00#8, 0x1234#16, 0x81#8) := by decide

/-- The first and the last bit of V-BYTE-2's trace. -/
theorem test_feed_step :
    after (fun t => (t.crc, t.k, t.phase))
      ({ State.reset with phase := .feed, endi := 1#9, sreg := 0x01#8 }.sequencerStep) =
      some (0x7FFF#16, 1#3, .feed) ∧
    after (fun t => (t.crc, t.k, t.phase))
      ({ State.reset with phase := .feed, endi := 1#9, k := 7#3, crc := 0x40FF#16 }.sequencerStep) =
      some (0x807E#16, 0#3, .finish) := by decide

/-- A placed word is the very next step's: CRC_INIT right after reset. -/
theorem test_withFetchWord :
    after (fun t => (t.cmdr, t.statusByte)) (step (State.reset.withFetchWord 24 0x40001)) = some (0x01#8, 0x02#8) := by
  decide

/-- V-RST-2: a reset event in a BUILD's busy window. -/
theorem test_reset_event :
    after (fun t => (t.statusByte, t.len, t.buf, t.crc))
      (step { loaded [0x2A#8, 0x00#8] with phase := .finish, op := .build, sched := [.reset] }) =
      some (0x00#8, 0#9, [], 0xFFFF#16) := by decide

/-! ## Witnesses: states and operands that meet the hypotheses of the statements -/

/-- In the window of a CRC_FEED of 0x31, three bits in. -/
def feeding : State :=
  { State.reset with phase := .feed, endi := 1#9, k := 3#3, sreg := 0x06#8, crc := crcBits 0xFFFF#16 0x31#8 3 }

/-- In the window of a CRC_BUF over 31 32, at the last bit of the first byte. -/
def feedingBuf : State :=
  { loaded [0x31#8, 0x32#8] with
    cmdr := 0x02#8, phase := .feed, op := .crcBuf, endi := 2#9, k := 7#3, sreg := 0x00#8
    crc := crcBits 0xFFFF#16 0x31#8 7 }

/-- At the finish step of a BUILD of 2A 00 (V-BUILD-1). -/
def finishing : State :=
  { loaded [0x2A#8, 0x00#8] with
    cmdr := 0x04#8, phase := .finish, op := .build, endi := 2#9, idx := 2#9, crc := 0xD01E#16 }

/-- At the finish step of a PARSE of 2A 00 1E D0 (V-PARSE-1). -/
def parsing : State :=
  { loaded [0x2A#8, 0x00#8, 0x1E#8, 0xD0#8] with
    cmdr := 0x05#8, phase := .finish, op := .parse, endi := 2#9, idx := 2#9, crc := 0xD01E#16 }

theorem feeding_inv : Inv feeding := by
  constructor <;> decide

theorem feedingBuf_inv : Inv feedingBuf := by
  constructor <;> decide +kernel

theorem finishing_inv : Inv finishing := by
  constructor <;> decide +kernel

theorem parsing_inv : Inv parsing := by
  constructor <;> decide +kernel

/-- A full buffer: 258 bytes 0xFF (V-BUF-3). -/
def full : State := loaded (List.replicate 258 0xFF#8)

/-- 256 bytes 0x2A, the longest body BUILD takes. -/
def longBody : State := loaded (List.replicate 256 0x2A#8)

/-- A byte below a slice is no part of it. -/
theorem slice_cons_above (m : Memory) (i : Nat) (b : Byte) (n : Nat) :
    ∀ j, i < j → Memory.slice ((i, b) :: m) j n = Memory.slice m j n := by
  induction n with
  | zero => intro j _; rfl
  | succ n ih =>
    intro j h
    simp only [Memory.slice, Memory.readByte, if_neg (Nat.ne_of_gt h), ih (j + 1) (Nat.lt_succ_of_lt h)]

/-- The bytes loaded are the slice. -/
theorem slice_cells (bs : List Byte) : ∀ i, Memory.slice (cells i bs) i bs.length = some bs := by
  induction bs with
  | nil => intro i; rfl
  | cons b bs ih =>
    intro i
    simp only [List.length_cons, Memory.slice, cells, Memory.readByte, if_true,
      slice_cons_above _ i b _ _ (Nat.lt_succ_self i), ih (i + 1)]

theorem loaded_len {bs : List Byte} (h : bs.length < 512) : (loaded bs).len.toNat = bs.length := by
  rw [loaded, BitVec.toNat_ofNat]
  exact Nat.mod_eq_of_lt h

theorem loaded_slice {bs : List Byte} (h : bs.length < 512) :
    (loaded bs).buf.slice 0 (loaded bs).len.toNat = some bs := by
  rw [loaded_len h]
  exact slice_cells bs 0

theorem replicate_short {n : Nat} (b : Byte) (h : n < 512) : (List.replicate n b).length < 512 := by
  rwa [List.length_replicate]

theorem full_len : full.len.toNat = 258 :=
  (loaded_len (replicate_short _ (by decide))).trans List.length_replicate

theorem longBody_len : longBody.len.toNat = 256 :=
  (loaded_len (replicate_short _ (by decide))).trans List.length_replicate

theorem full_slice : full.buf.slice 0 full.len.toNat = some (List.replicate 258 0xFF#8) :=
  loaded_slice (replicate_short _ (by decide))

theorem longBody_slice :
    longBody.buf.slice 0 longBody.len.toNat = some (0x2A#8 :: 0x2A#8 :: List.replicate 254 0x2A#8) :=
  loaded_slice (replicate_short (n := 256) _ (by decide))

/-- `s` with the word `w` as all the host has to do, and the host moving next. -/
def hostNext (w : Txn) (s : State) : State := { s with pending := [.txn w], sched := [.host] }

/-- `s` with the turn of the agent `a` next. -/
def turnOf (a : Agent) (s : State) : State := { s with sched := [a] }

/-- Both ends of each operand range (30_encoding.md R55). -/
theorem witness_DecodeOfEncode :
    (Instr.cmdIllegal 0x06#8).WellFormed ∧ (Instr.cmdIllegal 0xFF#8).WellFormed ∧
    (Instr.wrRo 0x001#10 0xFF#8).WellFormed ∧ (Instr.wrBuf 0x100#10 0x00#8).WellFormed ∧
    (Instr.wrBuf 0x201#10 0xFF#8).WellFormed ∧ (Instr.wrRsvd 0x00B#10 0x00#8).WellFormed ∧
    (Instr.wrRsvd 0x3FF#10 0x00#8).WellFormed := by decide

theorem witness_DecodeIsTheTable : 0x201 < 1024 ∧ 0x3FF < 1024 ∧ 0xFF < 256 := by decide

theorem witness_EveryWordIsATransaction : 6 ≤ (0x06#8 : Byte).toNat ∧ State.reset.busy = false := by decide

theorem witness_StepRunsTheDecodedTransaction :
    ((hostNext 0x40001#19 feeding).pending = .txn 0x40001#19 :: [] ∧
      (hostNext 0x40001#19 feeding).sched = .host :: []) ∧
    (let s : State := { State.reset with pending := [.txn 0x40001#19] }
     s.pending = .txn 0x40001#19 :: [] ∧ s.sched = [] ∧ s.busy = false) := by decide

theorem witness_PollReadsStatusUntilNotBusy :
    (let s : State := { feeding with pending := [.poll], sched := [.host] }
     s.pending = .poll :: [] ∧ s.sched = .host :: [] ∧ s.busy = true) ∧
    (let s : State := { State.reset with pending := [.poll], sched := [.host] }
     s.pending = .poll :: [] ∧ s.sched = .host :: [] ∧ s.busy = false) := by decide

theorem witness_IdleAgentsHoldAllState :
    ((turnOf .sequencer State.reset).sched = .sequencer :: [] ∧ (turnOf .sequencer State.reset).busy = false) ∧
    ((turnOf .host feeding).sched = .host :: [] ∧ (turnOf .host feeding).pending = []) ∧
    (State.reset.sched = [] ∧ State.reset.pending = [] ∧ State.reset.busy = false) ∧
    (feeding.sched = [] ∧ feeding.busy = true) := by decide

/-- A write of CAND_LO at the finish step of BUILD (95_test_vectors.md P4), and CRC_INIT at that of PARSE. -/
theorem witness_WriteRacingTheFinishStep :
    (let s : State := { finishing with pending := [.txn 0x40955#19] }
     s.phase = .finish ∧ (∃ u, s.sequencerStep = .next u) ∧ (0x40955#19 : Txn).getLsbD 18 = true ∧
     s.pending = .txn 0x40955#19 :: [] ∧ (0x40955#19 : Txn) = BitVec.ofNat 19 (0x40900 + (0x55#8 : Byte).toNat)) ∧
    (let s : State := { parsing with pending := [.txn 0x40001#19] }
     s.phase = .finish ∧ (∃ u, s.sequencerStep = .next u) ∧ (0x40001#19 : Txn).getLsbD 18 = true ∧
     s.pending = .txn 0x40001#19 :: []) :=
  ⟨⟨rfl, ⟨_, rfl⟩, by decide, rfl, by decide⟩, rfl, ⟨_, rfl⟩, by decide, rfl⟩

theorem witness_ResetSetsEveryRegister : (turnOf .reset parsing).sched = .reset :: [] := by decide

theorem witness_ResetLeavesBufUnwritten :
    (turnOf .reset parsing).sched = .reset :: [] ∧ 0x100 ≤ (0x100#10 : Addr).toNat ∧
    (0x201#10 : Addr).toNat ≤ 0x201 := by decide

theorem witness_NopClearsTheFlags : State.reset.busy = false := by decide

theorem witness_IllegalCommandSetsCmderr :
    6 ≤ (0x06#8 : Byte).toNat ∧ 6 ≤ (0xFF#8 : Byte).toNat ∧ State.reset.busy = false := by decide

/-- The ends of the reserved ranges and of the buffer window, written and unwritten. -/
theorem witness_IdleReadReturnsTheTable :
    full.busy = false ∧ 0x00B ≤ (0x00B#10 : Addr).toNat ∧ (0x0FF#10 : Addr).toNat ≤ 0x0FF ∧
    0x202 ≤ (0x202#10 : Addr).toNat ∧ full.buf.readByte 0 = some 0xFF#8 ∧ full.buf.readByte 257 = some 0xFF#8 ∧
    State.reset.busy = false ∧ State.reset.wbuf 0 = false ∧ State.reset.wbuf 257 = false := by decide +kernel

theorem witness_BusyReadReturnsADraw : feeding.busy = true := by decide

theorem witness_WriteLenLo : full.busy = false := by decide

theorem witness_WriteLenHi : full.busy = false := by decide

theorem witness_WriteOperandRegisters : State.reset.busy = false := by decide

theorem witness_WriteBufStoresOneByte : 257 ≤ 257 ∧ State.reset.busy = false ∧ State.reset.buf.wf := by decide

theorem witness_IgnoredWritesChangeNothing :
    State.reset.busy = false ∧ readOnlyAddr 0x008#10 ∧ reservedAddr 0x00B#10 ∧ reservedAddr 0x0FF#10 ∧
    reservedAddr 0x202#10 ∧ reservedAddr 0x3FF#10 := by decide

theorem witness_BusyWriteIsDropped : feedingBuf.busy = true := by decide

theorem witness_ReadsAndPlainWritesAreIdempotent :
    (∃ t u, State.reset.busy = false ∧ exec (.rd 0x005#10) State.reset = .next t ∧ exec (.rd 0x005#10) t = .next u) ∧
    (∃ t, State.reset.busy = false ∧ (0x201#10 : Addr) ≠ 0x000#10 ∧ (0x201#10 : Addr) ≠ 0x007#10 ∧
      exec (decode (1#1 ++ (0x201#10 : Addr) ++ (0x5A#8 : Byte))) State.reset = .next t) :=
  ⟨⟨_, _, by decide, rfl, rfl⟩, ⟨_, by decide, by decide, by decide, rfl⟩⟩

theorem witness_ReadReturnsTheLastWrite :
    (∃ t, State.reset.busy = false ∧ exec (decode (1#1 ++ (0x002#10 : Addr) ++ (0x5A#8 : Byte))) State.reset = .next t) ∧
    (∃ t, 0x100 ≤ (0x201#10 : Addr).toNat ∧ (0x201#10 : Addr).toNat ≤ 0x201 ∧
      exec (decode (1#1 ++ (0x201#10 : Addr) ++ (0x5A#8 : Byte))) State.reset = .next t) ∧
    (∃ t, exec (decode (1#1 ++ (0x003#10 : Addr) ++ (0xFF#8 : Byte))) State.reset = .next t) :=
  ⟨⟨_, by decide, rfl⟩, ⟨_, by decide, by decide, rfl⟩, _, rfl⟩

theorem witness_OneBitFlipChangesTheChecksum : 0 < 8 ∧ 7 < 8 := by decide

theorem witness_ParseOfBuild : (List.replicate 254 (0x00#8 : Byte)).length ≤ 254 := by decide +kernel

theorem wrong_trailer (x : Byte × Byte) : (x.1 + 1#8, x.2) ≠ x := by
  intro h
  have := congrArg Prod.fst h
  simp only at this
  bv_omega

/-- Both ends of each length range, with a wrong trailer, and with a differing address. -/
theorem witness_ParseReportsTheFirstFailingCheck :
    (List.replicate 3 (0x2A#8 : Byte)).length < 4 ∧ 258 < (List.replicate 259 (0x2A#8 : Byte)).length ∧
    (2 ≤ [0x2A#8, (0x00#8 : Byte)].length ∧ (0x00#8, 0x00#8) ≠ compute [0x2A#8, 0x00#8]) ∧
    ((List.replicate 256 (0x00#8 : Byte)).length ≤ 256 ∧ ∃ x, x ≠ compute (List.replicate 256 0x00#8)) ∧
    (1 ≤ [(0x00#8 : Byte)].length ∧ (List.replicate 255 (0x00#8 : Byte)).length ≤ 255 ∧ (0x2A#8 : Byte) ≠ 0x2B#8) := by
  simp only [List.length_replicate]
  exact ⟨by decide, by decide, ⟨by decide, by decide +kernel⟩, ⟨by decide, _, wrong_trailer _⟩, by decide, by decide,
    by decide⟩

theorem witness_CrcInitLoadsTheInitialValue : full.busy = false := by decide

theorem witness_CrcMatchComparesLowThenHigh : full.busy = false := by decide

theorem witness_CrcFeedIsAccepted : full.busy = false := by decide

/-- LEN = 259; 0; 1 and 258 with BUF[0] written; 1 and 258 with BUF[0] unwritten. -/
theorem witness_CrcBufIsAccepted :
    (oneByte 259#9).busy = false ∧ 258 < (oneByte 259#9).len.toNat ∧ (oneByte 0#9).len.toNat = 0 ∧
    (1 ≤ (oneByte 1#9).len.toNat ∧ (oneByte 258#9).len.toNat ≤ 258 ∧
      (oneByte 258#9).buf.readByte 0 = some 0x2A#8) ∧
    ({ State.reset with len := 258#9 } : State).wbuf 0 = false := by decide

/-- LEN = 1 and 257; 2 and 256 with BUF[0] written; 256 with BUF[0] unwritten. -/
theorem witness_BuildIsAccepted :
    (oneByte 1#9).busy = false ∧ (oneByte 1#9).len.toNat < 2 ∧ 256 < (oneByte 257#9).len.toNat ∧
    (2 ≤ (oneByte 2#9).len.toNat ∧ (oneByte 256#9).len.toNat ≤ 256 ∧
      (oneByte 256#9).buf.readByte 0 = some 0x2A#8) ∧
    ({ State.reset with len := 256#9 } : State).wbuf 0 = false := by decide

/-- LEN = 3 and 259; 4 and 258 with BUF[0] written; 258 with BUF[0] unwritten. -/
theorem witness_ParseIsAccepted :
    (oneByte 3#9).busy = false ∧ (oneByte 3#9).len.toNat < 4 ∧ 258 < (oneByte 259#9).len.toNat ∧
    (4 ≤ (oneByte 4#9).len.toNat ∧ (oneByte 258#9).len.toNat ≤ 258 ∧
      (oneByte 258#9).buf.readByte 0 = some 0x2A#8) ∧
    ({ State.reset with len := 258#9 } : State).wbuf 0 = false := by decide

/-- Inside a byte; at the last bit of the last byte; at a byte's end with the next byte written, and unwritten; and the
next index 257. -/
theorem witness_FeedMicroStep :
    (let s := turnOf .sequencer feeding
     s.phase = .feed ∧ s.sched = .sequencer :: [] ∧ s.k ≠ 7#3) ∧
    (let s := turnOf .sequencer { feeding with k := 7#3 }
     s.phase = .feed ∧ s.k = 7#3 ∧ s.idx + 1#9 = s.endi) ∧
    (let s := turnOf .sequencer feedingBuf
     s.phase = .feed ∧ s.k = 7#3 ∧ s.idx + 1#9 ≠ s.endi ∧ (s.idx + 1#9).toNat ≤ 257 ∧
     s.buf.readByte (s.idx + 1#9).toNat = some 0x32#8) ∧
    (let s := turnOf .sequencer { feedingBuf with idx := 256#9, endi := 258#9 }
     s.phase = .feed ∧ s.k = 7#3 ∧ s.idx + 1#9 ≠ s.endi ∧ (s.idx + 1#9).toNat ≤ 257 ∧
     s.wbuf (s.idx + 1#9).toNat = false) := by decide

theorem witness_CrcFinishMicroStep :
    let s := turnOf .sequencer { feedingBuf with phase := .finish }
    s.phase = .finish ∧ s.op = .crcBuf ∧ s.sched = .sequencer :: [] := by decide

theorem witness_BuildFinishMicroStep :
    let s := turnOf .sequencer finishing
    s.phase = .finish ∧ s.op = .build ∧ s.sched = .sequencer :: [] ∧ 2 ≤ s.len.toNat ∧ s.len.toNat ≤ 256 := by decide

/-- The trailer written; its first byte unwritten; its second byte unwritten (V-PARSE-15). -/
theorem witness_ParseFinishMicroStep :
    (let s := turnOf .sequencer parsing
     s.phase = .finish ∧ s.op = .parse ∧ s.sched = .sequencer :: [] ∧ 4 ≤ s.len.toNat ∧ s.len.toNat ≤ 258 ∧
     s.buf.readByte (s.len.toNat - 2) = some 0x1E#8 ∧ s.buf.readByte (s.len.toNat - 1) = some 0xD0#8 ∧
     s.buf.readByte 0 = some 0x2A#8 ∧ s.buf.readByte 1 = some 0x00#8) ∧
    (let s := turnOf .sequencer { parsing with len := 258#9 }
     s.len.toNat ≤ 258 ∧ s.wbuf (s.len.toNat - 2) = false) ∧
    (let s := turnOf .sequencer { parsing with buf := cells 0 [0x2A#8, 0x00#8, 0x1E#8] }
     s.buf.readByte (s.len.toNat - 2) = some 0x1E#8 ∧ s.wbuf (s.len.toNat - 1) = false) := by decide

theorem witness_CrcFeedRunsToItsAtomicEffect : full.busy = false ∧ 8 < 9 := by decide

theorem witness_CrcBufRunsToItsAtomicEffect :
    (full.busy = false ∧ 1 ≤ full.len.toNat ∧ full.len.toNat ≤ 258 ∧
      full.buf.slice 0 full.len.toNat = some (List.replicate 258 0xFF#8)) ∧
    (let s := loaded [0x31#8]
     s.busy = false ∧ 1 ≤ s.len.toNat ∧ s.buf.slice 0 s.len.toNat = some [0x31#8]) :=
  ⟨⟨rfl, by rw [full_len]; decide, by rw [full_len], full_slice⟩, by decide⟩

theorem witness_BuildRunsToItsAtomicEffect :
    (longBody.busy = false ∧ longBody.len.toNat ≤ 256 ∧
      longBody.buf.slice 0 longBody.len.toNat = some (0x2A#8 :: 0x2A#8 :: List.replicate 254 0x2A#8)) ∧
    (let s := loaded [0x2A#8, 0x00#8]
     s.busy = false ∧ s.buf.slice 0 s.len.toNat = some (0x2A#8 :: 0x00#8 :: [])) :=
  ⟨⟨rfl, by rw [longBody_len], longBody_slice⟩, by decide⟩

/-- A full buffer, and a frame that parses (V-PARSE-1). -/
theorem witness_ParseRunsToItsAtomicEffect :
    (full.busy = false ∧ 4 ≤ full.len.toNat ∧ full.len.toNat ≤ 258 ∧
      full.buf.slice 0 full.len.toNat = some (List.replicate 258 0xFF#8)) ∧
    (let s := loaded [0x2A#8, 0x00#8, 0x1E#8, 0xD0#8]
     s.busy = false ∧ 4 ≤ s.len.toNat ∧
     s.buf.slice 0 s.len.toNat = some [0x2A#8, 0x00#8, 0x1E#8, 0xD0#8]) :=
  ⟨⟨rfl, by rw [full_len]; decide, by rw [full_len], full_slice⟩, by decide⟩

theorem witness_BuildThenParseRoundTrip :
    let s : State := { loaded [0x2A#8, 0x00#8] with
      pending := [.txn 0x40004#19, .poll, .txn 0x4042A#19, .txn 0x40005#19, .poll] }
    s.busy = false ∧ .reset ∉ s.sched ∧ s.len.toNat ≤ 256 ∧
    s.buf.slice 0 s.len.toNat = some (0x2A#8 :: 0x00#8 :: []) ∧
    s.pending = [.txn 0x40004#19, .poll, .txn (0x40400#19 ||| (0x2A#8 : Byte).setWidth 19), .txn 0x40005#19, .poll] := by
  decide

/-- One byte streamed, under a schedule that is not empty; one byte, and 258 bytes, buffered. -/
theorem witness_StreamingEqualsBuffered :
    (let s : State := { State.reset with pending := [.txn 0x40001#19, .txn 0x40731#19, .poll], sched := [.host] }
     s.busy = false ∧ .reset ∉ s.sched ∧ s.pending = .txn 0x40001#19 ::
      [(0x31#8 : Byte)].flatMap (fun b => [.txn (0x40700#19 ||| b.setWidth 19), .poll])) ∧
    (let s : State := { State.reset with
      pending := hostProgram [.load 0 [0x31#8], .setlen 1#9, .cmd .crcBuf, .poll] }
     s.busy = false ∧ .reset ∉ s.sched ∧ [(0x31#8 : Byte)].length ≤ 258 ∧
     s.pending = hostProgram [.load 0 [0x31#8], .setlen (BitVec.ofNat 9 [(0x31#8 : Byte)].length), .cmd .crcBuf,
      .poll]) ∧
    (let bs : List Byte := List.replicate 258 0xFF#8
     let s : State := { State.reset with
      pending := hostProgram [.load 0 bs, .setlen (BitVec.ofNat 9 bs.length), .cmd .crcBuf, .poll] }
     s.busy = false ∧ .reset ∉ s.sched ∧ bs.length ≤ 258 ∧
     s.pending = hostProgram [.load 0 bs, .setlen (BitVec.ofNat 9 bs.length), .cmd .crcBuf, .poll]) :=
  ⟨by decide, by decide, rfl, by decide, by rw [List.length_replicate], rfl⟩

theorem witness_SetlenAndLoadWriteTheirTargets :
    State.reset.busy = false ∧ 257 + [(0x5A#8 : Byte)].length ≤ 258 ∧
    0 + (List.replicate 258 (0xFF#8 : Byte)).length ≤ 258 := by decide +kernel

/-- Two host turns and two sequencer turns in a window with six sequencer turns left. -/
theorem witness_HostCannotDisturbABusyWindow :
    Inv feeding ∧ .reset ∉ [Agent.host, .sequencer, .host, .sequencer] ∧
    [Agent.host, .sequencer, .host, .sequencer].count .sequencer < feeding.remaining :=
  ⟨feeding_inv, by decide, by decide⟩

theorem witness_BusyWindowIsBounded : Inv feedingBuf ∧ feedingBuf.busy = true ∧
    ∃ t, feedingBuf.sequencerStep = .next t :=
  ⟨feedingBuf_inv, by decide, _, rfl⟩

theorem witness_EveryOperationEnds : Inv parsing ∧ parsing.sched = [] ∧ parsing.busy = true :=
  ⟨parsing_inv, by decide, by decide⟩

/-- A CRC_BUF whose second byte nothing wrote stops at the end of the first. -/
theorem witness_OnlyAnUnwrittenByteStopsTheMachine :
    Inv (turnOf .sequencer { feedingBuf with buf := [(0, 0x31#8)] }) ∧
    step (turnOf .sequencer { feedingBuf with buf := [(0, 0x31#8)] }) = .fault (.unwrittenBufRead 1) :=
  ⟨by constructor <;> decide +kernel, rfl⟩

theorem witness_EveryStepKeepsTheInvariant : Inv finishing ∧ ∃ t, step finishing = .next t :=
  ⟨finishing_inv, _, rfl⟩

/-- A reset event, a feed micro-step, and CRC_INIT, each changing CRC. -/
theorem witness_OnlyTheseWriteCrc :
    (∃ t, step (turnOf .reset parsing) = .next t ∧ t.crc ≠ (turnOf .reset parsing).crc) ∧
    (∃ t, step feeding = .next t ∧ t.crc ≠ feeding.crc) ∧
    (∃ t, step (hostNext 0x40001#19 { State.reset with crc := 0x4B37#16 }) = .next t ∧ t.crc ≠ 0x4B37#16) :=
  ⟨⟨_, rfl, by decide⟩, ⟨_, rfl, by decide⟩, ⟨_, rfl, by decide⟩⟩

/-- A reset event, BUILD's finish step, and WR_BUF at the last index. -/
theorem witness_OnlyTheseWriteBuf :
    (∃ t, step (turnOf .reset parsing) = .next t ∧ t.buf.readByte 0 ≠ (turnOf .reset parsing).buf.readByte 0) ∧
    (∃ t, step finishing = .next t ∧ t.buf.readByte 3 ≠ finishing.buf.readByte 3) ∧
    (∃ t, step (hostNext 0x6015A#19 State.reset) = .next t ∧ t.buf.readByte 257 ≠ State.reset.buf.readByte 257) :=
  ⟨⟨_, rfl, by decide⟩, ⟨_, rfl, by decide⟩, ⟨_, rfl, by decide⟩⟩

/-- One step for each register: EXP_ADDR, CAND_LO, CAND_HI, LEN by the host and by BUILD, PLEN by PARSE, CMDR. -/
theorem witness_OnlyTheseWriteTheRegisters :
    ((hostNext 0x4042A#19 State.reset).nextAgent = .host ∧ finishing.nextAgent = .sequencer ∧
      parsing.nextAgent = .sequencer) ∧
    (∃ t, step (hostNext 0x4042A#19 State.reset) = .next t ∧ t.expAddr ≠ 0x00#8) ∧
    (∃ t, step (hostNext 0x40937#19 State.reset) = .next t ∧ t.candLo ≠ 0x00#8) ∧
    (∃ t, step (hostNext 0x40A4B#19 State.reset) = .next t ∧ t.candHi ≠ 0x00#8) ∧
    (∃ t, step (hostNext 0x40204#19 State.reset) = .next t ∧ t.len ≠ 0#9) ∧
    (∃ t, step finishing = .next t ∧ t.len ≠ 2#9) ∧
    (∃ t, step { parsing with expAddr := 0x2A#8 } = .next t ∧ t.plen ≠ 0x00#8) ∧
    (∃ t, step (hostNext 0x40003#19 State.reset) = .next t ∧ t.cmdr ≠ 0x00#8) :=
  ⟨by decide, ⟨_, rfl, by decide⟩, ⟨_, rfl, by decide⟩, ⟨_, rfl, by decide⟩, ⟨_, rfl, by decide⟩, ⟨_, rfl, by decide⟩,
   ⟨_, rfl, by decide⟩, ⟨_, rfl, by decide⟩⟩

/-- One step for each flag that it sets: OVR, CMDERR, MATCH by a command and by PARSE, SENT, ERR at acceptance and at
the finish step, DONE by a finish step and by an immediate operation. -/
theorem witness_OnlyTheseSetTheFlags :
    (∃ t, step (hostNext 0x40000#19 feeding) = .next t ∧ t.ovr = true) ∧
    (∃ t, step (hostNext 0x40006#19 State.reset) = .next t ∧ t.cmderr = true ∧ t.done = true) ∧
    (∃ t, step (hostNext 0x40003#19 { State.reset with candLo := 0xFF#8, candHi := 0xFF#8 }) = .next t ∧
      t.matched = true) ∧
    (∃ t, step { parsing with buf := cells 0 [0x2A#8, 0x05#8, 0xDE#8, 0xD3#8], crc := 0xD3DE#16, expAddr := 0x2A#8 } =
      .next t ∧ t.sent = true ∧ t.matched = true) ∧
    (∃ t, step (hostNext 0x40005#19 (oneByte 3#9)) = .next t ∧ t.err ≠ .noError) ∧
    (∃ t, step parsing = .next t ∧ t.err ≠ .noError) ∧
    (∃ t, step finishing = .next t ∧ t.done = true) :=
  ⟨⟨_, rfl, by decide⟩, ⟨_, rfl, by decide, by decide⟩, ⟨_, rfl, by decide⟩, ⟨_, rfl, by decide, by decide⟩,
   ⟨_, rfl, by decide⟩, ⟨_, rfl, by decide⟩, ⟨_, rfl, by decide⟩⟩

/-- After a PARSE of a sentinel frame, with OVR. -/
def parsedSentinel : State :=
  { State.reset with done := true, matched := true, sent := true, plen := 0x01#8, ovr := true, cmdr := 0x05#8 }

/-- After a PARSE of a frame with another address. -/
def parsedWrongAddress : State :=
  { State.reset with done := true, matched := true, err := .wrongAddress, cmdr := 0x05#8 }

/-- Every flag set before and cleared by the step, in states of the invariant: by NOP, by CRC_FEED, by a reset event. -/
theorem witness_OnlyTheseSetTheFlags_clearing :
    (Inv (hostNext 0x40000#19 parsedSentinel) ∧ ∃ t, step (hostNext 0x40000#19 parsedSentinel) = .next t ∧
      t.matched = false ∧ t.sent = false ∧ t.ovr = false) ∧
    (∃ t, step (hostNext 0x40731#19 parsedSentinel) = .next t ∧ t.done = false) ∧
    (Inv (turnOf .reset parsedWrongAddress) ∧ ∃ t, step (turnOf .reset parsedWrongAddress) = .next t ∧
      t.err ≠ .wrongAddress ∧ t.matched = false) ∧
    (∃ t, step (hostNext 0x40000#19 { State.reset with done := true, cmderr := true }) = .next t ∧ t.cmderr = false) :=
  ⟨⟨by constructor <;> decide, _, rfl, by decide, by decide, by decide⟩, ⟨_, rfl, by decide⟩,
   ⟨by constructor <;> decide, _, rfl, by decide, by decide⟩, _, rfl, by decide⟩

/-- An acceptance, a feed micro-step inside a byte, and one at a byte's end that stays within `endi`. -/
theorem witness_OnlyTheseMoveThePosition :
    (let s := hostNext 0x40000#19 { State.reset with idx := 2#9 }
     (∃ t, step s = .next t ∧ t.idx ≠ s.idx) ∧ s.nextAgent = .host ∧ s.busy = false ∧
     s.pending = .txn 0x40000#19 :: [] ∧ (0x40000#19 : Txn).getLsbD 18 = true ∧
     (0x40000#19 : Txn).extractLsb' 8 10 = 0x000#10) ∧
    ((∃ t, step feeding = .next t ∧ t.k ≠ feeding.k) ∧ Inv feeding ∧ feeding.nextAgent = .sequencer ∧
     feeding.phase = .feed ∧ feeding.k ≠ 7#3) ∧
    ((∃ t, step feedingBuf = .next t ∧ t.idx ≠ feedingBuf.idx) ∧ Inv feedingBuf ∧
     feedingBuf.nextAgent = .sequencer ∧ feedingBuf.phase = .feed ∧ feedingBuf.k = 7#3) :=
  ⟨⟨⟨_, rfl, by decide⟩, by decide, by decide, rfl, by decide, by decide⟩,
   ⟨⟨_, rfl, by decide⟩, feeding_inv, by decide, by decide, by decide⟩,
   ⟨_, rfl, by decide⟩, feedingBuf_inv, by decide, by decide, by decide⟩

end Sys2Proof.Tests
end

section
/-! SUPPORT. The turns that touch the host's side alone, and the sequencer's micro-steps: an equation for each case, and
all that one of them can do. -/

namespace Sys2Proof.Machine

/-! ### Turns that touch the host's side alone -/

theorem State.popHost_eq_setHostSide (s : State) :
    ∃ p, s.popHost = s.setHostSide s.ovr p s.sched s.results s.draws := by
  rcases s.popHost_eq with h | ⟨l, h⟩
  · exact ⟨s.pending, h⟩
  · exact ⟨l, h⟩

/-! ### The sequencer's micro-steps -/

theorem State.sequencerStep_of_idle {s : State} (hp : s.phase = .idle) : s.sequencerStep = .next s := by
  simp [State.sequencerStep, hp]

theorem State.sequencerStep_of_feed {s : State} (hp : s.phase = .feed) : s.sequencerStep = s.feedStep := by
  simp [State.sequencerStep, hp]

theorem State.sequencerStep_of_finish {s : State} (hp : s.phase = .finish) : s.sequencerStep = s.finishStep := by
  simp [State.sequencerStep, hp]

theorem step_of_sequencer {s : State} {r : List Agent} (h : s.sched = .sequencer :: r) :
    step s = (s.setSched r).sequencerStep := step_of_sched h

/-- The bit step with the polynomial written out (40_crc.md R67). -/
theorem crcStep_eq (c : Crc) (d : Bool) :
    crcStep c d = (c >>> 1) ^^^ (if (c.getLsbD 0 != d) then 0xA001#16 else 0#16) := by
  unfold crcStep crcPoly
  cases c.getLsbD 0 <;> cases d <;> simp

theorem State.feedStep_bit {s : State} (hk : s.k ≠ 7#3) : s.feedStep = .next s.feedBit := by
  simp [State.feedStep, hk]

theorem State.feedStep_lastBit {s : State} (hk : s.k = 7#3) (he : s.idx + 1#9 = s.endi) :
    s.feedStep = .next s.feedLastBit := by
  simp [State.feedStep, hk, he]

theorem State.feedStep_byteEnd {s : State} (hk : s.k = 7#3) (he : s.idx + 1#9 ≠ s.endi) :
    s.feedStep = s.withBufByte (s.idx + 1#9).toNat fun b => .next (s.feedNextByte b) := by
  simp only [State.feedStep, hk, he, if_true, if_false]

theorem State.finishStep_crc {s : State} (ho : s.op = .feedOp ∨ s.op = .crcBuf) : s.finishStep = .next s.settle := by
  rcases ho with ho | ho <;> simp [State.finishStep, ho, State.finishFeed, State.finishCrcBuf]

/-- All that a micro-step of the sequencer can do, with the state of the sequencer in which it does so (10_state.md R32,
R33). -/
inductive MicroStep (s : State) : State → Prop
  | idle (hp : s.phase = .idle) : MicroStep s s
  | bit (hp : s.phase = .feed) (hk : s.k ≠ 7#3) : MicroStep s s.feedBit
  | lastBit (hp : s.phase = .feed) (hk : s.k = 7#3) (he : s.idx + 1#9 = s.endi) : MicroStep s s.feedLastBit
  | nextByte (hp : s.phase = .feed) (hk : s.k = 7#3) (he : s.idx + 1#9 ≠ s.endi) (b : Byte)
      (hb : s.buf.readByte (s.idx + 1#9).toNat = some b) : MicroStep s (s.feedNextByte b)
  | crcDone (hp : s.phase = .finish) (ho : s.op = .feedOp ∨ s.op = .crcBuf) : MicroStep s s.settle
  | buildDone (hp : s.phase = .finish) (ho : s.op = .build) (hl : s.len.toNat + 1 < Config.bufSize) :
      MicroStep s (((s.writeBuf s.len.toNat (crcLo s.crc)).writeBuf (s.len.toNat + 1) (crcHi s.crc)).setLen
        (s.len + 2#9)).settle
  | wrongCrc (hp : s.phase = .finish) (ho : s.op = .parse) : MicroStep s (s.parseError false .wrongCrc).settle
  | wrongAddress (hp : s.phase = .finish) (ho : s.op = .parse) : MicroStep s (s.parseError true .wrongAddress).settle
  | parsed (hp : s.phase = .finish) (ho : s.op = .parse) (x : Bool) (hx : x = true → s.len = 4#9) :
      MicroStep s (s.parseOk x).settle

theorem MicroStep.of_feedStep {s t : State} (hp : s.phase = .feed) (h : s.feedStep = .next t) : MicroStep s t := by
  rcases State.feedStep_next h with ⟨hk, rfl⟩ | ⟨hk, he, rfl⟩ | ⟨hk, he, b, -, hb, rfl⟩
  · exact .bit hp hk
  · exact .lastBit hp hk he
  · exact .nextByte hp hk he b hb

theorem MicroStep.of_finishParse {s t : State} (hp : s.phase = .finish) (ho : s.op = .parse)
    (h : s.finishParse = .next t) : MicroStep s t := by
  obtain ⟨lo, hi, -, -, ⟨-, rfl⟩ | ⟨-, a, -, ⟨-, rfl⟩ | ⟨-, h⟩⟩⟩ := State.finishParse_next h
  · exact .wrongCrc hp ho
  · exact .wrongAddress hp ho
  · rcases State.parseSuccess_next h with ⟨hl, p, -, rfl⟩ | ⟨-, rfl⟩
    · exact .parsed hp ho _ fun _ => hl
    · exact .parsed hp ho false nofun

theorem MicroStep.of_sequencerStep {s t : State} (h : s.sequencerStep = .next t) : MicroStep s t := by
  rcases State.sequencerStep_next h with
    ⟨hp, rfl⟩ | ⟨hp, h⟩ | ⟨hp, ho, rfl⟩ | ⟨hp, ho, h⟩ | ⟨hp, ho, h⟩
  · exact .idle hp
  · exact .of_feedStep hp h
  · exact .crcDone hp ho
  · obtain ⟨hl, rfl⟩ := State.finishBuild_next h
    exact .buildDone hp ho hl
  · exact .of_finishParse hp ho h

end Sys2Proof.Machine
end

section
/-! SUPPORT. What the host's word says of its operation, what each operation does, and who changes what in one step. -/

namespace Sys2Proof

/-! ### The decoder's operands -/

theorem decodeCmd_wellFormed (d : Byte) : (decodeCmd d).WellFormed := by
  unfold decodeCmd
  split_ifs with h0 h1 h2 h3 h4 h5
  case neg => exact decide_eq_true (show 0x06 ≤ d.toNat by bv_omega)
  all_goals rfl

/-- A property of a write's operation, row by row of the table of 30_encoding.md R55. -/
theorem decodeWrite_induction {P : Instr → Prop} {a : Addr} {d : Byte} (cmd : a = 0x000#10 → P (decodeCmd d))
    (ro : readOnlyAddr a → P (.wrRo a d)) (lenLo : a = 0x002#10 → P (.wrLenLo d))
    (lenHi : a = 0x003#10 → P (.wrLenHi d)) (expAddr : a = 0x004#10 → P (.wrExpAddr d))
    (data : a = 0x007#10 → P (.crcFeed d)) (candLo : a = 0x009#10 → P (.wrCandLo d))
    (candHi : a = 0x00A#10 → P (.wrCandHi d)) (buf : bufWindow a → P (.wrBuf a d))
    (rsvd : reservedAddr a → P (.wrRsvd a d)) : P (decodeWrite a d) := by
  unfold decodeWrite
  refine iteInduction cmd fun h0 => iteInduction ro fun hro => iteInduction lenLo fun h2 => iteInduction lenHi fun h3 =>
    iteInduction expAddr fun h4 => iteInduction data fun h7 => iteInduction candLo fun h9 => iteInduction candHi fun hA =>
    iteInduction buf fun hbuf => rsvd ?_
  simp only [readOnlyAddr, bufWindow, reservedAddr] at hro hbuf ⊢
  bv_omega

theorem decodeWrite_wellFormed (a : Addr) (d : Byte) : (decodeWrite a d).WellFormed :=
  decodeWrite_induction (fun _ => decodeCmd_wellFormed d) (fun h => decide_eq_true h) (fun _ => rfl) (fun _ => rfl)
    (fun _ => rfl) (fun _ => rfl) (fun _ => rfl) (fun _ => rfl) (fun h => decide_eq_true h) fun h => decide_eq_true h

/-- The operands a word gives its operation are ones the encoding admits (30_encoding.md R54). -/
theorem decode_wellFormed (w : Txn) : (decode w).WellFormed := by
  unfold decode
  split_ifs
  · exact decodeWrite_wellFormed _ _
  · rfl

/-- The operation of a CMD write's word. -/
theorem decode_cmdWord (c : Byte) : decode (0x40000#19 ||| c.setWidth 19) = decodeCmd c :=
  (congrArg decode (encodeWrite_zero_or 0x000#10 c)).symm.trans (decode_encodeWrite _ _)

theorem decodeCmd_of_illegal {c : Byte} (h : illegalCode c) : decodeCmd c = .cmdIllegal c := by
  unfold decodeCmd
  split_ifs with h0 h1 h2 h3 h4 h5
  case neg => rfl
  all_goals subst_vars; exact absurd h (by decide)

/-- The operations that are accepted: the writes of CMD and of CRC_DATA (10_state.md R27, R29). -/
def Instr.accepts : Instr → Bool
  | .nop => true
  | .crcInit => true
  | .crcBuf => true
  | .crcMatch => true
  | .build => true
  | .parse => true
  | .cmdIllegal _ => true
  | .crcFeed _ => true
  | _ => false

theorem decodeCmd_accepts (d : Byte) : (decodeCmd d).accepts = true := by
  unfold decodeCmd
  split_ifs <;> rfl

theorem decodeWrite_accepts_iff (a : Addr) (d : Byte) :
    (decodeWrite a d).accepts = true ↔ a = 0x000#10 ∨ a = 0x007#10 := by
  refine decodeWrite_induction (P := fun i => i.accepts = true ↔ a = 0x000#10 ∨ a = 0x007#10)
    (fun h => iff_of_true (decodeCmd_accepts d) (.inl h)) (fun h => iff_of_false nofun ?_)
    (fun h => iff_of_false nofun ?_) (fun h => iff_of_false nofun ?_) (fun h => iff_of_false nofun ?_)
    (fun h => iff_of_true rfl (.inr h)) (fun h => iff_of_false nofun ?_) (fun h => iff_of_false nofun ?_)
    (fun h => iff_of_false nofun ?_) fun h => iff_of_false nofun ?_
  all_goals
    try simp only [readOnlyAddr, bufWindow, reservedAddr] at h
    bv_omega

/-- A word's operation is accepted exactly when it is a write of CMD or of CRC_DATA (30_encoding.md R53, R55). -/
theorem decode_accepts_iff (w : Txn) :
    (decode w).accepts = true ↔
      w.getLsbD 18 = true ∧ (w.extractLsb' 8 10 = 0x000#10 ∨ w.extractLsb' 8 10 = 0x007#10) := by
  rw [show w.getLsbD 18 = fieldW w from rfl, show w.extractLsb' 8 10 = fieldA w from rfl]
  unfold decode
  split_ifs with hw
  · simp [hw, decodeWrite_accepts_iff]
  · simp [hw, Instr.accepts]

end Sys2Proof

namespace Sys2Proof.Machine

/-! ### The host's next operation -/

/-- The host's next transaction is a write of CMD or of CRC_DATA (10_state.md R27, R29). -/
def State.acceptsNext (s : State) : Prop :=
  ∃ w rest, s.pending = .txn w :: rest ∧ w.getLsbD 18 = true ∧
    (w.extractLsb' 8 10 = 0x000#10 ∨ w.extractLsb' 8 10 = 0x007#10)

theorem State.acceptsNext_iff (s : State) : s.acceptsNext ↔ ∃ i, s.fetch = some i ∧ i.accepts = true := by
  constructor
  · rintro ⟨w, rest, hp, hw⟩
    exact ⟨decode w, by simp [State.fetch, hp], (decode_accepts_iff w).2 hw⟩
  · rintro ⟨i, hi, ha⟩
    unfold State.fetch at hi
    split at hi
    · cases hi
    · cases hi; exact ⟨_, _, ‹_›, (decode_accepts_iff _).1 ha⟩
    · cases hi; cases ha

/-- What the host performs is an operation the encoding admits (30_encoding.md R54, R63). -/
theorem State.fetch_wellFormed {s : State} {i : Instr} (h : s.fetch = some i) : i.WellFormed := by
  unfold State.fetch at h
  split at h
  · cases h
  · cases h; exact decode_wellFormed _
  · cases h; rfl

theorem Instr.isWrite_of_accepts {i : Instr} (h : i.accepts = true) : i.isWrite = true := by
  cases i with
  | rd => cases h
  | _ => rfl

/-! ### The host's transactions -/

/-- What each write does while the block is idle, by its operation and with the range of LEN in which it does so
(40_crc.md, 41_frame.md, 42_host_access.md). `IdleEffect` says the same without the operation, which the statements about
the writers of a register need. -/
inductive WriteEffect (s : State) : Instr → State → Prop
  | nop : WriteEffect s .nop (s.acceptCmd 0x00#8).complete
  | cmdIllegal (c : Byte) : WriteEffect s (.cmdIllegal c) (s.acceptCmd c).commandError
  | crcInit : WriteEffect s .crcInit (s.acceptCmd 0x01#8).loadCrc.complete
  | crcMatch : WriteEffect s .crcMatch ((s.acceptCmd 0x03#8).setMatch s.matchFlag).complete
  | crcFeed (v : Byte) : WriteEffect s (.crcFeed v) (s.acceptData.startFeed .feedOp 1#9 v)
  | crcBufRejected (hl : 258 < s.len.toNat) : WriteEffect s .crcBuf (s.acceptCmd 0x02#8).commandError
  | crcBufEmpty (hl : s.len.toNat = 0) : WriteEffect s .crcBuf (s.acceptCmd 0x02#8).loadCrc.complete
  | crcBufStarted (b : Byte) (hl : s.len.toNat ≤ 258) :
      WriteEffect s .crcBuf ((s.acceptCmd 0x02#8).loadCrc.startFeed .crcBuf s.len b)
  | buildRejected (hl : s.len.toNat < 2 ∨ 256 < s.len.toNat) :
      WriteEffect s .build (s.acceptCmd 0x04#8).commandError
  | buildStarted (b : Byte) (hl : 2 ≤ s.len.toNat ∧ s.len.toNat ≤ 256) :
      WriteEffect s .build ((s.acceptCmd 0x04#8).loadCrc.startFeed .build s.len b)
  | parseRejected (hl : s.len.toNat < 4 ∨ 258 < s.len.toNat) :
      WriteEffect s .parse ((s.acceptCmd 0x05#8).parseError false .wrongLength).complete
  | parseStarted (b : Byte) (hl : 4 ≤ s.len.toNat ∧ s.len.toNat ≤ 258) :
      WriteEffect s .parse ((s.acceptCmd 0x05#8).loadCrc.startFeed .parse (s.len - 2#9) b)
  | wrRo (a : Addr) (v : Byte) : WriteEffect s (.wrRo a v) s
  | wrRsvd (a : Addr) (v : Byte) : WriteEffect s (.wrRsvd a v) s
  | wrLenLo (v : Byte) : WriteEffect s (.wrLenLo v) (s.setLen (withLenLo s.len v))
  | wrLenHi (v : Byte) : WriteEffect s (.wrLenHi v) (s.setLen (withLenHi s.len v))
  | wrExpAddr (v : Byte) : WriteEffect s (.wrExpAddr v) (s.setExpAddr v)
  | wrCandLo (v : Byte) : WriteEffect s (.wrCandLo v) (s.setCandLo v)
  | wrCandHi (v : Byte) : WriteEffect s (.wrCandHi v) (s.setCandHi v)
  | wrBuf (a : Addr) (v : Byte) (ha : bufWindow a) : WriteEffect s (.wrBuf a v) (s.writeBuf (bufIndex a) v)

theorem not_inRange {n lo hi : Nat} (h : ¬(lo ≤ n ∧ n ≤ hi)) : n < lo ∨ hi < n := by
  omega

/-- Every write while idle has one of these effects. -/
theorem WriteEffect.of_exec {s t : State} {i : Instr} (hb : s.busy = false) (hw : i.isWrite = true)
    (h : exec i s = .next t) : WriteEffect s i t := by
  cases i with
  | rd a => cases hw
  | nop =>
    simp only [exec, execNop, State.hostWrite_idle _ hb] at h
    cases h; exact .nop
  | crcInit =>
    simp only [exec, execCrcInit, State.hostWrite_idle _ hb] at h
    cases h; exact .crcInit
  | crcBuf =>
    simp only [exec, execCrcBuf, State.hostWrite_idle _ hb] at h
    split_ifs at h with hr hz
    · cases h; exact .crcBufEmpty (congrArg BitVec.toNat hz)
    · obtain ⟨b, -, rfl⟩ := State.startOverBuf_next h
      exact .crcBufStarted b ((crcBufInRange_iff s).1 hr)
    · cases h; exact .crcBufRejected (by simpa [crcBufInRange_iff] using hr)
  | crcMatch =>
    simp only [exec, execCrcMatch, State.hostWrite_idle _ hb] at h
    cases h; exact .crcMatch
  | build =>
    simp only [exec, execBuild, State.hostWrite_idle _ hb] at h
    split_ifs at h with hr
    · obtain ⟨b, -, rfl⟩ := State.startOverBuf_next h
      exact .buildStarted b ((buildInRange_iff s).1 hr)
    · cases h; exact .buildRejected (not_inRange (mt (buildInRange_iff s).2 hr))
  | parse =>
    simp only [exec, execParse, State.hostWrite_idle _ hb] at h
    split_ifs at h with hr
    · obtain ⟨b, -, rfl⟩ := State.startOverBuf_next h
      exact .parseStarted b ((parseInRange_iff s).1 hr)
    · cases h; exact .parseRejected (not_inRange (mt (parseInRange_iff s).2 hr))
  | cmdIllegal c =>
    simp only [exec, execCmdIllegal, State.hostWrite_idle _ hb] at h
    cases h; exact .cmdIllegal c
  | wrRo a v =>
    simp only [exec, execWrRo, State.hostWrite_idle _ hb] at h
    cases h; exact .wrRo a v
  | wrLenLo v =>
    simp only [exec, execWrLenLo, State.hostWrite_idle _ hb] at h
    cases h; exact .wrLenLo v
  | wrLenHi v =>
    simp only [exec, execWrLenHi, State.hostWrite_idle _ hb] at h
    cases h; exact .wrLenHi v
  | wrExpAddr v =>
    simp only [exec, execWrExpAddr, State.hostWrite_idle _ hb] at h
    cases h; exact .wrExpAddr v
  | crcFeed v =>
    simp only [exec, execCrcFeed, State.hostWrite_idle _ hb] at h
    cases h; exact .crcFeed v
  | wrCandLo v =>
    simp only [exec, execWrCandLo, State.hostWrite_idle _ hb] at h
    cases h; exact .wrCandLo v
  | wrCandHi v =>
    simp only [exec, execWrCandHi, State.hostWrite_idle _ hb] at h
    cases h; exact .wrCandHi v
  | wrBuf a v =>
    simp only [exec, execWrBuf, State.hostWrite_idle _ hb] at h
    obtain ⟨hj, h⟩ := State.storeBufByte_next h
    cases h
    exact .wrBuf a v (Decidable.of_not_not fun hx => bufIndex_not_lt_of_outside hx hj)
  | wrRsvd a v =>
    simp only [exec, execWrRsvd, State.hostWrite_idle _ hb] at h
    cases h; exact .wrRsvd a v

/-! ### One step, by who makes it -/

/-- All that one step can do, by its agent: a reset event, a micro-step, a host turn without a write, a write dropped
while busy, a write while idle (20_memory.md R47; 70_reset_and_hazards.md R127). -/
inductive StepEffect (s t : State) : Prop
  | reset (ha : s.nextAgent = .reset) (ht : t = s.popSched.resetEvent)
  | micro (ha : s.nextAgent = .sequencer) (hm : MicroStep s.popSched t)
  | noWrite (ha : s.nextAgent = .host) (hi : ∀ i, s.fetch = some i → i.isWrite = false) (p : List HostOp)
      (l : List Agent) (r : List Byte) (d : Nat) (ht : t = s.setHostSide s.ovr p l r d)
  | dropped (ha : s.nextAgent = .host) (hb : s.busy = true) (i : Instr) (hi : s.fetch = some i)
      (hw : i.isWrite = true) (p : List HostOp) (l : List Agent) (r : List Byte) (d : Nat)
      (ht : t = s.setHostSide true p l r d)
  | write (ha : s.nextAgent = .host) (hb : s.busy = false) (i : Instr) (hi : s.fetch = some i) (p : List HostOp)
      (l : List Agent) (r : List Byte) (d : Nat) (he : WriteEffect (s.setHostSide s.ovr p l r d) i t)

theorem exec_write_busy {s : State} {i : Instr} (hb : s.busy = true) (hw : i.isWrite = true) :
    exec i s = .next s.overrun := by
  obtain ⟨go, hgo⟩ := exec_write_form i hw
  rw [hgo, State.hostWrite_busy go hb]

/-- The host's turn with the transaction `i`, performed on the state with the turn and the transaction taken off. -/
theorem StepEffect.of_exec {s u t : State} {i : Instr} {p : List HostOp} {l : List Agent} (ha : s.nextAgent = .host)
    (hi : s.fetch = some i) (hu : u = s.setHostSide s.ovr p l s.results s.draws) (h : exec i u = .next t) :
    StepEffect s t := by
  have hub : u.busy = s.busy := by rw [hu]; rfl
  cases hw : i.isWrite with
  | false =>
    have hread : ∀ j, s.fetch = some j → j.isWrite = false := fun j hj => by
      rw [hi] at hj; cases hj; exact hw
    cases i with
    | rd a =>
      rcases execRd_next h with ⟨b, rfl⟩ | ⟨-, rfl⟩
      · exact .noWrite ha hread p l (b :: s.results) s.draws (by rw [hu]; rfl)
      · exact .noWrite ha hread p l (Config.anyByte s.draws :: s.results) (s.draws + 1) (by rw [hu]; rfl)
    | _ => cases hw
  | true =>
    cases hb : s.busy with
    | true =>
      cases (exec_write_busy (hub.trans hb) hw).symm.trans h
      exact .dropped ha hb i hi hw p l s.results s.draws (by rw [hu]; rfl)
    | false => exact .write ha hb i hi p l s.results s.draws (hu ▸ .of_exec (hub.trans hb) hw h)

theorem StepEffect.of_step {s t : State} (h : step s = .next t) : StepEffect s t := by
  rcases step_next h with ⟨ha, ht⟩ | ⟨ha, h⟩ | ⟨ha, hf, rfl⟩ | ⟨ha, i, hi, h⟩
  · exact .reset ha ht
  · exact .micro ha (.of_sequencerStep h)
  · exact .noWrite ha (by simp [hf]) s.pending s.sched.tail s.results s.draws rfl
  · obtain ⟨p, hp⟩ := s.popSched.popHost_eq_setHostSide
    exact .of_exec ha hi hp h

end Sys2Proof.Machine
end

section
/-! CLAIM. Every step keeps the invariant. -/

namespace Sys2Proof.Machine

/-! ### States that meet the invariant -/

theorem inv_reset : Inv State.reset := by
  constructor <;> decide

/-- OVR may change while busy; the rest of the host's side is not spoken of. -/
theorem Inv.setHostSide {s : State} (h : Inv s) {o : Bool} (ho : s.busy = true ∨ o = s.ovr) (p : List HostOp)
    (l : List Agent) (r : List Byte) (d : Nat) : Inv (s.setHostSide o p l r d) where
  memoryWf := h.memoryWf
  busyFlags := h.busyFlags
  inRange := h.inRange
  feedEnd := h.feedEnd
  feedIndex := h.feedIndex
  finishIndex := h.finishIndex
  feedCrc := h.feedCrc
  finishCrc := h.finishCrc
  errRecord := h.errRecord
  cmderrRecord := h.cmderrRecord
  sentRecord := h.sentRecord
  matchRecord := h.matchRecord
  freshIdle hb hd := by
    have hidle : s.busy = false := hb
    rcases ho with hbusy | rfl
    · rw [hidle] at hbusy; cases hbusy
    · exact h.freshIdle hb hd

/-- The records a completed operation leaves: BUF's form and the flags, with DONE set (60_exceptions.md R107, R108;
41_frame.md R89). -/
structure Completed (s : State) : Prop where
  idle : s.phase = .idle
  memoryWf : s.buf.wf
  done : s.done = true
  errRecord : s.err ≠ .noError →
    s.plen = 0x00#8 ∧ s.sent = false ∧ s.cmderr = false ∧ (s.matched = true ↔ s.err = .wrongAddress)
  cmderrRecord : s.cmderr = true → s.matched = false ∧ s.sent = false
  sentRecord : s.sent = true → s.err = .noError ∧ s.matched = true ∧ s.plen = 0x01#8

/-- A block that has just completed an operation meets the invariant: what speaks of a busy window is void. -/
theorem Completed.inv {s : State} (h : Completed s) : Inv s := by
  have hb : ¬s.busy = true := by simp [State.busy_iff, h.idle]
  have hfeed : ¬s.phase = .feed := by simp [h.idle]
  have hfinish : ¬s.phase = .finish := by simp [h.idle]
  exact {
    memoryWf := h.memoryWf
    busyFlags := (absurd · hb)
    inRange := (absurd · hb)
    feedEnd := (absurd · hb)
    feedIndex := (absurd · hfeed)
    finishIndex := (absurd · hfinish)
    feedCrc := (absurd · hfeed)
    finishCrc := (absurd · hfinish)
    errRecord := fun he => ⟨h.done, h.errRecord he⟩
    cmderrRecord := fun hc => ⟨h.done, h.cmderrRecord hc⟩
    sentRecord := fun hs => ⟨h.done, h.sentRecord hs⟩
    matchRecord := fun _ => h.done
    freshIdle := fun _ hd => by rw [h.done] at hd; cases hd }

/-- Writing what the host may write while idle keeps the invariant: BUF, LEN and the operand registers are in no
record (10_state.md R16, R18 to R20). -/
theorem Inv.writeIdle {s : State} (h : Inv s) (hb : s.busy = false) {m : Memory} (hm : m.wf) (n : Len)
    (e lo hi : Byte) : Inv { s with buf := m, len := n, expAddr := e, candLo := lo, candHi := hi } := by
  have hbusy : ¬s.busy = true := by simp [hb]
  have hidle : s.phase = .idle := s.idle_iff.1 hb
  have hfeed : ¬s.phase = .feed := by simp [hidle]
  have hfinish : ¬s.phase = .finish := by simp [hidle]
  exact {
    memoryWf := hm
    busyFlags := h.busyFlags
    inRange := (absurd · hbusy)
    feedEnd := (absurd · hbusy)
    feedIndex := (absurd · hfeed)
    finishIndex := (absurd · hfinish)
    feedCrc := (absurd · hfeed)
    finishCrc := (absurd · hfinish)
    errRecord := h.errRecord
    cmderrRecord := h.cmderrRecord
    sentRecord := h.sentRecord
    matchRecord := h.matchRecord
    freshIdle := h.freshIdle }

/-- The start of a busy window meets the invariant: acceptance has cleared the flags, the operation is in its range, and
one over BUF starts with BUF[0] and CRC = 0xFFFF (10_state.md R27, R34). -/
theorem inv_startFeed {s : State} {o : SeqOp} {n : Len} {b : Byte} (hm : s.buf.wf)
    (hflags : s.done = false ∧ s.err = .noError ∧ s.matched = false ∧ s.sent = false ∧ s.cmderr = false)
    (hr : (s.startFeed o n b).opInRange = true) (hn : n.toNat = (s.startFeed o n b).feedCount) (h0 : 0 < n.toNat)
    (hcrc : o ≠ .feedOp → s.buf.readByte 0 = some b ∧ s.crc = crcInit) : Inv (s.startFeed o n b) := by
  obtain ⟨hd, he, hmt, hst, hc⟩ := hflags
  exact {
    memoryWf := hm
    busyFlags := fun _ => ⟨hd, he, hmt, hst, hc⟩
    inRange := fun _ => hr
    feedEnd := fun _ => hn
    feedIndex := fun _ => h0
    finishIndex := nofun
    feedCrc := fun _ ho => by
      obtain ⟨hb, hi⟩ := hcrc ho
      exact (State.feedProgress_iff _).2 ⟨[], b, rfl, hb, hi, (BitVec.ushiftRight_zero b).symm⟩
    finishCrc := nofun
    errRecord := fun h => absurd he h
    cmderrRecord := fun h => by simp [hc] at h
    sentRecord := fun h => by simp [hst] at h
    matchRecord := fun h => by simp [hmt] at h
    freshIdle := nofun }

/-! ### The host's transactions keep the invariant -/

/-- What an accepted operation leaves when it completes at once, or is rejected, without a match or an error of PARSE. -/
theorem completed_of_accepted {s t : State} (hm : s.buf.wf) (hi : s.phase = .idle) (hbuf : t.buf = s.buf)
    (hp : t.phase = s.phase) (hd : t.done = true) (he : t.err = .noError) (hs : t.sent = false)
    (hc : t.cmderr = true → t.matched = false) : Completed t where
  idle := hp.trans hi
  memoryWf := hbuf ▸ hm
  done := hd
  errRecord h := absurd he h
  cmderrRecord h := ⟨hc h, hs⟩
  sentRecord h := by simp [hs] at h

theorem IdleEffect.keeps_inv {s t : State} (h : IdleEffect s t) (hb : s.busy = false) (hs : Inv s) : Inv t := by
  have hidle := s.idle_iff.1 hb
  have hm := hs.memoryWf
  cases h with
  | ignored => exact hs
  | read b => exact hs.setHostSide (.inr rfl) _ _ _ _
  | nop => exact Completed.inv (completed_of_accepted hm hidle rfl rfl rfl rfl rfl nofun)
  | rejected c => exact Completed.inv (completed_of_accepted hm hidle rfl rfl rfl rfl rfl fun _ => rfl)
  | crcInit => exact Completed.inv (completed_of_accepted hm hidle rfl rfl rfl rfl rfl nofun)
  | crcBufEmpty hl => exact Completed.inv (completed_of_accepted hm hidle rfl rfl rfl rfl rfl nofun)
  | crcMatch => exact Completed.inv (completed_of_accepted hm hidle rfl rfl rfl rfl rfl nofun)
  | wrongLength hl => exact Completed.inv ⟨hidle, hm, rfl, fun _ => ⟨rfl, rfl, rfl, by simp⟩, nofun, nofun⟩
  | feedStarted v =>
    exact inv_startFeed hm ⟨rfl, rfl, rfl, rfl, rfl⟩ rfl rfl (by decide) (absurd rfl)
  | crcBufStarted b hl h0 hb0 =>
    have hl := (crcBufInRange_iff s).1 hl
    have hpos : 0 < s.len.toNat := Nat.pos_of_ne_zero fun hz => h0 (BitVec.eq_of_toNat_eq hz)
    exact inv_startFeed hm ⟨rfl, rfl, rfl, rfl, rfl⟩ (decide_eq_true ⟨hpos, hl⟩) rfl hpos fun _ => ⟨hb0, rfl⟩
  | buildStarted b hl hb0 =>
    have hl := (buildInRange_iff s).1 hl
    exact inv_startFeed hm ⟨rfl, rfl, rfl, rfl, rfl⟩ (decide_eq_true hl) rfl (by omega) fun _ => ⟨hb0, rfl⟩
  | parseStarted b hl hb0 =>
    have hl := (parseInRange_iff s).1 hl
    have hn : (s.len - 2#9).toNat = s.len.toNat - 2 := by bv_omega
    exact inv_startFeed hm ⟨rfl, rfl, rfl, rfl, rfl⟩ (decide_eq_true hl) hn (by omega) fun _ => ⟨hb0, rfl⟩
  | lenWritten n => exact hs.writeIdle hb hm n s.expAddr s.candLo s.candHi
  | expAddrWritten v => exact hs.writeIdle hb hm s.len v s.candLo s.candHi
  | candLoWritten v => exact hs.writeIdle hb hm s.len s.expAddr v s.candHi
  | candHiWritten v => exact hs.writeIdle hb hm s.len s.expAddr s.candLo v
  | bufWritten j v hj => exact hs.writeIdle hb (Memory.writeByte_wf v hm hj) s.len s.expAddr s.candLo s.candHi

/-- While busy the host reaches nothing but its own side and OVR (10_state.md R35; 70_reset_and_hazards.md R127, R128). -/
theorem BusyEffect.eq_setHostSide {s t : State} (h : BusyEffect s t) :
    ∃ o r d, t = s.setHostSide o s.pending s.sched r d := by
  cases h with
  | read b => exact ⟨s.ovr, b :: s.results, s.draws, rfl⟩
  | draw => exact ⟨s.ovr, _, s.draws + 1, rfl⟩
  | dropped => exact ⟨true, s.results, s.draws, rfl⟩

theorem BusyEffect.keeps_inv {s t : State} (h : BusyEffect s t) (hb : s.busy = true) (hs : Inv s) : Inv t := by
  obtain ⟨o, r, d, rfl⟩ := h.eq_setHostSide
  exact hs.setHostSide (.inl hb) _ _ _ _

theorem exec_keeps_inv {i : Instr} {s t : State} (hs : Inv s) (h : exec i s = .next t) : Inv t := by
  rcases exec_effect h with ⟨hb, he⟩ | ⟨hb, he⟩
  · exact he.keeps_inv hb hs
  · exact he.keeps_inv hb hs

/-! ### The sequencer's micro-steps keep the invariant -/

/-- The next bit of the byte: k does not wrap before the last one (10_state.md R32). -/
theorem bitIndex_succ {k : BitVec 3} (hk : k ≠ 7#3) : (k + 1#3).toNat = k.toNat + 1 := by
  bv_omega

/-- Before its end the sequencer's next index does not wrap (00_scope.md R12). -/
theorem byteIndex_succ {i e : Len} (h : i.toNat < e.toNat) : (i + 1#9).toNat = i.toNat + 1 := by
  bv_omega

/-- The last bit of a byte ends its byte step (40_crc.md R69). -/
theorem crcStep_lastBit {c : Crc} {b r : Byte} {k : BitVec 3} (hk : k = 7#3) (hr : r = b >>> k.toNat) :
    crcStep (crcBits c b k.toNat) (r.getLsbD 0) = crcByte c b := by
  rw [hr, getLsbD_shift, ← crcBits_succ, hk]
  rfl

theorem Inv.feedBit {s : State} (h : Inv s) (hp : s.phase = .feed) (hk : s.k ≠ 7#3) : Inv s.feedBit :=
  { h with
    finishIndex := fun hx => by simp [hp] at hx
    feedCrc := fun _ ho => by
      obtain ⟨f, b, hf, hb, hc, hr⟩ := s.feedProgress_iff.1 (h.feedCrc hp ho)
      refine s.feedBit.feedProgress_iff.2 ⟨f, b, hf, hb, ?_, ?_⟩
      · simp only [State.feedBit_crc, State.feedBit_k]
        rw [bitIndex_succ hk, hc, hr, getLsbD_shift, crcBits_succ]
      · simp only [State.feedBit_sreg, State.feedBit_k]
        rw [bitIndex_succ hk, hr, BitVec.shiftRight_add]
    finishCrc := fun hx => by simp [hp] at hx
    freshIdle := fun hx => by simp [State.idle_iff, hp] at hx }

/-- At the end of a byte the CRC is the checksum of the bytes up to and with it (10_state.md R32). -/
theorem Inv.crc_at_byte_end {s : State} (h : Inv s) (hp : s.phase = .feed) (hk : s.k = 7#3) (ho : s.op ≠ .feedOp) :
    ∃ f, s.buf.slice 0 (s.idx + 1#9).toNat = some f ∧ crcStep s.crc (s.sreg.getLsbD 0) = crc16 f := by
  obtain ⟨f, b, hf, hb, hc, hr⟩ := s.feedProgress_iff.1 (h.feedCrc hp ho)
  refine ⟨f ++ [b], ?_, ?_⟩
  · rw [byteIndex_succ (h.feedIndex hp)]
    exact Memory.slice_snoc hf (by simpa using hb)
  · rw [hc, crcStep_lastBit hk hr, crc16_snoc]

theorem Inv.feedNextByte {s : State} (h : Inv s) (hp : s.phase = .feed) (hk : s.k = 7#3) (he : s.idx + 1#9 ≠ s.endi)
    {b : Byte} (hb : s.buf.readByte (s.idx + 1#9).toNat = some b) : Inv (s.feedNextByte b) :=
  { h with
    feedIndex := fun _ => by
      have hi := h.feedIndex hp
      have hne : (s.idx + 1#9).toNat ≠ s.endi.toNat := fun hx => he (BitVec.eq_of_toNat_eq hx)
      simp only [State.feedNextByte_idx, State.feedNextByte_endi]
      rw [byteIndex_succ hi] at hne ⊢
      omega
    finishIndex := fun hx => by simp [hp] at hx
    feedCrc := fun _ ho => by
      obtain ⟨f, hf, hc⟩ := h.crc_at_byte_end hp hk ho
      exact (s.feedNextByte b).feedProgress_iff.2 ⟨f, b, hf, hb, hc, (BitVec.ushiftRight_zero b).symm⟩
    finishCrc := fun hx => by simp [hp] at hx
    freshIdle := fun hx => by simp [State.idle_iff, hp] at hx }

theorem Inv.feedLastBit {s : State} (h : Inv s) (hp : s.phase = .feed) (hk : s.k = 7#3) (he : s.idx + 1#9 = s.endi) :
    Inv s.feedLastBit := by
  have hb : s.busy = true := s.busy_iff.2 (by simp [hp])
  exact { h with
    busyFlags := fun _ => h.busyFlags hb
    inRange := fun _ => h.inRange hb
    feedEnd := fun _ => h.feedEnd hb
    feedIndex := nofun
    finishIndex := fun _ => ⟨he, rfl⟩
    feedCrc := nofun
    finishCrc := fun _ ho => by
      obtain ⟨f, hf, hc⟩ := h.crc_at_byte_end hp hk ho
      exact s.feedLastBit.finishProgress_iff.2 ⟨f, by rwa [he] at hf, hc⟩
    freshIdle := nofun }

/-- Before its finish step an operation has set no flag (10_state.md R24, R27). -/
theorem Inv.finishFlags {s : State} (h : Inv s) (hp : s.phase = .finish) :
    s.err = .noError ∧ s.matched = false ∧ s.sent = false ∧ s.cmderr = false :=
  (h.busyFlags (s.busy_iff.2 (by simp [hp]))).2

theorem MicroStep.keeps_inv {s t : State} (h : MicroStep s t) (hs : Inv s) : Inv t := by
  have hm := hs.memoryWf
  cases h with
  | idle => exact hs
  | bit hp hk => exact hs.feedBit hp hk
  | lastBit hp hk he => exact hs.feedLastBit hp hk he
  | nextByte hp hk he b hb => exact hs.feedNextByte hp hk he hb
  | crcDone hp ho =>
    obtain ⟨he, -, hst, hc⟩ := hs.finishFlags hp
    exact Completed.inv ⟨rfl, hm, rfl, (absurd he ·), by simp [hc], by simp [hst]⟩
  | buildDone hp ho hl =>
    obtain ⟨he, -, hst, hc⟩ := hs.finishFlags hp
    have hlo := Memory.writeByte_wf (crcLo s.crc) hm (Nat.lt_of_succ_lt hl)
    exact Completed.inv ⟨rfl, Memory.writeByte_wf (crcHi s.crc) hlo hl, rfl, (absurd he ·), by simp [hc], by simp [hst]⟩
  | wrongCrc hp ho =>
    obtain ⟨-, -, -, hc⟩ := hs.finishFlags hp
    exact Completed.inv ⟨rfl, hm, rfl, fun _ => ⟨rfl, rfl, hc, by simp⟩, by simp [hc], nofun⟩
  | wrongAddress hp ho =>
    obtain ⟨-, -, -, hc⟩ := hs.finishFlags hp
    exact Completed.inv ⟨rfl, hm, rfl, fun _ => ⟨rfl, rfl, hc, by simp⟩, by simp [hc], nofun⟩
  | parsed hp ho x hx =>
    obtain ⟨-, -, -, hc⟩ := hs.finishFlags hp
    refine Completed.inv ⟨rfl, hm, rfl, (absurd rfl ·), by simp [hc], fun h => ⟨rfl, rfl, ?_⟩⟩
    simp [State.payloadLen, hx h]

theorem Inv.popSched {s : State} (h : Inv s) : Inv s.popSched := h.setHostSide (.inr rfl) _ _ _ _

theorem Inv.popHost {s : State} (h : Inv s) : Inv s.popHost := by
  obtain ⟨p, hp⟩ := s.popHost_eq_setHostSide
  rw [hp]
  exact h.setHostSide (.inr rfl) _ _ _ _

theorem inv_resetEvent (s : State) : Inv s.resetEvent :=
  inv_reset.setHostSide (.inr rfl) s.pending s.sched s.results s.draws

/-- Settles O53: by the agent that moves, and in each turn by what it can do. -/
theorem everyStepKeepsTheInvariant : Obligations.EveryStepKeepsTheInvariant := by
  intro s t hs h
  rcases step_next h with ⟨-, rfl⟩ | ⟨-, h⟩ | ⟨-, -, rfl⟩ | ⟨-, i, -, h⟩
  · exact inv_resetEvent _
  · exact (MicroStep.of_sequencerStep h).keeps_inv hs.popSched
  · exact hs.popSched
  · exact exec_keeps_inv hs.popSched.popHost h

end Sys2Proof.Machine
end

section
/-! CLAIM. No host access during a busy window reaches the running operation. -/

namespace Sys2Proof.Machine

/-! ### The micro-steps left in a window -/

theorem State.remaining_of_idle {s : State} (hp : s.phase = .idle) : s.remaining = 0 := by
  simp [State.remaining, hp]

theorem State.remaining_of_feed {s : State} (hp : s.phase = .feed) :
    s.remaining = 8 * (s.endi.toNat - s.idx.toNat) - s.k.toNat + 1 := by
  simp [State.remaining, hp]

theorem State.remaining_of_finish {s : State} (hp : s.phase = .finish) : s.remaining = 1 := by
  simp [State.remaining, hp]

theorem State.busy_of_remaining_pos {s : State} (h : 0 < s.remaining) : s.busy = true :=
  s.busy_iff.2 fun hp => by simp [State.remaining_of_idle hp] at h

/-- Every micro-step of a window brings its end one step nearer (10_state.md R31; 60_exceptions.md R117). -/
theorem MicroStep.remaining_succ {s t : State} (h : MicroStep s t) (hs : Inv s) (hb : s.busy = true) :
    t.remaining + 1 = s.remaining := by
  cases h with
  | idle hp => exact absurd hp (s.busy_iff.1 hb)
  | bit hp hk =>
    have hi := hs.feedIndex hp
    have hk' := bitIndex_succ hk
    have hlt := (s.k + 1#3).isLt
    rw [State.remaining_of_feed hp, State.remaining_of_feed (s := s.feedBit) hp]
    simp only [State.feedBit_endi, State.feedBit_idx, State.feedBit_k]
    omega
  | lastBit hp hk he =>
    have hi := byteIndex_succ (hs.feedIndex hp)
    rw [State.remaining_of_feed hp, State.remaining_of_finish (s := s.feedLastBit) rfl, ← he, hi, hk]
    simp
  | nextByte hp hk he b hb =>
    have hi := byteIndex_succ (hs.feedIndex hp)
    have hlt := (hs.feedNextByte hp hk he hb).feedIndex hp
    rw [State.remaining_of_feed hp, State.remaining_of_feed (s := s.feedNextByte b) hp, hk]
    simp only [State.feedNextByte_endi, State.feedNextByte_idx, State.feedNextByte_k, BitVec.toNat_ofNat] at hlt ⊢
    omega
  | crcDone hp => rw [State.remaining_of_finish hp]; rfl
  | buildDone hp => rw [State.remaining_of_finish hp]; rfl
  | wrongCrc hp => rw [State.remaining_of_finish hp]; rfl
  | wrongAddress hp => rw [State.remaining_of_finish hp]; rfl
  | parsed hp => rw [State.remaining_of_finish hp]; rfl

/-! ### The host's turn in a window -/

/-- While busy every transaction goes on to a next state (70_reset_and_hazards.md R127, R128). -/
theorem exec_busy {s : State} (hb : s.busy = true) (i : Instr) : ∃ t, exec i s = .next t := by
  cases hw : i.isWrite with
  | true => exact ⟨_, exec_write_busy hb hw⟩
  | false =>
    cases i with
    | rd a =>
      simp only [exec, execRd, hb, if_true, State.readBusy]
      split_ifs
      · exact ⟨_, rfl⟩
      · exact ⟨_, rfl⟩
    | _ => cases hw

/-- The host's turn while busy reaches nothing but the host's side and OVR. -/
theorem hostTurn_busy {s : State} (hb : s.busy = true) :
    ∃ o p r d, hostTurn s = .next (s.setHostSide o p s.sched r d) := by
  unfold hostTurn
  cases s.fetch with
  | none => exact ⟨s.ovr, s.pending, s.results, s.draws, rfl⟩
  | some i =>
    have hb : s.popHost.busy = true := by simpa using hb
    obtain ⟨t, ht⟩ := exec_busy hb i
    obtain ⟨o, r, d, rfl⟩ := ((exec_effect ht).resolve_right fun ⟨hx, _⟩ => by simp [hb] at hx).2.eq_setHostSide
    obtain ⟨p, hp⟩ := s.popHost_eq_setHostSide
    refine ⟨o, p, r, d, ht.trans ?_⟩
    rw [hp]
    rfl

/-! ### The undisturbed computation -/

/-- `n` micro-steps of the sequencer alone. -/
def sequencerRun : Nat → State → Result
  | 0, s => .next s
  | n + 1, s =>
    match s.sequencerStep with
    | .next t => sequencerRun n t
    | .fault e => .fault e
    | .refused e => .refused e

/-- Inside a window, a run under any order of host and sequencer computes on the block what the sequencer's micro-steps
of that order compute alone. -/
theorem run_eq_sequencerRun {s : State} (order : List Agent) (hs : Inv s) (hr : .reset ∉ order)
    (hc : order.count .sequencer < s.remaining) (o : Bool) (p : List HostOp) (r : List Byte) (d : Nat) :
    mapState State.blockCore (run order.length (s.setHostSide o p order r d)) =
      mapState State.blockCore (sequencerRun (order.count .sequencer) s) := by
  induction order generalizing s o p r d with
  | nil => rfl
  | cons a order ih =>
    obtain ⟨ha, hrest⟩ := not_or.1 (mt List.mem_cons.2 hr)
    have hb : s.busy = true := State.busy_of_remaining_pos (Nat.zero_lt_of_lt hc)
    have hstep : step (s.setHostSide o p (a :: order) r d) = turn a (s.setHostSide o p order r d) :=
      step_of_sched rfl
    cases a with
    | reset => exact absurd rfl ha
    | host =>
      obtain ⟨o', p', r', d', ht⟩ := hostTurn_busy (s := s.setHostSide o p order r d) hb
      rw [List.length_cons, run_succ_of_next _ (hstep.trans ht), List.count_cons_of_ne (by decide)]
      rw [List.count_cons_of_ne (by decide)] at hc
      exact ih hs hrest hc o' p' r' d'
    | sequencer =>
      rw [List.count_cons_self] at hc ⊢
      rw [List.length_cons, run_succ, hstep, turn, State.sequencerStep_setHostSide, sequencerRun]
      cases ht : s.sequencerStep with
      | next t =>
        have hm := MicroStep.of_sequencerStep ht
        have hrem := hm.remaining_succ hs hb
        exact ih (hm.keeps_inv hs) hrest (by omega) o p r d
      | fault e => rfl
      | refused e => rfl

/-- Settles O48: the run under `order` and the undisturbed run both compute what the sequencer alone computes. -/
theorem hostCannotDisturbABusyWindow : Obligations.HostCannotDisturbABusyWindow := by
  intro s order hs hr hc
  have undisturbed := run_eq_sequencerRun (List.replicate (order.count .sequencer) .sequencer) hs (by simp)
    (by simpa using hc) s.ovr s.pending s.results s.draws
  rw [List.length_replicate, List.count_replicate_self] at undisturbed
  exact (run_eq_sequencerRun order hs hr hc s.ovr s.pending s.results s.draws).trans undisturbed.symm

end Sys2Proof.Machine
end

section
/-! CLAIM. Who writes each register, each flag and the sequencer position. -/

namespace Sys2Proof.Machine

/-! ### CRC -/

theorem MicroStep.crc {s t : State} (h : MicroStep s t) :
    t.crc = s.crc ∨ (s.phase = .feed ∧ t.crc = crcStep s.crc (s.sreg.getLsbD 0)) := by
  cases h with
  | bit hp => exact .inr ⟨hp, rfl⟩
  | lastBit hp => exact .inr ⟨hp, rfl⟩
  | nextByte hp => exact .inr ⟨hp, rfl⟩
  | _ => exact .inl rfl

theorem WriteEffect.crc {s t : State} {i : Instr} (h : WriteEffect s i t) :
    t.crc = s.crc ∨ (t.crc = 0xFFFF#16 ∧
      (i = .crcInit ∨ (i = .crcBuf ∧ s.len.toNat ≤ 258) ∨ (i = .build ∧ 2 ≤ s.len.toNat ∧ s.len.toNat ≤ 256) ∨
        (i = .parse ∧ 4 ≤ s.len.toNat ∧ s.len.toNat ≤ 258))) := by
  cases h with
  | crcInit => exact .inr ⟨rfl, .inl rfl⟩
  | crcBufEmpty hl => exact .inr ⟨rfl, .inr (.inl ⟨rfl, by omega⟩)⟩
  | crcBufStarted b hl => exact .inr ⟨rfl, .inr (.inl ⟨rfl, hl⟩)⟩
  | buildStarted b hl => exact .inr ⟨rfl, .inr (.inr (.inl ⟨rfl, hl⟩))⟩
  | parseStarted b hl => exact .inr ⟨rfl, .inr (.inr (.inr ⟨rfl, hl⟩))⟩
  | _ => exact .inl rfl

/-- Settles O54. -/
theorem onlyTheseWriteCrc : Obligations.OnlyTheseWriteCrc := by
  intro s t h hne
  cases StepEffect.of_step h with
  | reset ha => exact .inl ha
  | micro ha hm => exact .inr (.inl ⟨ha, hm.crc.resolve_left hne⟩)
  | noWrite _ _ p l r d ht => exact absurd (congrArg State.crc ht) hne
  | dropped _ _ _ _ _ p l r d ht => exact absurd (congrArg State.crc ht) hne
  | write ha hb i hi p l r d he =>
    rw [hi]
    simp only [Option.some.injEq]
    exact .inr (.inr ⟨ha, hb, he.crc.resolve_left hne⟩)

/-! ### BUF -/

theorem MicroStep.buf {s t : State} (h : MicroStep s t) :
    t.buf = s.buf ∨ (s.phase = .finish ∧ s.op = .build ∧
      t.buf = (s.buf.writeByte s.len.toNat (crcLo s.crc)).writeByte (s.len.toNat + 1) (crcHi s.crc)) := by
  cases h with
  | buildDone hp ho => exact .inr ⟨hp, ho, rfl⟩
  | _ => exact .inl rfl

theorem WriteEffect.buf {s t : State} {i : Instr} (h : WriteEffect s i t) :
    t.buf = s.buf ∨ ∃ a v, i = .wrBuf a v ∧ bufWindow a ∧ t.buf = s.buf.writeByte (bufIndex a) v := by
  cases h with
  | wrBuf a v ha => exact .inr ⟨a, v, rfl, ha, rfl⟩
  | _ => exact .inl rfl

/-- A write changes no byte but its own. -/
theorem Memory.eq_of_readByte_writeByte_ne {m : Memory} {i j : Nat} {v : Byte}
    (h : (m.writeByte i v).readByte j ≠ m.readByte j) : j = i :=
  Decidable.of_not_not fun hx => h (m.readByte_writeByte_other v hx)

/-- The address of a byte of BUF from its index (20_memory.md R39). -/
theorem addr_of_bufIndex {a : Addr} (ha : bufWindow a) : a = BitVec.ofNat 10 (0x100 + bufIndex a) := by
  rw [bufIndex_of_window ha, Nat.add_sub_cancel' ha.1, BitVec.ofNat_toNat, BitVec.setWidth_eq]

/-- Settles O55. -/
theorem onlyTheseWriteBuf : Obligations.OnlyTheseWriteBuf := by
  intro s t i h hne
  have hbuf : t.buf ≠ s.buf := fun hx => hne (by rw [hx])
  cases StepEffect.of_step h with
  | reset ha => exact .inl ha
  | micro ha hm =>
    obtain ⟨hp, ho, ht⟩ := hm.buf.resolve_left hbuf
    refine .inr (.inl ⟨ha, hp, ho, Decidable.or_iff_not_imp_right.2 fun hhi => ?_⟩)
    simp only [State.popSched_buf, State.popSched_len] at ht
    rw [ht, Memory.readByte_writeByte_other _ _ hhi] at hne
    exact Memory.eq_of_readByte_writeByte_ne hne
  | noWrite _ _ p l r d ht => exact absurd (congrArg State.buf ht) hbuf
  | dropped _ _ _ _ _ p l r d ht => exact absurd (congrArg State.buf ht) hbuf
  | write ha hb j hj p l r d he =>
    obtain ⟨a, v, rfl, hw, ht⟩ := he.buf.resolve_left hbuf
    rw [ht] at hne
    obtain rfl := Memory.eq_of_readByte_writeByte_ne hne
    refine .inr (.inr ⟨ha, hb, Nat.le_of_lt_succ (bufIndex_lt_of_window hw), v, ?_, ?_⟩)
    · rw [hj, ← addr_of_bufIndex hw]
    · rw [ht, Memory.readByte_writeByte_same]

/-! ### CMDR, LEN, EXP_ADDR, CAND and PLEN -/

/-- The sequencer writes no register that only the host writes (10_state.md R18, R19, R22). -/
theorem MicroStep.hostRegisters {s t : State} (h : MicroStep s t) :
    t.expAddr = s.expAddr ∧ t.candLo = s.candLo ∧ t.candHi = s.candHi ∧ t.cmdr = s.cmdr := by
  cases h <;> exact ⟨rfl, rfl, rfl, rfl⟩

theorem MicroStep.len {s t : State} (h : MicroStep s t) :
    t.len = s.len ∨ (s.phase = .finish ∧ s.op = .build ∧ t.len = s.len + 2#9) := by
  cases h with
  | buildDone hp ho => exact .inr ⟨hp, ho, rfl⟩
  | _ => exact .inl rfl

theorem MicroStep.plen {s t : State} (h : MicroStep s t) :
    t.plen = s.plen ∨ (s.phase = .finish ∧ s.op = .parse) := by
  cases h with
  | wrongCrc hp ho => exact .inr ⟨hp, ho⟩
  | wrongAddress hp ho => exact .inr ⟨hp, ho⟩
  | parsed hp ho => exact .inr ⟨hp, ho⟩
  | _ => exact .inl rfl

theorem WriteEffect.expAddr {s t : State} {i : Instr} (h : WriteEffect s i t) :
    t.expAddr = s.expAddr ∨ i = .wrExpAddr t.expAddr := by
  cases h with
  | wrExpAddr v => exact .inr rfl
  | _ => exact .inl rfl

theorem WriteEffect.candLo {s t : State} {i : Instr} (h : WriteEffect s i t) :
    t.candLo = s.candLo ∨ i = .wrCandLo t.candLo := by
  cases h with
  | wrCandLo v => exact .inr rfl
  | _ => exact .inl rfl

theorem WriteEffect.candHi {s t : State} {i : Instr} (h : WriteEffect s i t) :
    t.candHi = s.candHi ∨ i = .wrCandHi t.candHi := by
  cases h with
  | wrCandHi v => exact .inr rfl
  | _ => exact .inl rfl

theorem WriteEffect.len {s t : State} {i : Instr} (h : WriteEffect s i t) :
    t.len = s.len ∨ ∃ v, i = .wrLenLo v ∨ i = .wrLenHi v := by
  cases h with
  | wrLenLo v => exact .inr ⟨v, .inl rfl⟩
  | wrLenHi v => exact .inr ⟨v, .inr rfl⟩
  | _ => exact .inl rfl

theorem WriteEffect.plen {s t : State} {i : Instr} (h : WriteEffect s i t) :
    t.plen = s.plen ∨ (i = .parse ∧ t.plen = 0x00#8 ∧ t.err = .wrongLength) := by
  cases h with
  | parseRejected => exact .inr ⟨rfl, rfl, rfl⟩
  | _ => exact .inl rfl

/-- CMDR takes the code of the command that is accepted (10_state.md R22). -/
theorem WriteEffect.cmdr {s t : State} {i : Instr} (h : WriteEffect s i t) (hi : i.WellFormed) :
    t.cmdr = s.cmdr ∨ i = decodeCmd t.cmdr := by
  cases h with
  | nop => exact .inr rfl
  | cmdIllegal c => exact .inr (decodeCmd_of_illegal (of_decide_eq_true hi)).symm
  | crcInit => exact .inr rfl
  | crcMatch => exact .inr rfl
  | crcBufRejected => exact .inr rfl
  | crcBufEmpty => exact .inr rfl
  | crcBufStarted => exact .inr rfl
  | buildRejected => exact .inr rfl
  | buildStarted => exact .inr rfl
  | parseRejected => exact .inr rfl
  | parseStarted => exact .inr rfl
  | _ => exact .inl rfl

/-- Settles O56. -/
theorem onlyTheseWriteTheRegisters : Obligations.OnlyTheseWriteTheRegisters := by
  intro s t h hnr
  cases StepEffect.of_step h with
  | reset ha => exact absurd ha hnr
  | micro ha hm =>
    obtain ⟨he, hlo, hhi, hc⟩ := hm.hostRegisters
    exact ⟨(absurd he ·), (absurd hlo ·), (absurd hhi ·), fun hn => .inl ⟨ha, hm.len.resolve_left hn⟩,
      fun hn => .inl ⟨ha, hm.plen.resolve_left hn⟩, (absurd hc ·)⟩
  | noWrite _ _ p l r d ht =>
    subst ht
    exact ⟨absurd rfl, absurd rfl, absurd rfl, absurd rfl, absurd rfl, absurd rfl⟩
  | dropped _ _ _ _ _ p l r d ht =>
    subst ht
    exact ⟨absurd rfl, absurd rfl, absurd rfl, absurd rfl, absurd rfl, absurd rfl⟩
  | write ha hb i hi p l r d he =>
    rw [hi]
    simp only [Option.some.injEq]
    refine ⟨fun hn => ⟨ha, hb, he.expAddr.resolve_left hn⟩, fun hn => ⟨ha, hb, he.candLo.resolve_left hn⟩,
      fun hn => ⟨ha, hb, he.candHi.resolve_left hn⟩, fun hn => .inr ⟨ha, hb, he.len.resolve_left hn⟩,
      fun hn => .inr ⟨ha, hb, he.plen.resolve_left hn⟩, fun hn => ⟨ha, hb, ?_⟩⟩
    rw [decode_cmdWord]
    exact (he.cmdr (State.fetch_wellFormed hi)).resolve_left hn

end Sys2Proof.Machine
end

section
/-! CLAIM. Who sets and who clears each flag, and who moves the sequencer position. -/

namespace Sys2Proof.Machine

/-! ### Setting a flag -/

theorem MicroStep.ovr {s t : State} (h : MicroStep s t) : t.ovr = s.ovr := by
  cases h <;> rfl

theorem MicroStep.cmderr {s t : State} (h : MicroStep s t) : t.cmderr = s.cmderr := by
  cases h <;> rfl

/-- MATCH, SENT and ERR move only at PARSE's finish step, which never reports WrongLength (41_frame.md R87). -/
theorem MicroStep.parseFlags {s t : State} (h : MicroStep s t) :
    (t.matched = s.matched ∧ t.sent = s.sent ∧ t.err = s.err) ∨
    (s.phase = .finish ∧ s.op = .parse ∧ t.err ≠ .wrongLength) := by
  cases h with
  | wrongCrc hp ho => exact .inr ⟨hp, ho, nofun⟩
  | wrongAddress hp ho => exact .inr ⟨hp, ho, nofun⟩
  | parsed hp ho => exact .inr ⟨hp, ho, nofun⟩
  | _ => exact .inl ⟨rfl, rfl, rfl⟩

/-- DONE is kept, but by a finish step, which sets it (10_state.md R24, R33). -/
theorem MicroStep.done {s t : State} (h : MicroStep s t) :
    t.done = s.done ∨ (s.phase = .finish ∧ t.done = true) := by
  cases h with
  | crcDone hp => exact .inr ⟨hp, rfl⟩
  | buildDone hp => exact .inr ⟨hp, rfl⟩
  | wrongCrc hp => exact .inr ⟨hp, rfl⟩
  | wrongAddress hp => exact .inr ⟨hp, rfl⟩
  | parsed hp => exact .inr ⟨hp, rfl⟩
  | _ => exact .inl rfl

/-- What a write leaves: the flags and the position as they were, or, where it is accepted, the flags cleared before its
effect and the position at 0 (10_state.md R27, R29). -/
theorem WriteEffect.accepted_or_kept {s t : State} {i : Instr} (h : WriteEffect s i t) :
    (i.accepts = true ∧ t.ovr = false ∧ t.sent = false ∧ t.idx = 0#9 ∧ t.k = 0#3) ∨
    (i.accepts = false ∧
      t = { s with buf := t.buf, len := t.len, expAddr := t.expAddr, candLo := t.candLo, candHi := t.candHi }) := by
  cases h with
  | wrRo => exact .inr ⟨rfl, rfl⟩
  | wrRsvd => exact .inr ⟨rfl, rfl⟩
  | wrLenLo => exact .inr ⟨rfl, rfl⟩
  | wrLenHi => exact .inr ⟨rfl, rfl⟩
  | wrExpAddr => exact .inr ⟨rfl, rfl⟩
  | wrCandLo => exact .inr ⟨rfl, rfl⟩
  | wrCandHi => exact .inr ⟨rfl, rfl⟩
  | wrBuf => exact .inr ⟨rfl, rfl⟩
  | _ => exact .inl ⟨rfl, rfl, rfl, rfl, rfl⟩

theorem WriteEffect.ovr {s t : State} {i : Instr} (h : WriteEffect s i t) (ht : t.ovr = true) : s.ovr = true := by
  rcases h.accepted_or_kept with ⟨-, hx, -⟩ | ⟨-, hk⟩
  · rw [hx] at ht; cases ht
  · rwa [hk] at ht

theorem WriteEffect.sent {s t : State} {i : Instr} (h : WriteEffect s i t) (ht : t.sent = true) : s.sent = true := by
  rcases h.accepted_or_kept with ⟨-, -, hx, -⟩ | ⟨-, hk⟩
  · rw [hx] at ht; cases ht
  · rwa [hk] at ht

theorem WriteEffect.matched {s t : State} {i : Instr} (h : WriteEffect s i t) (ht : t.matched = true) :
    s.matched = true ∨ i = .crcMatch := by
  cases h with
  | crcMatch => exact .inr rfl
  | wrRo | wrRsvd | wrLenLo | wrLenHi | wrExpAddr | wrCandLo | wrCandHi | wrBuf => exact .inl ht
  | _ => cases ht

theorem WriteEffect.err {s t : State} {i : Instr} (h : WriteEffect s i t) (ht : t.err ≠ .noError) :
    t.err = s.err ∨ (i = .parse ∧ t.err = .wrongLength ∧ (s.len.toNat < 4 ∨ 258 < s.len.toNat)) := by
  cases h with
  | parseRejected hl => exact .inr ⟨rfl, rfl, hl⟩
  | wrRo | wrRsvd | wrLenLo | wrLenHi | wrExpAddr | wrCandLo | wrCandHi | wrBuf => exact .inl rfl
  | _ => exact absurd rfl ht

theorem WriteEffect.cmderr {s t : State} {i : Instr} (h : WriteEffect s i t) (hi : i.WellFormed)
    (ht : t.cmderr = true) :
    s.cmderr = true ∨ (∃ c, 6 ≤ c.toNat ∧ i = .cmdIllegal c) ∨
      (i = .build ∧ (s.len.toNat < 2 ∨ 256 < s.len.toNat)) ∨ (i = .crcBuf ∧ 258 < s.len.toNat) := by
  cases h with
  | cmdIllegal c => exact .inr (.inl ⟨c, of_decide_eq_true hi, rfl⟩)
  | buildRejected hl => exact .inr (.inr (.inl ⟨rfl, hl⟩))
  | crcBufRejected hl => exact .inr (.inr (.inr ⟨rfl, hl⟩))
  | wrRo | wrRsvd | wrLenLo | wrLenHi | wrExpAddr | wrCandLo | wrCandHi | wrBuf => exact .inl ht
  | _ => cases ht

/-- DONE is set at once by an immediate operation, a rejected one among them (10_state.md R24). -/
theorem WriteEffect.done {s t : State} {i : Instr} (h : WriteEffect s i t) (hi : i.WellFormed) (ht : t.done = true) :
    s.done = true ∨ i = .nop ∨ i = .crcInit ∨ i = .crcMatch ∨ (∃ c, 6 ≤ c.toNat ∧ i = .cmdIllegal c) ∨
      (i = .crcBuf ∧ (s.len.toNat = 0 ∨ 258 < s.len.toNat)) ∨
      (i = .build ∧ (s.len.toNat < 2 ∨ 256 < s.len.toNat)) ∨
      (i = .parse ∧ (s.len.toNat < 4 ∨ 258 < s.len.toNat)) := by
  cases h with
  | nop => simp
  | crcInit => simp
  | crcMatch => simp
  | cmdIllegal c => simpa using .inr (of_decide_eq_true hi)
  | crcBufEmpty hl => simp [hl]
  | crcBufRejected hl => simp [hl]
  | buildRejected hl => exact .inr (by simpa [Nat.lt_succ_iff] using hl)
  | parseRejected hl => simp [hl]
  | wrRo | wrRsvd | wrLenLo | wrLenHi | wrExpAddr | wrCandLo | wrCandHi | wrBuf => exact .inl ht
  | _ => cases ht

/-! ### Clearing a flag -/

/-- The next step is a reset event or the acceptance of an operation: what clears a flag (10_state.md R27). -/
def State.clearsNext (s : State) : Prop :=
  s.nextAgent = .reset ∨ ((s.nextAgent = .host ∧ s.busy = false) ∧ s.acceptsNext)

/-- No flag is cleared from `s` to `t`; ERR, MATCH and SENT in the states of the invariant. -/
structure FlagsKept (s t : State) : Prop where
  done : s.done = true → t.done = true
  cmderr : s.cmderr = true → t.cmderr = true
  ovr : s.ovr = true → t.ovr = true
  err : Inv s → s.err ≠ .noError → t.err = s.err
  matched : Inv s → s.matched = true → t.matched = true
  sent : Inv s → s.sent = true → t.sent = true

/-- While busy the invariant has ERR, MATCH and SENT at 0, so a micro-step has none of them to clear. -/
theorem MicroStep.flagsKept {s t : State} (h : MicroStep s t) : FlagsKept s t where
  done hd := h.done.elim (·.trans hd) And.right
  cmderr hc := h.cmderr.trans hc
  ovr ho := h.ovr.trans ho
  err hs he := by
    rcases h.parseFlags with ⟨-, -, hx⟩ | ⟨hp, -⟩
    · exact hx
    · obtain ⟨hclear, -⟩ := hs.finishFlags hp
      exact absurd hclear he
  matched hs hm := by
    rcases h.parseFlags with ⟨hx, -⟩ | ⟨hp, -⟩
    · exact hx.trans hm
    · obtain ⟨-, hclear, -⟩ := hs.finishFlags hp
      rw [hclear] at hm; cases hm
  sent hs hx := by
    rcases h.parseFlags with ⟨-, he, -⟩ | ⟨hp, -⟩
    · exact he.trans hx
    · obtain ⟨-, -, hclear, -⟩ := hs.finishFlags hp
      rw [hclear] at hx; cases hx

theorem StepEffect.clears_or_keeps {s t : State} (h : StepEffect s t) : s.clearsNext ∨ FlagsKept s t := by
  cases h with
  | reset ha => exact .inl (.inl ha)
  | micro ha hm =>
    have hk := hm.flagsKept
    exact .inr ⟨hk.done, hk.cmderr, hk.ovr, fun hs => hk.err hs.popSched, fun hs => hk.matched hs.popSched,
      fun hs => hk.sent hs.popSched⟩
  | noWrite _ _ p l r d ht => subst ht; exact .inr ⟨id, id, id, fun _ _ => rfl, fun _ => id, fun _ => id⟩
  | dropped _ _ _ _ _ p l r d ht =>
    subst ht; exact .inr ⟨id, id, fun _ => rfl, fun _ _ => rfl, fun _ => id, fun _ => id⟩
  | write ha hb i hi p l r d he =>
    rcases he.accepted_or_kept with ⟨hacc, -⟩ | ⟨-, ht⟩
    · exact .inl (.inr ⟨⟨ha, hb⟩, s.acceptsNext_iff.2 ⟨i, hi, hacc⟩⟩)
    · rw [ht]; exact .inr ⟨id, id, id, fun _ _ => rfl, fun _ => id, fun _ => id⟩

theorem ne_true_of_imp {a b : Bool} (h : a = true → b = true) (ha : a = true) (hb : b = false) : False := by
  rw [h ha] at hb; cases hb

/-- The clearing half of the flags' writers. -/
theorem flags_cleared_only {s t : State} (h : StepEffect s t) :
    (s.done = true → t.done = false → s.clearsNext) ∧ (s.cmderr = true → t.cmderr = false → s.clearsNext) ∧
    (s.ovr = true → t.ovr = false → s.clearsNext) ∧
    (Inv s → (s.err ≠ .noError → t.err ≠ s.err → s.clearsNext) ∧
      (s.matched = true → t.matched = false → s.clearsNext) ∧ (s.sent = true → t.sent = false → s.clearsNext)) := by
  rcases h.clears_or_keeps with hc | hk
  · exact ⟨fun _ _ => hc, fun _ _ => hc, fun _ _ => hc, fun _ => ⟨fun _ _ => hc, fun _ _ => hc, fun _ _ => hc⟩⟩
  · exact ⟨fun h0 h1 => (ne_true_of_imp hk.done h0 h1).elim, fun h0 h1 => (ne_true_of_imp hk.cmderr h0 h1).elim,
      fun h0 h1 => (ne_true_of_imp hk.ovr h0 h1).elim, fun hs => ⟨fun h0 h1 => absurd (hk.err hs h0) h1,
        fun h0 h1 => (ne_true_of_imp (hk.matched hs) h0 h1).elim,
        fun h0 h1 => (ne_true_of_imp (hk.sent hs) h0 h1).elim⟩⟩

/-- Settles O57. -/
theorem onlyTheseSetTheFlags : Obligations.OnlyTheseSetTheFlags := by
  intro s t h
  have hstep := StepEffect.of_step h
  suffices setters : _ ∧ _ ∧ _ ∧ _ ∧ _ ∧ _ by
    obtain ⟨ovr, cmderr, matched, sent, err, done⟩ := setters
    exact ⟨ovr, cmderr, matched, sent, err, done, flags_cleared_only hstep⟩
  cases hstep with
  | reset ha ht => subst ht; exact ⟨nofun, nofun, nofun, nofun, absurd rfl, nofun⟩
  | micro ha hm =>
    refine ⟨fun ht => .inl (hm.ovr.symm.trans ht), fun ht => .inl (hm.cmderr.symm.trans ht), fun ht => ?_,
      fun ht => ?_, fun ht => ?_, fun ht => ?_⟩
    · exact hm.parseFlags.imp (fun ⟨hx, _⟩ => hx.symm.trans ht) fun ⟨hp, ho, _⟩ => .inr ⟨ha, hp, ho⟩
    · exact hm.parseFlags.imp (fun ⟨_, hx, _⟩ => hx.symm.trans ht) fun ⟨hp, ho, _⟩ => ⟨ha, hp, ho⟩
    · exact hm.parseFlags.imp (fun ⟨_, _, hx⟩ => hx) fun ⟨hp, ho, hx⟩ => .inr ⟨⟨ha, hp, ho⟩, hx⟩
    · exact hm.done.imp (·.symm.trans ht) fun ⟨hp, _⟩ => .inl ⟨ha, hp⟩
  | noWrite _ _ p l r d ht => subst ht; exact ⟨.inl, .inl, .inl, .inl, fun _ => .inl rfl, .inl⟩
  | dropped ha hb i hi hw p l r d ht =>
    subst ht; exact ⟨fun _ => .inr ⟨ha, hb, i, hi, hw⟩, .inl, .inl, .inl, fun _ => .inl rfl, .inl⟩
  | write ha hb i hi p l r d he =>
    have hwf := State.fetch_wellFormed hi
    rw [hi]
    simp only [Option.some.injEq]
    exact ⟨fun ht => .inl (he.ovr ht), fun ht => (he.cmderr hwf ht).imp_right fun hx => ⟨⟨ha, hb⟩, hx⟩,
      fun ht => (he.matched ht).imp_right fun hx => .inl ⟨⟨ha, hb⟩, hx⟩, fun ht => .inl (he.sent ht),
      fun ht => (he.err ht).imp_right fun hx => .inl ⟨⟨ha, hb⟩, hx⟩,
      fun ht => (he.done hwf ht).imp_right fun hx => .inr ⟨⟨ha, hb⟩, hx⟩⟩

/-! ### The position -/

theorem MicroStep.position_of_feed {s t : State} (h : MicroStep s t) (hp : s.phase = .feed) :
    (s.k ≠ 7#3 ∧ t.idx = s.idx ∧ t.k = s.k + 1#3) ∨ (s.k = 7#3 ∧ t.idx = s.idx + 1#9 ∧ t.k = 0#3) := by
  cases h with
  | bit _ hk => exact .inl ⟨hk, rfl, rfl⟩
  | lastBit _ hk => exact .inr ⟨hk, rfl, rfl⟩
  | nextByte _ hk => exact .inr ⟨hk, rfl, rfl⟩
  | idle hx | crcDone hx | buildDone hx | wrongCrc hx | wrongAddress hx | parsed hx => rw [hp] at hx; cases hx

theorem MicroStep.position_kept {s t : State} (h : MicroStep s t) (hp : s.phase ≠ .feed) :
    t.idx = s.idx ∧ t.k = s.k := by
  cases h with
  | bit hx | lastBit hx | nextByte hx => exact absurd hx hp
  | _ => exact ⟨rfl, rfl⟩

theorem MicroStep.endi {s t : State} (h : MicroStep s t) : t.endi = s.endi := by
  cases h <;> rfl

/-- A feed micro-step counts on by one bit and stays within `endi` (00_scope.md R12). -/
theorem MicroStep.position_bound {s t : State} (h : MicroStep s t) (hs : Inv s) (hp : s.phase = .feed) :
    t.idx.toNat ≤ t.endi.toNat ∧ 8 * t.idx.toNat + t.k.toNat = 8 * s.idx.toNat + s.k.toNat + 1 := by
  have hi := hs.feedIndex hp
  rw [h.endi]
  rcases h.position_of_feed hp with ⟨hk, hidx, hk'⟩ | ⟨hk, hidx, hk'⟩
  · rw [hidx, hk', bitIndex_succ hk]
    omega
  · rw [hidx, hk', hk, byteIndex_succ hi]
    simp only [BitVec.toNat_ofNat]
    omega

theorem StepEffect.microStep {s t : State} (h : StepEffect s t) (ha : s.nextAgent = .sequencer) :
    MicroStep s.popSched t := by
  cases h with
  | micro _ hm => exact hm
  | reset hx | noWrite hx | dropped hx | write hx => rw [ha] at hx; cases hx

/-- Acceptance puts the position at 0 (10_state.md R29). -/
theorem StepEffect.position_of_accepted {s t : State} (h : StepEffect s t) (ha : s.nextAgent = .host)
    (hb : s.busy = false) (hacc : s.acceptsNext) : t.idx = 0#9 ∧ t.k = 0#3 := by
  obtain ⟨i, hi, hacc⟩ := s.acceptsNext_iff.1 hacc
  cases h with
  | reset hx | micro hx => rw [ha] at hx; cases hx
  | noWrite _ hf => exact absurd (hf i hi) (by simp [Instr.isWrite_of_accepts hacc])
  | dropped _ hx => rw [hb] at hx; cases hx
  | write _ _ j hj p l r d he =>
    rw [hi] at hj; cases hj
    rcases he.accepted_or_kept with ⟨-, -, -, hpos⟩ | ⟨hx, -⟩
    · exact hpos
    · rw [hacc] at hx; cases hx

/-- Nothing else moves the position (10_state.md R29, R32). -/
theorem StepEffect.position_kept {s t : State} (h : StepEffect s t) (hreset : s.nextAgent ≠ .reset)
    (hacc : ¬(s.nextAgent = .host ∧ s.busy = false ∧ s.acceptsNext))
    (hfed : ¬(s.nextAgent = .sequencer ∧ s.phase = .feed)) : t.idx = s.idx ∧ t.k = s.k := by
  cases h with
  | reset ha => exact absurd ha hreset
  | micro ha hm => exact hm.position_kept fun hp => hfed ⟨ha, hp⟩
  | noWrite _ _ p l r d ht => subst ht; exact ⟨rfl, rfl⟩
  | dropped _ _ _ _ _ p l r d ht => subst ht; exact ⟨rfl, rfl⟩
  | write ha hb i hi p l r d he =>
    rcases he.accepted_or_kept with ⟨hx, -⟩ | ⟨-, ht⟩
    · exact absurd ⟨ha, hb, s.acceptsNext_iff.2 ⟨i, hi, hx⟩⟩ hacc
    · rw [ht]; exact ⟨rfl, rfl⟩

/-- Settles O58. -/
theorem onlyTheseMoveThePosition : Obligations.OnlyTheseMoveThePosition := by
  intro s t h
  have hstep := StepEffect.of_step h
  refine ⟨fun ⟨ha, hb, hacc⟩ => hstep.position_of_accepted ha hb hacc,
    fun ⟨ha, hp⟩ => (hstep.microStep ha).position_of_feed hp, fun hne => ?_,
    fun hs ⟨ha, hp⟩ => (hstep.microStep ha).position_bound hs.popSched hp⟩
  by_contra hother
  obtain ⟨hreset, hother⟩ := not_or.1 hother
  obtain ⟨hacc, hfed⟩ := not_or.1 hother
  obtain ⟨hi, hk⟩ := hstep.position_kept hreset hacc hfed
  exact hne.elim (· hi) (· hk)

end Sys2Proof.Machine
end

section
/-! CLAIM. Idle agents, the STATUS byte, and the micro-steps case by case. -/

namespace Sys2Proof.Machine

/-! ### The turns of the agents -/

/-- Settles O9. -/
theorem idleAgentsHoldAllState : Obligations.IdleAgentsHoldAllState := by
  intro s r
  refine ⟨fun hsch hb => ?_, fun hsch hp => ?_, fun hsch hp hb => ?_, fun hsch hb => ?_⟩
  · exact (step_of_sequencer hsch).trans (State.sequencerStep_of_idle (s.idle_iff.1 hb))
  · exact (step_of_sched hsch).trans (hostTurn_nil hp)
  · rw [step_of_no_sched hsch, hb]
    exact hostTurn_nil hp
  · have hs : s.setSched [] = s := hsch ▸ s.setSched_self
    rw [step_of_no_sched hsch, hb, step_of_sequencer (s := { s with sched := [.sequencer] }) rfl]
    exact congrArg State.sequencerStep hs.symm

/-! ### The STATUS byte -/

theorem State.busy_toNat (s : State) : s.busy.toNat = if s.phase = .idle then 0 else 1 := by
  unfold State.busy
  cases s.phase <;> rfl

/-- The STATUS byte as the sum of its fields at their places (10_state.md R15). -/
theorem State.statusByte_toNat (s : State) : s.statusByte.toNat =
    s.busy.toNat + 2 * s.done.toNat + 4 * s.err.bits.toNat + 16 * s.matched.toNat + 32 * s.sent.toNat +
      64 * s.cmderr.toNat + 128 * s.ovr.toNat := by
  have append {m n : Nat} (a : BitVec m) (b : BitVec n) := toNat_append_eq a b
  unfold State.statusByte
  simp only [append, BitVec.toNat_ofBool]
  omega

/-- Settles O13. -/
theorem statusByteLayout : Obligations.StatusByteLayout := by
  intro s
  rw [State.statusByte_toNat, State.busy_toNat]
  cases s.err <;> rfl

/-! ### The feed micro-step -/

/-- Settles O37. -/
theorem feedMicroStep : Obligations.FeedMicroStep := by
  intro s r hp hsch c
  have hc : c = crcStep s.crc (s.sreg.getLsbD 0) := (crcStep_eq _ _).symm
  have hstep : step s = (s.setSched r).feedStep :=
    (step_of_sequencer hsch).trans (State.sequencerStep_of_feed hp)
  rw [hc, hstep]
  refine ⟨fun hk => State.feedStep_bit hk, fun hk he => State.feedStep_lastBit hk he, fun hk he hi => ?_⟩
  have hi : (s.idx + 1#9).toNat < Config.bufSize := Nat.lt_succ_of_le hi
  rw [State.feedStep_byteEnd (s := s.setSched r) hk he]
  exact ⟨fun b hb => State.withBufByte_of_read _ hi hb,
    fun hw => State.withBufByte_of_unwritten _ hi (Option.isNone_iff_eq_none.1 (by simpa [State.wbuf] using hw))⟩

/-! ### The finish micro-step -/

/-- Settles O38. -/
theorem crcFinishMicroStep : Obligations.CrcFinishMicroStep := by
  intro s r hp ho hsch
  exact ((step_of_sequencer hsch).trans (State.sequencerStep_of_finish hp)).trans (State.finishStep_crc ho)

end Sys2Proof.Machine
end

section
/-! CLAIM. The bus: the transaction a step runs, reads and plain writes on the idle block, and a write racing the finish
micro-step. -/

namespace Sys2Proof

/-! ### A write's operation -/

theorem decodeCmd_isWrite (d : Byte) : (decodeCmd d).isWrite = true := by
  unfold decodeCmd
  split_ifs <;> rfl

theorem decodeWrite_isWrite (a : Addr) (d : Byte) : (decodeWrite a d).isWrite = true :=
  decodeWrite_induction (P := fun i => i.isWrite = true) (fun _ => decodeCmd_isWrite d) (fun _ => rfl) (fun _ => rfl)
    (fun _ => rfl) (fun _ => rfl) (fun _ => rfl) (fun _ => rfl) (fun _ => rfl) (fun _ => rfl) fun _ => rfl

/-- A word with W = 1 is a write (30_encoding.md R53). -/
theorem decode_isWrite {w : Txn} (hw : w.getLsbD 18 = true) : (decode w).isWrite = true := by
  unfold decode
  rw [show fieldW w = true from hw, if_pos rfl]
  exact decodeWrite_isWrite _ _

/-- The word `W | A | D` of a write, its fields where 30_encoding.md R53 puts them. -/
theorem decode_writeWord (a : Addr) (d : Byte) : decode (1#1 ++ a ++ d) = decodeWrite a d :=
  decode_encodeWrite a d

/-- A CAND_LO write's word as a number, as 95_test_vectors.md P4 gives it. -/
theorem decode_candLoWord (v : Byte) : decode (BitVec.ofNat 19 (0x40900 + v.toNat)) = .wrCandLo v :=
  (congrArg decode (encodeWrite_eq_ofNat 0x009#10 v)).symm.trans (decode_encodeWrite _ _)

theorem decodeWrite_of_bufWindow {a : Addr} (d : Byte) (ha : bufWindow a) : decodeWrite a d = .wrBuf a d := by
  refine decodeWrite_induction (P := fun i => i = .wrBuf a d) (fun h => ?_) (fun h => ?_) (fun h => ?_) (fun h => ?_)
    (fun h => ?_) (fun h => ?_) (fun h => ?_) (fun h => ?_) (fun _ => rfl) fun h => ?_
  all_goals
    simp only [readOnlyAddr, bufWindow, reservedAddr] at h ha
    exfalso
    bv_omega

end Sys2Proof

namespace Sys2Proof.Machine

/-! ### The transaction a step runs -/

/-- The host's turn by the schedule. -/
theorem step_of_host {s : State} {w : Txn} {rest : List HostOp} {r : List Agent} (hp : s.pending = .txn w :: rest)
    (hs : s.sched = .host :: r) : step s = exec (decode w) ((s.setPending rest).setSched r) :=
  (step_of_sched hs).trans (hostTurn_txn (s := s.setSched r) hp)

/-- The word placed next is the one the next step runs. -/
theorem step_placeTxn (s : State) (w : Txn) : step (s.placeTxn w) = exec (decode w) s :=
  step_of_host (s := s.placeTxn w) rfl rfl

theorem State.withFetchWord_of_txn (s : State) (w : Txn) : s.withFetchWord 24 w.toNat = s.placeTxn w := by
  have hw : w.toNat % 2 ^ 24 = w.toNat := Nat.mod_eq_of_lt (w.isLt.trans (by decide))
  unfold State.withFetchWord
  rw [hw, if_pos w.isLt, BitVec.ofNat_toNat, BitVec.setWidth_eq]

/-- Settles O7: a placed word is the case of a host turn by the schedule. -/
theorem stepRunsTheDecodedTransaction : Obligations.StepRunsTheDecodedTransaction := by
  intro s w
  refine ⟨fun rest r hp hs => step_of_host hp hs, fun rest hp hs hb => ?_, ?_⟩
  · rw [step_of_no_sched hs, hb]
    exact hostTurn_txn hp
  · rw [s.withFetchWord_of_txn w, step_placeTxn]

/-! ### The plain writes on the idle block -/

theorem exec_wrRo_idle {s : State} (hb : s.busy = false) (a : Addr) (v : Byte) : exec (.wrRo a v) s = .next s :=
  State.hostWrite_idle _ hb

theorem exec_wrRsvd_idle {s : State} (hb : s.busy = false) (a : Addr) (v : Byte) : exec (.wrRsvd a v) s = .next s :=
  State.hostWrite_idle _ hb

theorem exec_wrLenLo_idle {s : State} (hb : s.busy = false) (v : Byte) :
    exec (.wrLenLo v) s = .next (s.setLen (withLenLo s.len v)) := by
  simp only [exec, execWrLenLo, State.hostWrite_idle _ hb]

theorem exec_wrLenHi_idle {s : State} (hb : s.busy = false) (v : Byte) :
    exec (.wrLenHi v) s = .next (s.setLen (withLenHi s.len v)) := by
  simp only [exec, execWrLenHi, State.hostWrite_idle _ hb]

theorem exec_wrExpAddr_idle {s : State} (hb : s.busy = false) (v : Byte) :
    exec (.wrExpAddr v) s = .next (s.setExpAddr v) := by
  simp only [exec, execWrExpAddr, State.hostWrite_idle _ hb]

theorem exec_wrCandLo_idle {s : State} (hb : s.busy = false) (v : Byte) :
    exec (.wrCandLo v) s = .next (s.setCandLo v) := by
  simp only [exec, execWrCandLo, State.hostWrite_idle _ hb]

theorem exec_wrCandHi_idle {s : State} (hb : s.busy = false) (v : Byte) :
    exec (.wrCandHi v) s = .next (s.setCandHi v) := by
  simp only [exec, execWrCandHi, State.hostWrite_idle _ hb]

theorem exec_wrBuf_idle {s : State} {a : Addr} (hb : s.busy = false) (ha : bufWindow a) (v : Byte) :
    exec (.wrBuf a v) s = .next (s.writeBuf (bufIndex a) v) := by
  simp only [exec, execWrBuf, State.hostWrite_idle _ hb, s.storeBufByte_of_lt v _ (bufIndex_lt_of_window ha)]

/-! ### A write racing the finish micro-step -/

/-- A micro-step on another host's side: the same, and that host's side stays (10_state.md R35). -/
theorem State.sequencerStep_setHostSide_of_next {s u : State} (h : s.sequencerStep = .next u) (o : Bool)
    (p : List HostOp) (l : List Agent) (r : List Byte) (d : Nat) :
    (s.setHostSide o p l r d).sequencerStep = .next (u.setHostSide o p l r d) := by
  rw [State.sequencerStep_setHostSide, h]

/-- A micro-step leaves the host's side and OVR (10_state.md R32, R33). -/
theorem State.sequencerStep_keeps_hostSide {s u : State} (h : s.sequencerStep = .next u) :
    u = u.setHostSide s.ovr s.pending s.sched s.results s.draws :=
  Host.Outcome.next.inj (h.symm.trans
    (State.sequencerStep_setHostSide_of_next h s.ovr s.pending s.sched s.results s.draws))

/-- The host first: a write met by a micro-step is dropped with OVR, and the micro-step is not disturbed. -/
theorem run_write_then_micro {s u : State} {w : Txn} {rest : List HostOp} (hb : s.busy = true)
    (h : s.sequencerStep = .next u) (hw : (decode w).isWrite = true) (hp : s.pending = .txn w :: rest) :
    run 2 { s with sched := [.host, .sequencer] } = .next { u with ovr := true, pending := rest, sched := [] } := by
  have hhost : step { s with sched := [.host, .sequencer] } =
      .next (s.setHostSide true rest [.sequencer] s.results s.draws) :=
    (step_of_host (s := { s with sched := [.host, .sequencer] }) hp rfl).trans (exec_write_busy hb hw)
  rw [run_succ_of_next 1 hhost, run_one, step_of_sequencer (r := []) rfl]
  refine (State.sequencerStep_setHostSide_of_next h true rest [] s.results s.draws).trans ?_
  rw [State.sequencerStep_keeps_hostSide h]
  rfl

/-- The sequencer first: the write runs on what the micro-step leaves. -/
theorem run_micro_then_txn {s u : State} {w : Txn} {rest : List HostOp} (h : s.sequencerStep = .next u)
    (hp : s.pending = .txn w :: rest) :
    run 2 { s with sched := [.sequencer, .host] } = exec (decode w) { u with pending := rest, sched := [] } := by
  have hmicro : step { s with sched := [.sequencer, .host] } =
      .next (u.setHostSide s.ovr s.pending [.host] s.results s.draws) :=
    (step_of_sequencer (s := { s with sched := [.sequencer, .host] }) rfl).trans
      (State.sequencerStep_setHostSide_of_next h s.ovr s.pending [.host] s.results s.draws)
  rw [run_succ_of_next 1 hmicro, run_one]
  refine (step_of_host (s := u.setHostSide s.ovr s.pending [.host] s.results s.draws) hp rfl).trans ?_
  rw [State.sequencerStep_keeps_hostSide h]
  rfl

/-- Settles O10, by each order of the two turns: the finish micro-step is blind to the host's side. -/
theorem writeRacingTheFinishStep : Obligations.WriteRacingTheFinishStep := by
  intro s u w rest hphase h hw hp
  obtain ⟨hidle, hdone⟩ := State.finish_next hphase h
  have hb : s.busy = true := s.busy_iff.2 (by simp [hphase])
  have hub : u.busy = false := u.idle_iff.2 hidle
  have hlands := run_micro_then_txn h hp
  refine ⟨hub, hdone, run_write_then_micro hb h (decode_isWrite hw) hp, hlands, fun v hv => ?_⟩
  rw [hlands, hv, decode_candLoWord]
  exact exec_wrCandLo_idle (s := { u with pending := rest, sched := [] }) hub v

/-! ### A plain write done twice -/

theorem withLenLo_again (n : Len) (v : Byte) : withLenLo (withLenLo n v) v = withLenLo n v := by
  have hv := v.isLt
  apply BitVec.eq_of_toNat_eq
  simp only [withLenLo_toNat]
  omega

theorem withLenHi_again (n : Len) (v : Byte) : withLenHi (withLenHi n v) v = withLenHi n v := by
  apply BitVec.eq_of_toNat_eq
  simp only [withLenHi_toNat]
  omega

theorem Memory.writeByte_again (m : Memory) (i : Nat) (v : Byte) :
    (m.writeByte i v).writeByte i v = m.writeByte i v := by
  induction m with
  | nil => simp [Memory.writeByte]
  | cons c m ih =>
    obtain ⟨a, w⟩ := c
    simp only [Memory.writeByte]
    split_ifs with hlt heq
    · simp [Memory.writeByte]
    · simp [Memory.writeByte]
    · simp [Memory.writeByte, hlt, heq, ih]

/-- The same write once more changes nothing, unless it starts an operation (20_memory.md R45). -/
theorem WriteEffect.exec_again {s t : State} {i : Instr} (h : WriteEffect s i t) (hb : s.busy = false)
    (hi : i.accepts = false) : exec i t = .next t := by
  cases h with
  | wrRo a v => exact exec_wrRo_idle hb a v
  | wrRsvd a v => exact exec_wrRsvd_idle hb a v
  | wrLenLo v =>
    rw [exec_wrLenLo_idle (s := s.setLen (withLenLo s.len v)) hb, State.setLen_len, withLenLo_again]
    rfl
  | wrLenHi v =>
    rw [exec_wrLenHi_idle (s := s.setLen (withLenHi s.len v)) hb, State.setLen_len, withLenHi_again]
    rfl
  | wrExpAddr v => exact exec_wrExpAddr_idle (s := s.setExpAddr v) hb v
  | wrCandLo v => exact exec_wrCandLo_idle (s := s.setCandLo v) hb v
  | wrCandHi v => exact exec_wrCandHi_idle (s := s.setCandHi v) hb v
  | wrBuf a v ha =>
    rw [exec_wrBuf_idle (s := s.writeBuf _ v) hb ha]
    simp only [State.writeBuf, Memory.writeByte_again]
  | _ => cases hi

/-! ### Reads on the idle block -/

theorem exec_rd_idle {s : State} (hb : s.busy = false) (a : Addr) : exec (.rd a) s = s.readIdle a := by
  simp [exec, execRd, hb]

theorem exec_rd_register {s : State} {a : Addr} {b : Byte} (hb : s.busy = false) (ha : ¬bufWindow a)
    (hr : s.registerByte a = b) : exec (.rd a) s = .next (s.returnByte b) := by
  rw [exec_rd_idle hb, State.readIdle, if_neg ha, hr]

theorem exec_rd_buf {s : State} {a : Addr} {b : Byte} (hb : s.busy = false) (ha : bufWindow a)
    (hr : s.buf.readByte (bufIndex a) = some b) : exec (.rd a) s = .next (s.returnByte b) := by
  rw [exec_rd_idle hb, State.readIdle, if_pos ha, State.withBufByte_of_read _ (bufIndex_lt_of_window ha) hr]

/-- The same read once more returns the same byte (20_memory.md R45). -/
theorem exec_rd_again {s t : State} {a : Addr} (hb : s.busy = false) (h : exec (.rd a) s = .next t) :
    ∃ b, t = s.returnByte b ∧ exec (.rd a) t = .next (t.returnByte b) := by
  by_cases ha : bufWindow a
  · rw [exec_rd_idle hb, State.readIdle, if_pos ha] at h
    obtain ⟨b, -, hr, h⟩ := State.withBufByte_next h
    cases h
    exact ⟨b, rfl, exec_rd_buf hb ha hr⟩
  · cases (exec_rd_register hb ha rfl).symm.trans h
    exact ⟨_, rfl, exec_rd_register hb ha rfl⟩

/-- Settles O24, by what a read and what a plain write can do. -/
theorem readsAndPlainWritesAreIdempotent : Obligations.ReadsAndPlainWritesAreIdempotent := by
  refine ⟨fun s t a h => ?_, fun s t u a hb ht hu => ?_, fun s t a v hb hcmd hdata h => ?_⟩
  · rcases execRd_next h with ⟨b, rfl⟩ | ⟨-, rfl⟩
    · exact ⟨rfl, rfl⟩
    · exact ⟨rfl, rfl⟩
  · obtain ⟨b, rfl, hagain⟩ := exec_rd_again hb ht
    cases hagain.symm.trans hu
    exact ⟨b, rfl, rfl⟩
  · rw [decode_writeWord] at h ⊢
    have hplain : (decodeWrite a v).accepts = false := by
      simpa [hcmd, hdata] using (decodeWrite_accepts_iff a v).not
    exact (WriteEffect.of_exec hb (decodeWrite_isWrite a v) h).exec_again hb hplain

/-! ### A read after a write -/

theorem lenLo_withLenLo (n : Len) (v : Byte) : lenLo (withLenLo n v) = v := by
  have hv := v.isLt
  apply BitVec.eq_of_toNat_eq
  rw [lenLo_toNat, withLenLo_toNat]
  omega

theorem lenHi_withLenHi (n : Len) (v : Byte) : lenHi (withLenHi n v) = BitVec.ofNat 8 (v.toNat % 2) := by
  apply BitVec.eq_of_toNat_eq
  rw [lenHi_toNat, withLenHi_toNat, BitVec.toNat_ofNat]
  omega

/-- Settles O25, address by address. -/
theorem readReturnsTheLastWrite : Obligations.ReadReturnsTheLastWrite := by
  refine ⟨fun s t a v hb ha h => ?_, fun s t v hb h => ?_⟩
  · rw [decode_writeWord] at h
    rcases ha with rfl | rfl | rfl | rfl | ha
    · cases (exec_wrLenLo_idle hb v).symm.trans h
      exact exec_rd_register (a := 0x002#10) hb (by decide) (lenLo_withLenLo s.len v)
    · cases (exec_wrExpAddr_idle hb v).symm.trans h
      exact exec_rd_register (a := 0x004#10) hb (by decide) rfl
    · cases (exec_wrCandLo_idle hb v).symm.trans h
      exact exec_rd_register (a := 0x009#10) hb (by decide) rfl
    · cases (exec_wrCandHi_idle hb v).symm.trans h
      exact exec_rd_register (a := 0x00A#10) hb (by decide) rfl
    · rw [decodeWrite_of_bufWindow v ha, exec_wrBuf_idle hb ha] at h
      cases h
      exact exec_rd_buf hb ha (Memory.readByte_writeByte_same _ _ _)
  · rw [decode_writeWord] at h
    cases (exec_wrLenHi_idle hb v).symm.trans h
    exact exec_rd_register (a := 0x003#10) hb (by decide) (lenHi_withLenHi s.len v)

end Sys2Proof.Machine
end

section
/-! CLAIM. The transaction word: decoder and encoder agree, the decoder is the opcode table, and every word is a
transaction. -/

namespace Sys2Proof

/-! ### A write's operation by its address -/

theorem decodeWrite_of_readOnly {a : Addr} (d : Byte) (ha : readOnlyAddr a) : decodeWrite a d = .wrRo a d := by
  rcases ha with rfl | rfl | rfl | rfl <;> rfl

theorem decodeWrite_of_reserved {a : Addr} (d : Byte) (ha : reservedAddr a) : decodeWrite a d = .wrRsvd a d := by
  refine decodeWrite_induction (P := fun i => i = .wrRsvd a d) (fun h => ?_) (fun h => ?_) (fun h => ?_) (fun h => ?_)
    (fun h => ?_) (fun h => ?_) (fun h => ?_) (fun h => ?_) (fun h => ?_) fun _ => rfl
  all_goals
    simp only [readOnlyAddr, bufWindow, reservedAddr] at h ha
    exfalso
    bv_omega

/-- Settles O1: by the operation, whose operands name its row of the table. -/
theorem decodeOfEncode : Obligations.DecodeOfEncode := by
  intro i hi
  cases i with
  | rd a => exact decode_encodeRead a
  | cmdIllegal c => exact (decode_encodeWrite _ c).trans (decodeCmd_of_illegal (of_decide_eq_true hi))
  | wrRo a v => exact (decode_encodeWrite a v).trans (decodeWrite_of_readOnly v (of_decide_eq_true hi))
  | wrBuf a v => exact (decode_encodeWrite a v).trans (decodeWrite_of_bufWindow v (of_decide_eq_true hi))
  | wrRsvd a v => exact (decode_encodeWrite a v).trans (decodeWrite_of_reserved v (of_decide_eq_true hi))
  | _ => exact decode_encodeWrite _ _

/-! ### The word as a number -/

/-- A number below 2^18 is a read of the address in its bits 17:8, whatever its low byte (30_encoding.md R53, R54). -/
theorem decode_of_toNat_read {w : Txn} {a : Addr} {d : Nat} (hd : d < 256) (hw : w.toNat = a.toNat * 256 + d) :
    decode w = .rd a := by
  have ha := a.isLt
  have hread : fieldW w = false := by
    rw [fieldW_eq, decide_eq_false_iff_not]
    omega
  have haddr : fieldA w = a := by
    apply BitVec.eq_of_toNat_eq
    rw [fieldA_toNat]
    omega
  simp [decode, hread, haddr]

theorem decode_readWord (a : Addr) (d : Byte) : decode (0#1 ++ a ++ d) = .rd a := by
  refine decode_of_toNat_read d.isLt ((toNat_append_eq (0#1 ++ a : BitVec 11) d).trans ?_)
  rw [toNat_append_eq 0#1 a]
  simp

/-- The command codes as numbers (30_encoding.md R56, R57). -/
theorem decodeCmd_eq_table (d : Byte) : decodeCmd d =
    if d.toNat = 0x00 then .nop else if d.toNat = 0x01 then .crcInit else if d.toNat = 0x02 then .crcBuf
    else if d.toNat = 0x03 then .crcMatch else if d.toNat = 0x04 then .build else if d.toNat = 0x05 then .parse
    else .cmdIllegal d := by
  simp only [decodeCmd, ← BitVec.toNat_inj]
  rfl

/-- Settles O2: row by row of the table, each row by the address it is for. -/
theorem decodeIsTheTable : Obligations.DecodeIsTheTable := by
  intro a d ha hd
  obtain ⟨a, rfl⟩ : ∃ x : Addr, x.toNat = a := ⟨BitVec.ofNat 10 a, by simpa using ha⟩
  obtain ⟨d, rfl⟩ : ∃ x : Byte, x.toNat = d := ⟨BitVec.ofNat 8 d, by simpa using hd⟩
  simp only [BitVec.ofNat_toNat, BitVec.setWidth_eq]
  constructor
  · refine decode_of_toNat_read hd ?_
    rw [BitVec.toNat_ofNat]
    omega
  · rw [show 2 ^ 18 = 0x40000 from rfl, ← encodeWrite_eq_ofNat, decode_encodeWrite]
    refine decodeWrite_induction (P := fun i => i = _) (fun h => ?cmd) (fun h => ?ro) (fun h => ?_) (fun h => ?_)
      (fun h => ?_) (fun h => ?_) (fun h => ?_) (fun h => ?_) (fun h => ?buf) fun h => ?rsvd
    case cmd => rw [h]; exact decodeCmd_eq_table d
    case ro => rcases h with rfl | rfl | rfl | rfl <;> rfl
    case buf =>
      obtain ⟨hlo, hhi⟩ := h
      simp (disch := omega) only [if_neg, if_pos]
    case rsvd =>
      simp only [reservedAddr] at h
      simp (disch := omega) only [if_neg]
    all_goals subst h; rfl

/-! ### A word back from its operation -/

theorem encode_decodeCmd (d : Byte) : encode (decodeCmd d) = encodeWrite 0x000#10 d := by
  unfold decodeCmd
  split_ifs with h0 h1 h2 h3 h4 h5
  case neg => rfl
  all_goals subst_vars; rfl

theorem encode_decodeWrite (a : Addr) (d : Byte) : encode (decodeWrite a d) = encodeWrite a d := by
  refine decodeWrite_induction (P := fun i => encode i = encodeWrite a d) (fun h => ?cmd) (fun _ => rfl) (fun h => ?_)
    (fun h => ?_) (fun h => ?_) (fun h => ?_) (fun h => ?_) (fun h => ?_) (fun _ => rfl) fun _ => rfl
  case cmd => rw [h]; exact encode_decodeCmd d
  all_goals subst h; rfl

theorem encodeWrite_fields {w : Txn} (hw : fieldW w = true) : encodeWrite (fieldA w) (fieldD w) = w := by
  have hlt := w.isLt
  rw [fieldW_eq, decide_eq_true_eq] at hw
  apply BitVec.eq_of_toNat_eq
  rw [encodeWrite_toNat, fieldA_toNat, fieldD_toNat]
  omega

/-- A mask of all bits from bit k up clears the k low bits. -/
theorem toNat_and_highMask (w : Txn) (k : Nat) :
    (w &&& BitVec.allOnes 19 <<< k).toNat = w.toNat / 2 ^ k * 2 ^ k := by
  have hle : w.toNat / 2 ^ k * 2 ^ k ≤ w.toNat := Nat.div_mul_le_self _ _
  rw [← BitVec.shiftLeft_ushiftRight, BitVec.toNat_shiftLeft, BitVec.toNat_ushiftRight, Nat.shiftLeft_eq,
    Nat.shiftRight_eq_div_pow, Nat.mod_eq_of_lt (hle.trans_lt w.isLt)]

theorem encodeRead_field {w : Txn} (hw : fieldW w = false) : encodeRead (fieldA w) = w &&& 0x7FF00#19 := by
  have hlt := w.isLt
  rw [fieldW_eq, decide_eq_false_iff_not] at hw
  apply BitVec.eq_of_toNat_eq
  rw [encodeRead_toNat, fieldA_toNat]
  refine Eq.trans ?_ (toNat_and_highMask w 8).symm
  omega

/-- Settles O4, a write and a read apart. -/
theorem encodeOfDecode : Obligations.EncodeOfDecode := by
  intro w
  rw [show w.getLsbD 18 = fieldW w from rfl]
  unfold decode
  split_ifs with hw
  · exact (encode_decodeWrite _ _).trans (encodeWrite_fields hw)
  · exact encodeRead_field (Bool.eq_false_iff.2 hw)

/-- Settles O6, by evaluating the decoder. -/
theorem sampleWordsDecode : Obligations.SampleWordsDecode := by
  unfold Obligations.SampleWordsDecode
  decide

end Sys2Proof

namespace Sys2Proof.Machine

/-! ### No word is refused -/

/-- The outcome is a next state or a fault. -/
def NotRefused (x : Result) : Prop := ∀ r, x ≠ .refused r

theorem notRefused_next (s : State) : NotRefused (.next s) := nofun

theorem notRefused_fault (e : Fault) : NotRefused (.fault e) := nofun

theorem State.withBufByte_notRefused (s : State) (i : Nat) {go : Byte → Result} (hgo : ∀ b, NotRefused (go b)) :
    NotRefused (s.withBufByte i go) := by
  unfold State.withBufByte
  cases s.readBuf i with
  | ok b => exact hgo b
  | error e => exact notRefused_fault e

theorem State.storeBufByte_notRefused (s : State) (i : Nat) (v : Byte) {go : State → Result}
    (hgo : ∀ t, NotRefused (go t)) : NotRefused (s.storeBufByte i v go) :=
  iteInduction (fun _ => hgo _) fun _ => notRefused_fault _

theorem State.hostWrite_notRefused (s : State) {go : State → Result} (hgo : NotRefused (go s)) :
    NotRefused (s.hostWrite go) :=
  iteInduction (fun _ => notRefused_next _) fun _ => hgo

theorem State.startOverBuf_notRefused (s : State) (o : SeqOp) (n : Len) : NotRefused (s.startOverBuf o n) :=
  s.withBufByte_notRefused 0 fun _ => notRefused_next _

theorem execRd_notRefused (a : Addr) (s : State) : NotRefused (execRd a s) :=
  iteInduction (fun _ => iteInduction (fun _ => notRefused_next _) fun _ => notRefused_next _)
    fun _ => iteInduction (fun _ => s.withBufByte_notRefused _ fun _ => notRefused_next _) fun _ => notRefused_next _

/-- No transaction is refused: each goes on to a next state, or stops at a byte of BUF (30_encoding.md R54). -/
theorem exec_notRefused (i : Instr) (s : State) : NotRefused (exec i s) := by
  cases i with
  | rd a => exact execRd_notRefused a s
  | crcBuf =>
    apply State.hostWrite_notRefused
    exact iteInduction
      (fun _ => iteInduction (fun _ => notRefused_next _) fun _ => State.startOverBuf_notRefused _ _ _)
      fun _ => notRefused_next _
  | build =>
    apply State.hostWrite_notRefused
    exact iteInduction (fun _ => State.startOverBuf_notRefused _ _ _) fun _ => notRefused_next _
  | parse =>
    apply State.hostWrite_notRefused
    exact iteInduction (fun _ => State.startOverBuf_notRefused _ _ _) fun _ => notRefused_next _
  | wrBuf a v =>
    apply State.hostWrite_notRefused
    exact s.storeBufByte_notRefused _ v notRefused_next
  | _ =>
    apply State.hostWrite_notRefused
    exact notRefused_next _

/-! ### An illegal command -/

/-- CMDERR is bit 6 of STATUS (10_state.md R15). -/
theorem State.statusByte_cmderr (s : State) : s.statusByte.getLsbD 6 = s.cmderr := by
  simp only [State.statusByte, BitVec.getLsbD_append]
  simp

theorem exec_cmdIllegal_idle {s : State} (hb : s.busy = false) (c : Byte) :
    exec (.cmdIllegal c) s = .next (s.acceptCmd c).commandError := by
  simp only [exec, execCmdIllegal, State.hostWrite_idle _ hb]

/-- Settles O3: the read's word decodes by its address alone, and CMDERR is the effect of the illegal code. -/
theorem everyWordIsATransaction : Obligations.EveryWordIsATransaction := by
  refine ⟨decode_wellFormed, fun a d => ?_, fun c s hc hb => ⟨?_, ?_⟩, fun w s => exec_notRefused (decode w) s⟩
  · rw [decode_readWord, decode_readWord]
  · exact (decode_writeWord 0x000#10 c).trans (decodeCmd_of_illegal hc)
  · exact ⟨_, exec_cmdIllegal_idle hb c, rfl, State.statusByte_cmderr _⟩

end Sys2Proof.Machine
end

section
/-! CLAIM. The rows of opcode_table.json: each covers an interval of words, no two share a word, and the rows of a
mnemonic are those of the words that decode to its operation. -/

namespace Sys2Proof

/-! ### A row is an interval of words -/

/-- How many words the row has, when its mask is of the bits from some bit up. -/
def OpcodeRow.size (r : OpcodeRow) : Nat := 2 ^ 19 - r.mask.toNat

theorem opcodeRows_masks : ∀ r ∈ opcodeRows,
    ∃ k < 19, r.mask = BitVec.allOnes 19 <<< k ∧ r.size = 2 ^ k ∧ 2 ^ k ∣ r.matchBits.toNat := by
  decide

/-- A row of the table covers the words from its match bits on, `size` of them. -/
theorem covers_iff_of_mem {r : OpcodeRow} (hr : r ∈ opcodeRows) (w : Txn) :
    r.covers w = true ↔ r.matchBits.toNat ≤ w.toNat ∧ w.toNat < r.matchBits.toNat + r.size := by
  obtain ⟨k, -, hmask, hsize, q, hq⟩ := opcodeRows_masks r hr
  rw [OpcodeRow.covers, beq_iff_eq, ← BitVec.toNat_inj, hmask, toNat_and_highMask, hsize, hq, Nat.mul_comm (2 ^ k) q,
    Nat.mul_left_inj (Nat.two_pow_pos k).ne', Nat.div_eq_iff (Nat.two_pow_pos k)]
  have := Nat.two_pow_pos k
  omega

/-! ### No two rows share a word -/

/-- The two rows ask for different values of a bit that both masks hold. -/
def OpcodeRow.Conflicts (r q : OpcodeRow) : Prop := r.matchBits &&& q.mask ≠ q.matchBits &&& r.mask

theorem OpcodeRow.Conflicts.not_covers {r q : OpcodeRow} {w : Txn} (h : r.Conflicts q) (hr : r.covers w = true) :
    ¬q.covers w = true := by
  intro hq
  rw [OpcodeRow.covers, beq_iff_eq] at hr hq
  apply h
  rw [← hr, ← hq, BitVec.and_assoc, BitVec.and_assoc, BitVec.and_comm r.mask]

theorem opcodeRows_conflict : opcodeRows.Pairwise OpcodeRow.Conflicts := by
  unfold OpcodeRow.Conflicts
  decide

/-- A row that covers the word is the only one. -/
theorem filter_covers_eq {r : OpcodeRow} {w : Txn} (hr : r ∈ opcodeRows) (hw : r.covers w = true) :
    opcodeRows.filter (fun q => q.covers w) = [r] := by
  have hmem : r ∈ opcodeRows.filter fun q => q.covers w := List.mem_filter.2 ⟨hr, hw⟩
  have hpair := opcodeRows_conflict.filter fun q => q.covers w
  have hall : ∀ q ∈ opcodeRows.filter fun q => q.covers w, q.covers w = true := fun q hq => (List.mem_filter.1 hq).2
  match h : opcodeRows.filter fun q => q.covers w with
  | [] => simp [h] at hmem
  | [q] => simpa [h, eq_comm] using hmem
  | p :: q :: l =>
    rw [h] at hpair hall
    have hpq : p.Conflicts q := (List.pairwise_cons.1 hpair).1 q (by simp)
    exact absurd (hall q (by simp)) (hpq.not_covers (hall p (by simp)))

/-! ### The rows of an operation -/

/-- The rows all have the name `n`, and one after the other they cover the words from `lo` up to before `hi`. -/
def tiles (n : String) (hi : Nat) : List OpcodeRow → Nat → Bool
  | [], lo => lo == hi
  | r :: rs, lo => r.mnemonic == n && r.matchBits.toNat == lo && tiles n hi rs (lo + r.size)

theorem exists_of_tiles {n : String} {hi x : Nat} {rs : List OpcodeRow} {lo : Nat} (h : tiles n hi rs lo = true)
    (hlo : lo ≤ x) (hhi : x < hi) :
    ∃ r ∈ rs, r.mnemonic = n ∧ r.matchBits.toNat ≤ x ∧ x < r.matchBits.toNat + r.size := by
  induction rs generalizing lo with
  | nil =>
    have : lo = hi := eq_of_beq h
    omega
  | cons r rs ih =>
    simp only [tiles, Bool.and_eq_true, beq_iff_eq] at h
    obtain ⟨⟨hname, hmatch⟩, hrest⟩ := h
    by_cases hx : x < lo + r.size
    · exact ⟨r, by simp, hname, hmatch ▸ hlo, hmatch ▸ hx⟩
    · obtain ⟨q, hq, hcover⟩ := ih hrest (Nat.le_of_not_lt hx)
      exact ⟨q, by simp [hq], hcover⟩

/-- A row of the table covers the word and has the operation's name. -/
def HasRow (w : Txn) (i : Instr) : Prop := ∃ r ∈ opcodeRows, r.covers w = true ∧ r.mnemonic = i.mnemonic

/-- By the `len` rows from row `start` on, which are the operation's and cover the words from `lo` up to before `hi`. -/
theorem hasRow_of_rows {w : Txn} {i : Instr} (start len : Nat) {lo hi : Nat}
    (h : tiles i.mnemonic hi ((opcodeRows.drop start).take len) lo = true) (hlo : lo ≤ w.toNat) (hhi : w.toNat < hi) :
    HasRow w i := by
  obtain ⟨r, hr, hname, hcover⟩ := exists_of_tiles h hlo hhi
  have hmem : r ∈ opcodeRows := List.mem_of_mem_drop (List.mem_of_mem_take hr)
  exact ⟨r, hmem, (covers_iff_of_mem hmem w).2 hcover, hname⟩

/-- The row of an address: its words are the writes of any data to it (30_encoding.md R53). -/
theorem hasRow_of_addr {i : Instr} (n : String) (a : Addr) (d : Byte)
    (hmem : ⟨n, encodeWrite a 0#8, 0x7FF00#19⟩ ∈ opcodeRows) (hname : n = i.mnemonic) : HasRow (encodeWrite a d) i := by
  refine ⟨_, hmem, (covers_iff_of_mem hmem _).2 ?_, hname⟩
  have hd := d.isLt
  simp only [OpcodeRow.size, encodeWrite_toNat, BitVec.toNat_ofNat]
  omega

theorem decodeCmd_hasRow (d : Byte) : HasRow (encodeWrite 0x000#10 d) (decodeCmd d) := by
  have hd := d.isLt
  have hw : (encodeWrite 0x000#10 d).toNat = 0x40000 + d.toNat := encodeWrite_toNat _ d
  by_cases hc : illegalCode d
  · rw [decodeCmd_of_illegal hc]
    exact hasRow_of_rows 7 6 (lo := 0x40006) (hi := 0x40100) rfl (by omega) (by omega)
  · unfold decodeCmd
    split_ifs with h0 h1 h2 h3 h4 h5
    case neg => exact absurd (show 0x06 ≤ d.toNat by bv_omega) hc
    all_goals
      subst_vars
      unfold HasRow
      decide

theorem decodeWrite_hasRow (a : Addr) (d : Byte) : HasRow (encodeWrite a d) (decodeWrite a d) := by
  have ha := a.isLt
  have hd := d.isLt
  have hw := encodeWrite_toNat a d
  refine decodeWrite_induction (P := HasRow (encodeWrite a d)) (fun h => ?cmd) (fun h => ?ro) (fun h => ?lenLo)
    (fun h => ?lenHi) (fun h => ?expAddr) (fun h => ?data) (fun h => ?candLo) (fun h => ?candHi) (fun h => ?buf)
    fun h => ?rsvd
  case cmd => rw [h]; exact decodeCmd_hasRow d
  case ro =>
    rcases h with rfl | rfl | rfl | rfl
    · exact hasRow_of_addr "WR_RO" 0x001#10 d (by decide) rfl
    · exact hasRow_of_addr "WR_RO" 0x005#10 d (by decide) rfl
    · exact hasRow_of_addr "WR_RO" 0x006#10 d (by decide) rfl
    · exact hasRow_of_addr "WR_RO" 0x008#10 d (by decide) rfl
  case lenLo => rw [h]; exact hasRow_of_addr "WR_LEN_LO" 0x002#10 d (by decide) rfl
  case lenHi => rw [h]; exact hasRow_of_addr "WR_LEN_HI" 0x003#10 d (by decide) rfl
  case expAddr => rw [h]; exact hasRow_of_addr "WR_EXP_ADDR" 0x004#10 d (by decide) rfl
  case data => rw [h]; exact hasRow_of_addr "CRC_FEED" 0x007#10 d (by decide) rfl
  case candLo => rw [h]; exact hasRow_of_addr "WR_CAND_LO" 0x009#10 d (by decide) rfl
  case candHi => rw [h]; exact hasRow_of_addr "WR_CAND_HI" 0x00A#10 d (by decide) rfl
  case buf =>
    obtain ⟨hlo, hhi⟩ := h
    exact hasRow_of_rows 23 2 (lo := 0x50000) (hi := 0x60200) rfl (by omega) (by omega)
  case rsvd =>
    rcases h with ⟨hlo, hhi⟩ | hlo
    · exact hasRow_of_rows 25 6 (lo := 0x40B00) (hi := 0x50000) rfl (by omega) (by omega)
    · exact hasRow_of_rows 31 8 (lo := 0x60200) (hi := 0x80000) rfl (by omega) (by omega)

/-- Every word has a row of the operation it decodes to. -/
theorem decode_hasRow (w : Txn) : HasRow w (decode w) := by
  unfold decode
  split_ifs with hw
  · have hrow := decodeWrite_hasRow (fieldA w) (fieldD w)
    rwa [encodeWrite_fields hw] at hrow
  · have hlt : w.toNat < 2 ^ 18 := by simpa [fieldW_eq] using hw
    exact hasRow_of_rows 0 1 (lo := 0) (hi := 2 ^ 18) rfl (Nat.zero_le _) hlt

/-- Settles O5: a row of the word's operation covers it, and no other row does. -/
theorem opcodeRowsPartitionTheWords : Obligations.OpcodeRowsPartitionTheWords := by
  intro w
  obtain ⟨r, hr, hcovers, hname⟩ := decode_hasRow w
  rw [filter_covers_eq hr hcovers, List.map_singleton, hname]

end Sys2Proof
end

section
/-! CLAIM. Host programs: the `poll` loop, and what the lines `setlen` and `load` write. -/

namespace Sys2Proof.Machine

/-! ### The `poll` loop -/

/-- Settles O8, by the host's turn while busy and while idle. -/
theorem pollReadsStatusUntilNotBusy : Obligations.PollReadsStatusUntilNotBusy := by
  intro s rest r hp hs
  rw [step_of_sched hs]
  exact ⟨fun hb => hostTurn_poll_busy (s := s.setSched r) hp hb, fun hb => hostTurn_poll_idle (s := s.setSched r) hp hb⟩

/-! ### A program on the idle block -/

/-- With no schedule left and the block idle, the host's next word is what runs. -/
theorem step_txn_idle {s : State} {w : Txn} {rest : List HostOp} (hp : s.pending = .txn w :: rest) (hs : s.sched = [])
    (hb : s.busy = false) : step s = exec (decode w) (s.setPending rest) := by
  rw [step_of_no_sched hs, hb]
  exact hostTurn_txn hp

/-- LEN is the two bytes written to it (10_state.md R16). -/
theorem withLen_bytes (m n : Len) : withLenHi (withLenLo m (lenLo n)) (lenHi n) = n := by
  have hn := n.isLt
  have hm := m.isLt
  apply BitVec.eq_of_toNat_eq
  rw [withLenHi_toNat, withLenLo_toNat, lenLo_toNat, lenHi_toNat]
  omega

theorem step_wrLenLo_idle {s : State} {v : Byte} {rest : List HostOp}
    (hp : s.pending = .txn (encodeWrite 0x002#10 v) :: rest) (hs : s.sched = []) (hb : s.busy = false) :
    step s = .next ((s.setPending rest).setLen (withLenLo s.len v)) := by
  rw [step_txn_idle hp hs hb, decode_encodeWrite]
  exact exec_wrLenLo_idle (s := s.setPending rest) hb v

theorem step_wrLenHi_idle {s : State} {v : Byte} {rest : List HostOp}
    (hp : s.pending = .txn (encodeWrite 0x003#10 v) :: rest) (hs : s.sched = []) (hb : s.busy = false) :
    step s = .next ((s.setPending rest).setLen (withLenHi s.len v)) := by
  rw [step_txn_idle hp hs hb, decode_encodeWrite]
  exact exec_wrLenHi_idle (s := s.setPending rest) hb v

/-- `setlen n`, whatever follows it in the program. -/
theorem run_setlen {s : State} (n : Len) {rest : List HostOp} (hb : s.busy = false) (hs : s.sched = [])
    (hp : s.pending = (HostLine.setlen n).ops ++ rest) : run 2 s = .next { s with len := n, pending := rest } := by
  have hlo : step s = .next ((s.setPending (.txn (encodeWrite 0x003#10 (lenHi n)) :: rest)).setLen
      (withLenLo s.len (lenLo n))) := step_wrLenLo_idle hp hs hb
  rw [run_succ_of_next 1 hlo, run_one]
  refine (step_wrLenHi_idle (s := (s.setPending _).setLen _) rfl hs hb).trans ?_
  rw [State.setLen_len, withLen_bytes]
  rfl

/-! ### `load` -/

/-- BUF with the bytes `bs` stored from index `i` on, one after the other. -/
def Memory.store (m : Memory) (i : Nat) : List Byte → Memory
  | [] => m
  | b :: bs => (m.writeByte i b).store (i + 1) bs

theorem Memory.readByte_store_outside {m : Memory} {i j : Nat} {bs : List Byte} (h : j < i ∨ i + bs.length ≤ j) :
    (m.store i bs).readByte j = m.readByte j := by
  induction bs generalizing m i with
  | nil => rfl
  | cons b bs ih =>
    rw [List.length_cons] at h
    rw [Memory.store, ih (by omega), Memory.readByte_writeByte_other m b (by omega)]

theorem Memory.slice_store (m : Memory) (i : Nat) (bs : List Byte) : (m.store i bs).slice i bs.length = some bs := by
  induction bs generalizing m i with
  | nil => rfl
  | cons b bs ih =>
    refine Memory.slice_succ_eq_some.2 ⟨b, bs, ?_, ih _ _, rfl⟩
    rw [Memory.store, Memory.readByte_store_outside (.inl (Nat.lt_succ_self i)), Memory.readByte_writeByte_same]

theorem bufAddr_toNat {i : Nat} (hi : i < 258) : (bufAddr i).toNat = 0x100 + i := by
  simp only [bufAddr, BitVec.toNat_add, BitVec.toNat_ofNat]
  omega

theorem bufWindow_bufAddr {i : Nat} (hi : i < 258) : bufWindow (bufAddr i) := by
  have h := bufAddr_toNat hi
  simp only [bufWindow]
  omega

theorem bufIndex_bufAddr {i : Nat} (hi : i < 258) : bufIndex (bufAddr i) = i := by
  rw [bufIndex_of_window (bufWindow_bufAddr hi), bufAddr_toNat hi]
  omega

theorem step_wrBuf_idle {s : State} {i : Nat} {b : Byte} {rest : List HostOp}
    (hp : s.pending = .txn (encodeWrite (bufAddr i) b) :: rest) (hs : s.sched = []) (hb : s.busy = false)
    (hi : i < 258) : step s = .next ((s.setPending rest).writeBuf i b) := by
  have ha := bufWindow_bufAddr hi
  rw [step_txn_idle hp hs hb, decode_encodeWrite, decodeWrite_of_bufWindow b ha,
    exec_wrBuf_idle (s := s.setPending rest) hb ha, bufIndex_bufAddr hi]

/-- `load i, bs`, whatever follows it in the program. -/
theorem run_load {s : State} {i : Nat} {bs : List Byte} {rest : List HostOp} (hb : s.busy = false) (hs : s.sched = [])
    (hp : s.pending = loadOps i bs ++ rest) (hi : i + bs.length ≤ 258) :
    run bs.length s = .next { s with buf := s.buf.store i bs, pending := rest } := by
  induction bs generalizing s i with
  | nil =>
    cases hp
    rfl
  | cons b bs ih =>
    rw [List.length_cons] at hi ⊢
    have hstep : step s = .next ((s.setPending (loadOps (i + 1) bs ++ rest)).writeBuf i b) :=
      step_wrBuf_idle hp hs hb (by omega)
    rw [run_succ_of_next _ hstep]
    exact ih hb hs rfl (by omega)

/-- Settles O47: each line alone is the run of a program that starts with it. -/
theorem setlenAndLoadWriteTheirTargets : Obligations.SetlenAndLoadWriteTheirTargets := by
  refine ⟨fun s n hb => ?_, fun s i bs hb hi => ⟨s.buf.store i bs, ?_, s.buf.slice_store i bs, fun j hj => ?_⟩⟩
  · exact run_setlen n hb rfl (List.append_nil _).symm
  · exact run_load hb rfl (List.append_nil _).symm hi
  · exact Memory.readByte_store_outside hj

end Sys2Proof.Machine
end

section
/-! CLAIM. The checksum as arithmetic: the byte-wise form, the residue, and a flipped bit. -/

namespace Sys2Proof.Machine

/-! ### The byte-wise form -/

theorem crcBits_eq_foldl (c : Crc) (b : Byte) (j : Nat) :
    crcBits c b j = (List.range j).foldl (fun r i => crcStep r (b.getLsbD i)) c := by
  induction j with
  | zero => rfl
  | succ j ih => rw [crcBits_succ, ih, List.range_succ, List.foldl_append]; rfl

/-- A round on a register with data added to it takes the data's lowest bit, and the rest of the data moves down with
the register (40_crc.md R67, R69). -/
theorem crcRound_xor (c y : Crc) : crcRound (c ^^^ y) = crcStep c (y.getLsbD 0) ^^^ (y >>> 1) := by
  unfold crcRound crcStep
  rw [BitVec.getLsbD_xor, BitVec.ushiftRight_xor_distrib]
  split_ifs
  · ac_rfl
  · exact BitVec.xor_zero

theorem getLsbD_setWidth_shift (b : Byte) (j : Nat) : (b.setWidth 16 >>> j).getLsbD 0 = b.getLsbD j := by
  rw [BitVec.getLsbD_ushiftRight, BitVec.getLsbD_setWidth, Nat.add_zero]
  by_cases hj : j < 16
  · simp [hj]
  · simp [BitVec.getLsbD_of_ge b j (by omega)]

/-- After `j` rounds the register is the one of the first `j` bit steps, with the bits still to come added to it. -/
theorem iterate_crcRound_xor (c : Crc) (b : Byte) (j : Nat) :
    crcRound^[j] (c ^^^ b.setWidth 16) = crcBits c b j ^^^ (b.setWidth 16 >>> j) := by
  induction j with
  | zero => rw [BitVec.ushiftRight_zero]; rfl
  | succ j ih =>
    rw [Function.iterate_succ_apply', ih, crcRound_xor, getLsbD_setWidth_shift, crcBits_succ, BitVec.shiftRight_add]

theorem crcByte_eq_crcByteWise (c : Crc) (b : Byte) : crcByte c b = crcByteWise c b := by
  have hnone : b.setWidth 16 >>> 8 = 0#16 := by
    ext i hi
    simp
  exact ((iterate_crcRound_xor c b 8).trans (by rw [hnone, BitVec.xor_zero, crcBits_eight])).symm

/-- Settles O26: both forms by how many bits have been taken. -/
theorem byteStepEqualsByteWiseForm : Obligations.ByteStepEqualsByteWiseForm :=
  ⟨fun c b => ⟨crcBits_eq_foldl c b 8, crcByte_eq_crcByteWise c b⟩, by decide⟩

/-! ### The residue -/

/-- Rounds that only take zeros out shift the register. -/
theorem iterate_crcRound_of_low_zero {x : Crc} {n : Nat} (h : ∀ i < n, x.getLsbD i = false) :
    crcRound^[n] x = x >>> n := by
  induction n with
  | zero => exact x.ushiftRight_zero.symm
  | succ n ih =>
    have hbit : (x >>> n).getLsbD 0 = false := by simpa using h n (Nat.lt_succ_self n)
    rw [Function.iterate_succ_apply', ih fun i hi => h i (Nat.lt_succ_of_lt hi), crcRound, hbit,
      BitVec.shiftRight_add]
    exact BitVec.xor_zero

/-- Feeding the register its own low byte leaves its high byte. -/
theorem crcByte_crcLo (c : Crc) : crcByte c (crcLo c) = (crcHi c).setWidth 16 := by
  have hlow : ∀ i < 8, (c ^^^ (crcLo c).setWidth 16).getLsbD i = false := fun i hi => by
    simp [crcLo, hi, Nat.lt_trans hi (by decide : 8 < 16)]
  rw [crcByte_eq_crcByteWise, crcByteWise]
  refine (iterate_crcRound_of_low_zero hlow).trans ?_
  ext i hi
  have htop : c.getLsbD (8 + i) = true → i < 8 := fun hc => by
    have := BitVec.lt_of_getLsbD hc
    omega
  simpa [crcLo, crcHi] using htop

/-- Feeding a register that is one byte that byte leaves zero. -/
theorem crcByte_setWidth_self (b : Byte) : crcByte (b.setWidth 16) b = 0#16 := by
  rw [crcByte_eq_crcByteWise, crcByteWise, BitVec.xor_self]
  exact iterate_crcRound_of_low_zero (n := 8) fun i _ => BitVec.getLsbD_zero

theorem crc16_append_compute (s : List Byte) : crc16 (s ++ trailerBytes (compute s)) = 0x0000#16 := by
  have hfeed : crc16 (s ++ trailerBytes (compute s)) =
      crcByte (crcByte (crc16 s) (crcLo (crc16 s))) (crcHi (crc16 s)) := crc16_append _ _
  rw [hfeed, crcByte_crcLo, crcByte_setWidth_self]

/-- Settles O27: a built frame is such a sequence. -/
theorem checksumResidueIsZero : Obligations.ChecksumResidueIsZero :=
  ⟨crc16_append_compute, fun a c ps => crc16_append_compute ([a, c] ++ ps)⟩

/-! ### A flipped bit -/

/-- A round can be undone: its top bit tells the bit that went out, the others the bits that moved. -/
theorem crcRound_injective : Function.Injective crcRound := by
  intro x y h
  have hout : ∀ z : Crc, (crcRound z).getLsbD 15 = z.getLsbD 0 := fun z => by
    unfold crcRound crcPoly
    cases hz : z.getLsbD 0 <;> simp
  have hbit : x.getLsbD 0 = y.getLsbD 0 := by rw [← hout x, h, hout y]
  have hshift : x >>> 1 = y >>> 1 := by
    unfold crcRound at h
    rw [hbit] at h
    exact (BitVec.xor_left_inj _).1 h
  refine BitVec.eq_of_getLsbD_eq fun i hi => ?_
  cases i with
  | zero => exact hbit
  | succ i => simpa [Nat.add_comm] using congrArg (fun z => z.getLsbD i) hshift

theorem crcByte_injective_left (b : Byte) : Function.Injective fun c => crcByte c b := by
  intro c c' h
  simp only [crcByte_eq_crcByteWise] at h
  exact (BitVec.xor_left_inj _).1 (crcRound_injective.iterate 8 h)

theorem crcByte_injective_right (c : Crc) : Function.Injective (crcByte c) := by
  intro b b' h
  simp only [crcByte_eq_crcByteWise] at h
  have hw : b.setWidth 16 = b'.setWidth 16 := (BitVec.xor_right_inj _).1 (crcRound_injective.iterate 8 h)
  bv_omega

theorem foldl_crcByte_injective (q : List Byte) : Function.Injective fun c => q.foldl crcByte c := by
  induction q with
  | nil => exact Function.injective_id
  | cons b q ih => exact ih.comp (crcByte_injective_left b)

theorem crcBytes_injective : Function.Injective crcBytes := by
  intro c c' h
  obtain ⟨hlo, hhi⟩ := Prod.mk.inj h
  have hlo : c.toNat % 256 = c'.toNat % 256 := by rw [← crcLo_toNat, ← crcLo_toNat]; exact congrArg _ hlo
  have hhi : c.toNat / 256 = c'.toNat / 256 := by rw [← crcHi_toNat, ← crcHi_toNat]; exact congrArg _ hhi
  exact BitVec.eq_of_toNat_eq (by omega)

theorem flip_ne {j : Nat} (b : Byte) (hj : j < 8) : b ^^^ (1#8 <<< j) ≠ b := by
  intro h
  have hbit := congrArg (fun x => x.getLsbD j) h
  simp [hj] at hbit

/-- Settles O28: the byte step is injective in the byte, and the bytes after it in the register. -/
theorem oneBitFlipChangesTheChecksum : Obligations.OneBitFlipChangesTheChecksum := by
  intro p q b j hj h
  have hcrc : (b :: q).foldl crcByte (crc16 p) = ((b ^^^ (1#8 <<< j)) :: q).foldl crcByte (crc16 p) := by
    rw [← crc16_append, ← crc16_append]
    exact crcBytes_injective h
  exact flip_ne b hj (crcByte_injective_right _ (foldl_crcByte_injective q hcrc)).symm

end Sys2Proof.Machine
end

section
/-! CLAIM. The CRC commands at acceptance. -/

namespace Sys2Proof.Machine

/-! ### What each CRC command does on the idle block -/

/-- The word of a write of CRC_DATA (30_encoding.md R53, R55). -/
theorem decode_dataWord (v : Byte) : decode (0x40700#19 ||| v.setWidth 19) = .crcFeed v :=
  (congrArg decode (encodeWrite_zero_or 0x007#10 v)).symm.trans (decode_encodeWrite _ _)

theorem exec_crcInit_idle {s : State} (hb : s.busy = false) :
    exec .crcInit s = .next (s.acceptCmd 0x01#8).loadCrc.complete := by
  simp only [exec, execCrcInit, State.hostWrite_idle _ hb]

theorem exec_crcMatch_idle {s : State} (hb : s.busy = false) :
    exec .crcMatch s = .next ((s.acceptCmd 0x03#8).setMatch s.matchFlag).complete := by
  simp only [exec, execCrcMatch, State.hostWrite_idle _ hb]

theorem exec_crcFeed_idle {s : State} (hb : s.busy = false) (v : Byte) :
    exec (.crcFeed v) s = .next (s.acceptData.startFeed .feedOp 1#9 v) := by
  simp only [exec, execCrcFeed, State.hostWrite_idle _ hb]

theorem exec_crcBuf_rejected {s : State} (hb : s.busy = false) (hl : 258 < s.len.toNat) :
    exec .crcBuf s = .next (s.acceptCmd 0x02#8).commandError := by
  have hr : ¬s.crcBufInRange = true := fun h => Nat.not_le_of_lt hl ((crcBufInRange_iff s).1 h)
  simp only [exec, execCrcBuf, State.hostWrite_idle _ hb, if_neg hr]

theorem exec_crcBuf_empty {s : State} (hb : s.busy = false) (hl : s.len.toNat = 0) :
    exec .crcBuf s = .next (s.acceptCmd 0x02#8).loadCrc.complete := by
  have hr : s.crcBufInRange = true := (crcBufInRange_iff s).2 (by omega)
  have hz : s.len = 0#9 := BitVec.eq_of_toNat_eq hl
  simp only [exec, execCrcBuf, State.hostWrite_idle _ hb, if_pos hr, if_pos hz]

/-- Past its range check CRC_BUF starts over BUF, where BUF[0] decides (40_crc.md R75). -/
theorem exec_crcBuf_inRange {s : State} (hb : s.busy = false) (h1 : 1 ≤ s.len.toNat) (hl : s.len.toNat ≤ 258) :
    exec .crcBuf s = (s.acceptCmd 0x02#8).startOverBuf .crcBuf s.len := by
  have hr : s.crcBufInRange = true := (crcBufInRange_iff s).2 hl
  have hz : s.len ≠ 0#9 := fun h => by simp [h] at h1
  simp only [exec, execCrcBuf, State.hostWrite_idle _ hb, if_pos hr, if_neg hz]

theorem exec_crcBuf_started {s : State} {b : Byte} (hb : s.busy = false) (h1 : 1 ≤ s.len.toNat)
    (hl : s.len.toNat ≤ 258) (h0 : s.buf.readByte 0 = some b) :
    exec .crcBuf s = .next ((s.acceptCmd 0x02#8).loadCrc.startFeed .crcBuf s.len b) :=
  (exec_crcBuf_inRange hb h1 hl).trans (State.startOverBuf_of_read _ _ h0)

theorem State.readByte_of_not_wbuf {s : State} {i : Nat} (h : s.wbuf i = false) : s.buf.readByte i = none := by
  simpa [State.wbuf] using h

/-! ### Acceptance -/

/-- Settles O31. -/
theorem crcInitLoadsTheInitialValue : Obligations.CrcInitLoadsTheInitialValue :=
  fun _ hb => ⟨decode_cmdWord 0x01#8, exec_crcInit_idle hb⟩

/-- The comparison as arithmetic: low byte with low byte, high byte with high byte (40_crc.md R80). -/
theorem State.matchFlag_eq (s : State) :
    s.matchFlag = decide (s.candLo.toNat = s.crc.toNat % 256 ∧ s.candHi.toNat = s.crc.toNat / 256) := by
  rw [Bool.eq_iff_iff, decide_eq_true_iff, ← crcLo_toNat, ← crcHi_toNat, ← BitVec.toNat_eq, ← BitVec.toNat_eq]
  exact (crcMatches_iff _ _).trans Prod.ext_iff

/-- Settles O32. -/
theorem crcMatchComparesLowThenHigh : Obligations.CrcMatchComparesLowThenHigh := by
  intro s hb
  refine ⟨decode_cmdWord 0x03#8, ?_⟩
  rw [← State.matchFlag_eq]
  exact exec_crcMatch_idle hb

/-- Settles O33. -/
theorem crcFeedIsAccepted : Obligations.CrcFeedIsAccepted := by
  intro s v hb
  have hword : encodeWrite 0x007#10 v = BitVec.ofNat 19 (0x40700 + v.toNat) := encodeWrite_eq_ofNat 0x007#10 v
  exact ⟨(congrArg decode hword).symm.trans (decode_encodeWrite _ _), exec_crcFeed_idle hb v⟩

/-- Settles O34, by the range of LEN and whether BUF[0] is written. -/
theorem crcBufIsAccepted : Obligations.CrcBufIsAccepted := by
  intro s hb
  refine ⟨decode_cmdWord 0x02#8, exec_crcBuf_rejected hb, exec_crcBuf_empty hb,
    fun h1 hl b h0 => exec_crcBuf_started hb h1 hl h0, fun h1 hl hw => ?_⟩
  exact (exec_crcBuf_inRange hb h1 hl).trans
    (State.withBufByte_of_unwritten _ (by decide) (State.readByte_of_not_wbuf hw))

end Sys2Proof.Machine
end

section
/-! SUPPORT. A feeding window of the sequencer alone: the state at each bit of each byte, and the register it ends with
(10_state.md R31, R32). -/

namespace Sys2Proof.Machine

/-! ### The sequencer's micro-steps one after the other -/

theorem sequencerRun_succ_of_next {s t : State} (n : Nat) (h : s.sequencerStep = .next t) :
    sequencerRun (n + 1) s = sequencerRun n t := by
  rw [sequencerRun, h]

theorem sequencerRun_one (s : State) : sequencerRun 1 s = s.sequencerStep := by
  rw [sequencerRun]
  cases s.sequencerStep <;> rfl

theorem sequencerRun_succ_eq_next {s u : State} {n : Nat} (h : sequencerRun (n + 1) s = .next u) :
    ∃ t, s.sequencerStep = .next t ∧ sequencerRun n t = .next u := by
  rw [sequencerRun] at h
  cases hs : s.sequencerStep with
  | next t => rw [hs] at h; exact ⟨t, rfl, h⟩
  | fault e => rw [hs] at h; cases h
  | refused e => rw [hs] at h; cases h

theorem sequencerRun_add_of_next {s t : State} {m : Nat} (n : Nat) (h : sequencerRun m s = .next t) :
    sequencerRun (m + n) s = sequencerRun n t := by
  induction m generalizing s with
  | zero => cases h; rw [Nat.zero_add]
  | succ m ih =>
    obtain ⟨u, hu, h⟩ := sequencerRun_succ_eq_next h
    rw [Nat.add_right_comm, sequencerRun_succ_of_next _ hu, ih h]

/-- A slice starts with the byte at its index. -/
theorem Memory.readByte_of_slice_cons {m : Memory} {i n : Nat} {b : Byte} {f : List Byte}
    (h : m.slice i n = some (b :: f)) : m.readByte i = some b := by
  obtain ⟨hlen, hbytes⟩ := Memory.slice_eq_some_iff.1 h
  simpa using hbytes 0 (hlen ▸ Nat.succ_pos _)

/-! ### The states of a feeding window -/

/-- In phase FEED, `j` bits into the byte `b` at index `i`, on a register that held `c` before that byte (10_state.md
R28, R32). -/
def State.atFeed (s : State) (c : Crc) (b : Byte) (i : Len) (j : Nat) : State :=
  { s with phase := .feed, crc := crcBits c b j, sreg := b >>> j, idx := i, k := BitVec.ofNat 3 j }

/-- In phase FINISH, every byte fed, with the register at `c` (10_state.md R32). -/
def State.fed (s : State) (c : Crc) : State :=
  { s with phase := .finish, crc := c, sreg := 0x00#8, idx := s.endi, k := 0#3 }

/-- Acceptance puts the sequencer before the first bit of its first byte (10_state.md R34). -/
theorem State.startFeed_eq_atFeed (s : State) (o : SeqOp) (n : Len) (b : Byte) :
    s.startFeed o n b = { s with op := o, endi := n }.atFeed s.crc b 0#9 0 := rfl

section
variable {s : State} {c : Crc} {b : Byte} {i : Len} {j : Nat}

theorem State.sequencerStep_atFeed_bit (hj : j < 7) :
    (s.atFeed c b i j).sequencerStep = .next (s.atFeed c b i (j + 1)) := by
  have hk : (BitVec.ofNat 3 j) ≠ 7#3 := by bv_omega
  have hbit : (s.atFeed c b i j).feedBit = s.atFeed c b i (j + 1) := by
    simp only [State.feedBit, State.atFeed, getLsbD_shift, crcBits_succ, BitVec.shiftRight_add, BitVec.ofNat_add]
  rw [State.sequencerStep_of_feed rfl, State.feedStep_bit hk, hbit]

/-- The bits of a byte but its last. -/
theorem sequencerRun_atFeed_bits (hj : j ≤ 7) :
    sequencerRun j (s.atFeed c b i 0) = .next (s.atFeed c b i j) := by
  induction j with
  | zero => rfl
  | succ j ih =>
    rw [sequencerRun_add_of_next 1 (ih (Nat.le_of_succ_le hj)), sequencerRun_one]
    exact State.sequencerStep_atFeed_bit hj

/-- The register after the last bit of a byte (40_crc.md R69). -/
theorem crcStep_atFeed_last : crcStep (s.atFeed c b i 7).crc ((s.atFeed c b i 7).sreg.getLsbD 0) = crcByte c b := by
  simp only [State.atFeed, getLsbD_shift]
  exact (crcBits_succ c b 7).symm

/-- The last byte, from its first bit to the finish micro-step. -/
theorem sequencerRun_atFeed_lastByte (he : i + 1#9 = s.endi) :
    sequencerRun 8 (s.atFeed c b i 0) = .next (s.fed (crcByte c b)) := by
  have hend : (s.atFeed c b i 7).feedLastBit = s.fed (crcByte c b) := by
    unfold State.feedLastBit
    rw [crcStep_atFeed_last]
    simp only [State.atFeed, State.fed, he, ← BitVec.shiftRight_add, Nat.reduceAdd, byte_shift_eight]
  rw [sequencerRun_add_of_next 1 (sequencerRun_atFeed_bits (Nat.le_refl 7)), sequencerRun_one,
    State.sequencerStep_of_feed rfl, State.feedStep_lastBit rfl he, hend]

/-- A byte with one after it, from its first bit to the next one's. -/
theorem sequencerRun_atFeed_nextByte {b' : Byte} (he : i + 1#9 ≠ s.endi) (hi : (i + 1#9).toNat < Config.bufSize)
    (hb : s.buf.readByte (i + 1#9).toNat = some b') :
    sequencerRun 8 (s.atFeed c b i 0) = .next (s.atFeed (crcByte c b) b' (i + 1#9) 0) := by
  have hnext : (s.atFeed c b i 7).feedNextByte b' = s.atFeed (crcByte c b) b' (i + 1#9) 0 := by
    unfold State.feedNextByte
    rw [crcStep_atFeed_last]
    rfl
  rw [sequencerRun_add_of_next 1 (sequencerRun_atFeed_bits (Nat.le_refl 7)), sequencerRun_one,
    State.sequencerStep_of_feed rfl, State.feedStep_byteEnd rfl he, ← hnext]
  exact State.withBufByte_of_read _ hi hb

end

/-- All the bytes of a window over BUF: eight micro-steps each, and the register takes them in order (10_state.md R31,
R32). -/
theorem sequencerRun_atFeed_bytes {s : State} {c : Crc} {b : Byte} {f : List Byte} {i : Nat}
    (hf : s.buf.slice i (f.length + 1) = some (b :: f)) (he : s.endi.toNat = i + (f.length + 1))
    (hl : s.endi.toNat ≤ 258) :
    sequencerRun (8 * (f.length + 1)) (s.atFeed c b (BitVec.ofNat 9 i) 0) =
      .next (s.fed ((b :: f).foldl crcByte c)) := by
  induction f generalizing i b c with
  | nil =>
    have hend : BitVec.ofNat 9 i + 1#9 = s.endi := by
      simp only [List.length_nil] at he
      bv_omega
    exact sequencerRun_atFeed_lastByte hend
  | cons b' f ih =>
    rw [List.length_cons] at hf he ⊢
    obtain ⟨_, _, -, hrest, hcons⟩ := Memory.slice_succ_eq_some.1 hf
    cases hcons
    have hidx : BitVec.ofNat 9 i + 1#9 = BitVec.ofNat 9 (i + 1) := (BitVec.ofNat_add i 1).symm
    have hnat : (BitVec.ofNat 9 i + 1#9).toNat = i + 1 := by bv_omega
    have hne : BitVec.ofNat 9 i + 1#9 ≠ s.endi := by bv_omega
    have hbyte := sequencerRun_atFeed_nextByte (c := c) (b := b) hne
      (by rw [hnat]; exact Nat.lt_succ_of_le (by omega)) (hnat ▸ Memory.readByte_of_slice_cons hrest)
    rw [Nat.mul_add 8 _ 1, Nat.add_comm, sequencerRun_add_of_next _ hbyte, hidx]
    exact ih hrest (by omega)

/-! ### The windows of CRC_FEED and CRC_BUF -/

/-- The finish micro-step of CRC_FEED and CRC_BUF ends the window as it stands (40_crc.md R74, R76). -/
theorem sequencerRun_fed_settle {s t : State} {c : Crc} {n : Nat} (ho : t.op = .feedOp ∨ t.op = .crcBuf)
    (h : sequencerRun n s = .next (t.fed c)) : sequencerRun (n + 1) s = .next (t.fed c).settle := by
  rw [sequencerRun_add_of_next 1 h, sequencerRun_one, State.sequencerStep_of_finish rfl]
  exact State.finishStep_crc ho

/-- CRC_FEED's window: nine micro-steps, one byte step (40_crc.md R74). -/
theorem sequencerRun_crcFeed (s : State) (v : Byte) :
    sequencerRun 9 (s.startFeed .feedOp 1#9 v) =
      .next ({ s with op := .feedOp, endi := 1#9 }.fed (crcByte s.crc v)).settle := by
  rw [State.startFeed_eq_atFeed]
  exact sequencerRun_fed_settle (.inl rfl) (sequencerRun_atFeed_lastByte rfl)

/-- CRC_BUF's window: the register ends as the checksum of BUF[0..n-1] (40_crc.md R76). -/
theorem sequencerRun_crcBuf {s : State} {n : Len} {b : Byte} {f : List Byte}
    (hf : s.buf.slice 0 n.toNat = some (b :: f)) (hl : n.toNat ≤ 258) :
    sequencerRun (8 * n.toNat + 1) (s.loadCrc.startFeed .crcBuf n b) =
      .next ({ s with op := .crcBuf, endi := n }.fed (crc16 (b :: f))).settle := by
  have hn : f.length + 1 = n.toNat := Memory.slice_length hf
  rw [State.startFeed_eq_atFeed, ← hn]
  rw [← hn] at hf
  exact sequencerRun_fed_settle (t := { s.loadCrc with op := .crcBuf, endi := n }) (.inr rfl)
    (sequencerRun_atFeed_bytes (i := 0) hf (hn.symm.trans (Nat.zero_add _).symm) hl)

end Sys2Proof.Machine
end

section
/-! CLAIM. CRC_FEED and CRC_BUF as a whole: the schedule gives the sequencer every turn of the window. -/

namespace Sys2Proof.Machine

/-! ### A scheduled window -/

/-- A micro-step goes the same way under any schedule, and leaves it. -/
theorem State.sequencerStep_setSched_of_next {s u : State} (h : s.sequencerStep = .next u) (l : List Agent) :
    (s.setSched l).sequencerStep = .next (u.setSched l) := by
  refine (State.sequencerStep_setHostSide_of_next h s.ovr s.pending l s.results s.draws).trans ?_
  rw [State.sequencerStep_keeps_hostSide h]
  rfl

/-- Where the schedule gives the sequencer the next turns, the machine runs its micro-steps. -/
theorem run_of_sequencerRun {s u : State} {n : Nat} (h : sequencerRun n s = .next u) (r : List Agent) :
    run n (s.setSched (List.replicate n .sequencer ++ r)) = .next (u.setSched r) := by
  induction n generalizing s with
  | zero => cases h; rfl
  | succ n ih =>
    obtain ⟨t, ht, h⟩ := sequencerRun_succ_eq_next h
    have hstep : step (s.setSched (List.replicate (n + 1) .sequencer ++ r)) =
        .next (t.setSched (List.replicate n .sequencer ++ r)) :=
      (step_of_sequencer rfl).trans (State.sequencerStep_setSched_of_next ht _)
    rw [run_succ_of_next n hstep]
    exact ih h

/-- A host turn that starts an operation, and then turns of the sequencer. -/
theorem run_start_of_sequencerRun {s t u : State} {w : Txn} {n : Nat}
    (hstart : ∀ l, exec (decode w) (s.setSched l) = .next (t.setSched l)) (h : sequencerRun n t = .next u)
    (r : List Agent) :
    run (n + 1) { s with pending := .txn w :: s.pending, sched := .host :: (List.replicate n .sequencer ++ r) } =
      .next (u.setSched r) := by
  have hstep : step { s with pending := .txn w :: s.pending, sched := .host :: (List.replicate n .sequencer ++ r) } =
      .next (t.setSched (List.replicate n .sequencer ++ r)) := (step_of_host rfl rfl).trans (hstart _)
  rw [run_succ_of_next n hstep]
  exact run_of_sequencerRun h r

/-! ### CRC_FEED -/

theorem exec_dataWord_idle {s : State} (hb : s.busy = false) (v : Byte) :
    exec (decode (0x40700#19 ||| v.setWidth 19)) s = .next (s.acceptData.startFeed .feedOp 1#9 v) := by
  rw [decode_dataWord]
  exact exec_crcFeed_idle hb v

/-- STATUS of a busy block with every flag clear (10_state.md R15). -/
theorem State.statusByte_of_busy_clear {s : State} (hb : s.busy = true) (hd : s.done = false) (he : s.err = .noError)
    (hm : s.matched = false) (hs : s.sent = false) (hc : s.cmderr = false) (ho : s.ovr = false) :
    s.statusByte = 0x01#8 := by
  rw [State.statusByte, hb, hd, he, hm, hs, hc, ho]
  rfl

/-- From its acceptance to its finish micro-step CRC_FEED is busy with every flag clear (40_crc.md R74). -/
theorem sequencerRun_crcFeed_status (s : State) (v : Byte) {m : Nat} (hm : m < 9) :
    ∃ t, sequencerRun m (s.acceptData.startFeed .feedOp 1#9 v) = .next t ∧ t.statusByte = 0x01#8 := by
  rw [State.startFeed_eq_atFeed]
  rcases Nat.lt_or_ge m 8 with hbit | hend
  · exact ⟨_, sequencerRun_atFeed_bits (Nat.le_of_lt_succ hbit),
      State.statusByte_of_busy_clear rfl rfl rfl rfl rfl rfl rfl⟩
  · obtain rfl : m = 8 := by omega
    exact ⟨_, sequencerRun_atFeed_lastByte rfl, State.statusByte_of_busy_clear rfl rfl rfl rfl rfl rfl rfl⟩

/-- Settles O41: the window at each of its micro-steps, and at its end. -/
theorem crcFeedRunsToItsAtomicEffect : Obligations.CrcFeedRunsToItsAtomicEffect := by
  intro s v r hb
  have hstart (l : List Agent) := exec_dataWord_idle (s := s.setSched l) hb v
  refine ⟨fun m hm => ?_, ?_⟩
  · obtain ⟨t, ht, hstatus⟩ := sequencerRun_crcFeed_status s v hm
    have hturns : List.replicate 9 Agent.sequencer ++ r =
        List.replicate m .sequencer ++ (List.replicate (9 - m) .sequencer ++ r) := by
      rw [← List.append_assoc, List.replicate_append_replicate, Nat.add_sub_cancel' (Nat.le_of_lt hm)]
    exact ⟨t.setSched (List.replicate (9 - m) .sequencer ++ r), hturns ▸ run_start_of_sequencerRun hstart ht _, hstatus⟩
  · refine (run_start_of_sequencerRun hstart (sequencerRun_crcFeed s.acceptData v) r).trans ?_
    rw [s.idle_iff.1 hb]
    rfl

/-! ### CRC_BUF -/

/-- Settles O42: BUF[0] starts the window, and its bytes are the sequence. -/
theorem crcBufRunsToItsAtomicEffect : Obligations.CrcBufRunsToItsAtomicEffect := by
  intro s f r hb h1 hl hf
  obtain ⟨b, g, rfl⟩ : ∃ b g, f = b :: g := List.exists_cons_of_length_pos (Memory.slice_length hf ▸ h1)
  have h0 := Memory.readByte_of_slice_cons hf
  have hstart (l : List Agent) : exec (decode 0x40002#19) (s.setSched l) =
      .next (((s.acceptCmd 0x02#8).loadCrc.startFeed .crcBuf s.len b).setSched l) := by
    rw [show decode 0x40002#19 = .crcBuf from decode_cmdWord 0x02#8]
    exact exec_crcBuf_started (s := s.setSched l) hb h1 hl h0
  refine (run_start_of_sequencerRun hstart (sequencerRun_crcBuf (s := s.acceptCmd 0x02#8) hf hl) r).trans ?_
  rw [s.idle_iff.1 hb]
  rfl

end Sys2Proof.Machine
end

section
/-! CLAIM. Host programs under every schedule without a reset: what a run comes to, the `poll` at a window's end, and
the two ways to a checksum. -/

namespace Sys2Proof.Machine

/-! ### What a run comes to -/

/-- The run of `s` comes to `t`. -/
def Reaches (s t : State) : Prop := ∃ n, run n s = .next t

theorem Reaches.refl (s : State) : Reaches s s := ⟨0, rfl⟩

theorem Reaches.of_step {s t : State} (h : step s = .next t) : Reaches s t := ⟨1, (run_one s).trans h⟩

theorem Reaches.trans {s t u : State} (h : Reaches s t) (h' : Reaches t u) : Reaches s u := by
  obtain ⟨m, hm⟩ := h
  obtain ⟨n, hn⟩ := h'
  exact ⟨m + n, (run_add_of_next n hm).trans hn⟩

/-- The block is idle, the host has `ops` to do, and no reset event is scheduled. -/
structure Ready (s : State) (ops : List HostOp) : Prop where
  idle : s.busy = false
  noReset : .reset ∉ s.sched
  pending : s.pending = ops

/-- On the idle block the host's next transaction is what happens, whatever turns the schedule gives before it. -/
theorem Ready.reaches_txn {s : State} {w : Txn} {rest : List HostOp} (h : Ready s (.txn w :: rest)) :
    ∃ l, Ready ((s.setPending rest).setSched l) rest ∧
      ∀ t, exec (decode w) ((s.setPending rest).setSched l) = .next t → Reaches s t := by
  obtain ⟨hb, hl, hp⟩ := h
  generalize hs : s.sched = l at hl
  induction l generalizing s with
  | nil =>
    refine ⟨[], ⟨hb, hl, rfl⟩, fun t ht => .of_step ?_⟩
    rw [step_txn_idle hp hs hb, ← ht, ← hs]
    rfl
  | cons a l ih =>
    obtain ⟨ha, hrest⟩ := not_or.1 (mt List.mem_cons.2 hl)
    cases a with
    | reset => exact absurd rfl ha
    | host => exact ⟨l, ⟨hb, hrest, rfl⟩, fun t ht => .of_step ((step_of_host hp hs).trans ht)⟩
    | sequencer =>
      have hwait : step s = .next (s.setSched l) :=
        (step_of_sequencer hs).trans (State.sequencerStep_of_idle (s.idle_iff.1 hb))
      obtain ⟨l', hready, hrun⟩ := ih (s := s.setSched l) hb hp rfl hrest
      exact ⟨l', hready, fun t ht => (Reaches.of_step hwait).trans (hrun t ht)⟩

/-- A transaction that completes at once on the idle block, and leaves it idle. -/
theorem Ready.reaches_immediate {s : State} {w : Txn} {i : Instr} {rest : List HostOp} {f : State → State}
    (h : Ready s (.txn w :: rest)) (hw : decode w = i) (hexec : ∀ u, u.busy = false → exec i u = .next (f u))
    (hf : ∀ u, (f u).busy = u.busy ∧ (f u).sched = u.sched ∧ (f u).pending = u.pending) :
    ∃ l, Reaches s (f ((s.setPending rest).setSched l)) ∧ Ready (f ((s.setPending rest).setSched l)) rest := by
  obtain ⟨l, ⟨hb, hl, hp⟩, hrun⟩ := h.reaches_txn
  obtain ⟨hfb, hfl, hfp⟩ := hf ((s.setPending rest).setSched l)
  exact ⟨l, hrun _ (hw ▸ hexec _ hb), hfb.trans hb, hfl ▸ hl, hfp.trans hp⟩

/-! ### `poll` at the end of a window -/

theorem sequencerRun_of_idle {s u : State} {m : Nat} (hb : s.busy = false) (h : sequencerRun m s = .next u) :
    u = s := by
  induction m with
  | zero => cases h; rfl
  | succ m ih =>
    rw [sequencerRun_succ_of_next m (State.sequencerStep_of_idle (s.idle_iff.1 hb))] at h
    exact ih h

/-- Micro-steps that end in an idle block start with a turn of the sequencer, be it one that changes nothing. -/
theorem sequencerRun_first {s u : State} {m : Nat} (hu : u.busy = false) (h : sequencerRun m s = .next u) :
    ∃ t m', s.sequencerStep = .next t ∧ sequencerRun m' t = .next u := by
  cases m with
  | zero =>
    cases h
    exact ⟨s, 0, State.sequencerStep_of_idle (s.idle_iff.1 hu), rfl⟩
  | succ m =>
    obtain ⟨t, ht, h⟩ := sequencerRun_succ_eq_next h
    exact ⟨t, m, ht, h⟩

section
variable {s u : State} {m : Nat} {o : Bool} {rest : List HostOp} {l : List Agent} {d : Nat}

/-- The host's turn with a poll on an idle block. -/
theorem hostTurn_poll_ends (hu : u.busy = false) (r : List Byte) :
    ∃ r', hostTurn (u.setHostSide o (.poll :: rest) l r d) = .next (u.setHostSide o rest l r' d) :=
  ⟨_, hostTurn_poll_idle (s := u.setHostSide o (.poll :: rest) l r d) rfl hu⟩

theorem reaches_poll_idle (hu : u.busy = false) (r : List Byte) :
    ∃ r', Reaches (u.setHostSide o (.poll :: rest) [] r d) (u.setHostSide o rest [] r' d) := by
  have hstep : step (u.setHostSide o (.poll :: rest) [] r d) = hostTurn (u.setHostSide o (.poll :: rest) [] r d) := by
    rw [step_of_no_sched rfl, show (u.setHostSide o (.poll :: rest) [] r d).busy = false from hu]
    rfl
  obtain ⟨r', hturn⟩ := hostTurn_poll_ends hu r
  exact ⟨r', .of_step (hstep.trans hturn)⟩

/-- Once the schedule is used up, the sequencer ends the window and the poll finds BUSY = 0. -/
theorem reaches_poll_unscheduled (hu : u.busy = false) (h : sequencerRun m s = .next u) (r : List Byte) :
    ∃ r', Reaches (s.setHostSide o (.poll :: rest) [] r d) (u.setHostSide o rest [] r' d) := by
  induction m generalizing s with
  | zero => cases h; exact reaches_poll_idle hu r
  | succ m ih =>
    cases hb : s.busy with
    | false => exact sequencerRun_of_idle hb h ▸ reaches_poll_idle hb r
    | true =>
      obtain ⟨t, ht, h⟩ := sequencerRun_succ_eq_next h
      have hstep : step (s.setHostSide o (.poll :: rest) [] r d) = .next (t.setHostSide o (.poll :: rest) [] r d) := by
        rw [step_of_no_sched rfl, show (s.setHostSide o (.poll :: rest) [] r d).busy = true from hb]
        exact State.sequencerStep_setHostSide_of_next ht _ _ _ _ _
      obtain ⟨r', hrun⟩ := ih h
      exact ⟨r', (Reaches.of_step hstep).trans hrun⟩

/-- In a window the host that polls only reads, and the window ends as the sequencer alone ends it, under every schedule
without a reset event (10_state.md R35; 30_encoding.md R63). -/
theorem reaches_poll_setHostSide (hu : u.busy = false) (h : sequencerRun m s = .next u) (hl : .reset ∉ l)
    (r : List Byte) :
    ∃ l' r', .reset ∉ l' ∧ Reaches (s.setHostSide o (.poll :: rest) l r d) (u.setHostSide o rest l' r' d) := by
  induction l generalizing s m r with
  | nil =>
    obtain ⟨r', hrun⟩ := reaches_poll_unscheduled hu h r
    exact ⟨[], r', hl, hrun⟩
  | cons a l ih =>
    obtain ⟨ha, hrest⟩ := not_or.1 (mt List.mem_cons.2 hl)
    have hstep : step (s.setHostSide o (.poll :: rest) (a :: l) r d) =
        turn a (s.setHostSide o (.poll :: rest) l r d) := step_of_sched rfl
    cases a with
    | reset => exact absurd rfl ha
    | host =>
      cases hb : s.busy with
      | false =>
        obtain rfl := sequencerRun_of_idle hb h
        obtain ⟨r', hturn⟩ := hostTurn_poll_ends hb r
        exact ⟨l, r', hrest, .of_step (hstep.trans hturn)⟩
      | true =>
        have hread := hostTurn_poll_busy (s := s.setHostSide o (.poll :: rest) l r d) rfl hb
        obtain ⟨l', r', hl', hrun⟩ := ih h hrest (_ :: r)
        exact ⟨l', r', hl', (Reaches.of_step (hstep.trans hread)).trans hrun⟩
    | sequencer =>
      obtain ⟨t, m', ht, h⟩ := sequencerRun_first hu h
      have hmicro := State.sequencerStep_setHostSide_of_next ht o (.poll :: rest) l r d
      obtain ⟨l', r', hl', hrun⟩ := ih h hrest r
      exact ⟨l', r', hl', (Reaches.of_step (hstep.trans hmicro)).trans hrun⟩

end

/-- The run goes on from a poll to the idle block that the sequencer's micro-steps end in. -/
theorem Reaches.poll {s t u : State} {m : Nat} {rest : List HostOp} (hst : Reaches s t) (hp : t.pending = .poll :: rest)
    (hl : .reset ∉ t.sched) (h : sequencerRun m t = .next u) (hu : u.busy = false) :
    ∃ l r, .reset ∉ l ∧ Reaches s (u.setHostSide t.ovr rest l r t.draws) := by
  obtain ⟨l, r, hl', hrun⟩ := reaches_poll_setHostSide (o := t.ovr) (rest := rest) (d := t.draws) hu h hl t.results
  rw [← hp] at hrun
  exact ⟨l, r, hl', hst.trans hrun⟩

/-! ### Streaming -/

/-- A byte streamed: CRC_FEED, and `poll` to the end of its window (40_crc.md R77). -/
theorem Ready.reaches_feed {s : State} {b : Byte} {rest : List HostOp}
    (h : Ready s (.txn (0x40700#19 ||| b.setWidth 19) :: .poll :: rest)) :
    ∃ t, Reaches s t ∧ Ready t rest ∧ t.crc = crcByte s.crc b := by
  obtain ⟨l, hready, hrun⟩ := h.reaches_txn
  have hstart := hrun _ (exec_dataWord_idle hready.idle b)
  obtain ⟨l', r, hl', hpoll⟩ := hstart.poll rfl hready.noReset (sequencerRun_crcFeed _ b) rfl
  exact ⟨_, hpoll, ⟨rfl, hl', rfl⟩, rfl⟩

/-- A sequence streamed byte by byte. -/
theorem Ready.reaches_stream {s : State} {bs : List Byte}
    (h : Ready s (bs.flatMap fun b => [.txn (0x40700#19 ||| b.setWidth 19), .poll])) :
    ∃ t, Reaches s t ∧ Ready t [] ∧ t.crc = bs.foldl crcByte s.crc := by
  induction bs generalizing s with
  | nil => exact ⟨s, .refl s, h, rfl⟩
  | cons b bs ih =>
    obtain ⟨t, hst, ht, hcrc⟩ := h.reaches_feed
    obtain ⟨u, htu, hu, hcrc'⟩ := ih ht
    exact ⟨u, hst.trans htu, hu, by rw [hcrc', hcrc, List.foldl_cons]⟩

/-- CRC_INIT, and then the sequence streamed (40_crc.md R73, R77). -/
theorem Ready.reaches_init_stream {s : State} {bs : List Byte}
    (h : Ready s (.txn 0x40001#19 :: bs.flatMap fun b => [.txn (0x40700#19 ||| b.setWidth 19), .poll])) :
    ∃ t, Reaches s t ∧ Ready t [] ∧ t.crc = crc16 bs := by
  obtain ⟨l, hinit, hready⟩ := h.reaches_immediate (decode_cmdWord 0x01#8) (fun _ hb => exec_crcInit_idle hb)
    fun _ => ⟨rfl, rfl, rfl⟩
  obtain ⟨t, hstream, ht, hcrc⟩ := hready.reaches_stream
  exact ⟨t, hinit.trans hstream, ht, hcrc⟩

/-! ### Buffering -/

/-- `load` stores its bytes into BUF (30_encoding.md R63). -/
theorem Ready.reaches_load {s : State} {i : Nat} {bs : List Byte} {rest : List HostOp}
    (h : Ready s (loadOps i bs ++ rest)) (hi : i + bs.length ≤ 258) :
    ∃ t, Reaches s t ∧ Ready t rest ∧ t.buf = s.buf.store i bs := by
  induction bs generalizing s i with
  | nil => exact ⟨s, .refl s, h, rfl⟩
  | cons b bs ih =>
    rw [List.length_cons] at hi
    have hlt : i < 258 := by omega
    have hwindow := bufWindow_bufAddr hlt
    replace h : Ready s (.txn (encodeWrite (bufAddr i) b) :: (loadOps (i + 1) bs ++ rest)) := h
    obtain ⟨l, hwrite, hready⟩ := h.reaches_immediate
      ((decode_encodeWrite _ b).trans (decodeWrite_of_bufWindow b hwindow)) (fun _ hb => exec_wrBuf_idle hb hwindow b)
      fun _ => ⟨rfl, rfl, rfl⟩
    obtain ⟨t, hload, ht, hbuf⟩ := ih hready (by omega)
    rw [bufIndex_bufAddr hlt] at hbuf
    exact ⟨t, hwrite.trans hload, ht, hbuf⟩

theorem decode_lenLoWord (v : Byte) : decode (encodeWrite 0x002#10 v) = .wrLenLo v := decode_encodeWrite _ _

theorem decode_lenHiWord (v : Byte) : decode (encodeWrite 0x003#10 v) = .wrLenHi v := decode_encodeWrite _ _

/-- `setlen` writes LEN by its two bytes and leaves BUF (30_encoding.md R63). -/
theorem Ready.reaches_setlen {s : State} {n : Len} {rest : List HostOp}
    (h : Ready s ((HostLine.setlen n).ops ++ rest)) :
    ∃ t, Reaches s t ∧ Ready t rest ∧ t.buf = s.buf ∧ t.len = n := by
  replace h : Ready s (.txn (encodeWrite 0x002#10 (lenLo n)) :: .txn (encodeWrite 0x003#10 (lenHi n)) :: rest) := h
  obtain ⟨l, hlo, hready⟩ := h.reaches_immediate (decode_lenLoWord _)
    (fun _ hb => exec_wrLenLo_idle hb (lenLo n)) fun _ => ⟨rfl, rfl, rfl⟩
  obtain ⟨l', hhi, hready'⟩ := hready.reaches_immediate (decode_lenHiWord _)
    (fun _ hb => exec_wrLenHi_idle hb (lenHi n)) fun _ => ⟨rfl, rfl, rfl⟩
  refine ⟨_, hlo.trans hhi, hready', ?_, ?_⟩
  · simp only [State.setLen_buf, State.setSched_buf, State.setPending_buf]
  · simp only [State.setLen_len, State.setSched_len, State.setPending_len, withLen_bytes]

/-- CRC_BUF over a written slice, and `poll` to the end of its window, or at once for the empty slice (40_crc.md R75,
R76). -/
theorem Ready.reaches_crcBuf {s : State} {f : List Byte} {rest : List HostOp}
    (h : Ready s ((HostLine.cmd .crcBuf).ops ++ .poll :: rest)) (hl : s.len.toNat ≤ 258)
    (hf : s.buf.slice 0 s.len.toNat = some f) :
    ∃ t, Reaches s t ∧ Ready t rest ∧ t.crc = crc16 f := by
  replace h : Ready s (.txn (encodeWrite 0x000#10 0x02#8) :: .poll :: rest) := h
  obtain ⟨l, hready, hrun⟩ := h.reaches_txn
  rw [show decode (encodeWrite 0x000#10 0x02#8) = .crcBuf from decode_encodeWrite _ _] at hrun
  have hlen : f.length = s.len.toNat := Memory.slice_length hf
  cases f with
  | nil =>
    have hstart := hrun _ (exec_crcBuf_empty hready.idle hlen.symm)
    obtain ⟨l', r, hl', hpoll⟩ := hstart.poll (m := 0) rfl hready.noReset rfl hready.idle
    exact ⟨_, hpoll, ⟨hready.idle, hl', rfl⟩, rfl⟩
  | cons b f =>
    have hstart := hrun _ (exec_crcBuf_started hready.idle (hlen ▸ Nat.succ_pos _) hl
      (Memory.readByte_of_slice_cons hf))
    obtain ⟨l', r, hl', hpoll⟩ := hstart.poll rfl hready.noReset (sequencerRun_crcBuf hf hl) rfl
    exact ⟨_, hpoll, ⟨rfl, hl', rfl⟩, rfl⟩

/-- The buffered program as a whole (40_crc.md R77). -/
theorem Ready.reaches_buffered {s : State} {bs : List Byte} (hlen : bs.length ≤ 258)
    (h : Ready s (hostProgram [.load 0 bs, .setlen (BitVec.ofNat 9 bs.length), .cmd .crcBuf, .poll])) :
    ∃ t, Reaches s t ∧ Ready t [] ∧ t.crc = crc16 bs := by
  obtain ⟨t, hload, ht, htbuf⟩ := Ready.reaches_load (i := 0) h (by omega)
  obtain ⟨u, hset, hu, hubuf, hulen⟩ := ht.reaches_setlen
  have hnat : u.len.toNat = bs.length := by
    rw [hulen, BitVec.toNat_ofNat]
    exact Nat.mod_eq_of_lt (by omega)
  have hslice : u.buf.slice 0 u.len.toNat = some bs := by
    rw [hubuf, htbuf, hnat]
    exact Memory.slice_store _ _ _
  obtain ⟨v, hcrc, hv, hvcrc⟩ := hu.reaches_crcBuf (hnat ▸ hlen) hslice
  exact ⟨v, (hload.trans hset).trans hcrc, hv, hvcrc⟩

/-- A run that comes to the end of its program with the register at the checksum of `bs` leaves compute(bs). -/
theorem final_of_reaches {s t : State} {bs : List Byte} (h : Reaches s t) (ht : Ready t []) (hcrc : t.crc = crc16 bs) :
    ∃ n t, run n s = .next t ∧ Final t ∧ (t.crc.extractLsb' 0 8, t.crc.extractLsb' 8 8) = compute bs := by
  obtain ⟨n, hn⟩ := h
  exact ⟨n, t, hn, ⟨ht.pending, ht.idle⟩, congrArg crcBytes hcrc⟩

/-- Settles O46: each program leaves the register at the checksum. -/
theorem streamingEqualsBuffered : Obligations.StreamingEqualsBuffered := by
  refine ⟨fun s bs hb hr hp => ?_, fun s bs hb hr hlen hp => ?_⟩
  · obtain ⟨t, hrun, ht, hcrc⟩ := Ready.reaches_init_stream ⟨hb, hr, hp⟩
    exact final_of_reaches hrun ht hcrc
  · obtain ⟨t, hrun, ht, hcrc⟩ := Ready.reaches_buffered hlen ⟨hb, hr, hp⟩
    exact final_of_reaches hrun ht hcrc

end Sys2Proof.Machine
end

section
/-! CLAIM. The frame functions: `parse` undoes `build`, and reports its first failing check. -/

namespace Sys2Proof.Machine

theorem trailerBytes_inj {x y : Byte × Byte} : trailerBytes x = trailerBytes y ↔ x = y := by
  simp [trailerBytes, Prod.ext_iff]

theorem parseFrame_of_length {r : List Byte} (e : Byte) (h : r.length < 4 ∨ 258 < r.length) :
    parseFrame r e = .error .wrongLength :=
  if_pos h

/-- Past the length check `parse` is the CRC check on the trailer, and then the address check (41_frame.md R85). -/
theorem parseFrame_append_trailer {f : List Byte} (x : Byte × Byte) (e : Byte) (h2 : 2 ≤ f.length)
    (h256 : f.length ≤ 256) :
    parseFrame (f ++ trailerBytes x) e =
      if x ≠ compute f then .error .wrongCrc
      else if f.head? ≠ some e then .error .wrongAddress else .ok (f.drop 1) := by
  have hlen : (f ++ trailerBytes x).length = f.length + 2 := by simp
  have hrange : ¬((f ++ trailerBytes x).length < Config.frameMin ∨
      Config.frameMax < (f ++ trailerBytes x).length) := by
    rw [hlen, show Config.frameMin = 4 from rfl, show Config.frameMax = 258 from rfl]
    omega
  have hhead : (f ++ trailerBytes x).head? = f.head? :=
    List.head?_append_of_ne_nil _ (List.ne_nil_of_length_pos (by omega))
  rw [parseFrame, if_neg hrange, hhead, hlen, Nat.add_sub_cancel, List.drop_left, List.take_left]
  simp only [ne_eq, trailerBytes_inj]

/-- A frame with its own trailer passes the CRC check. -/
theorem parseFrame_append_compute {f : List Byte} (e : Byte) (h2 : 2 ≤ f.length) (h256 : f.length ≤ 256) :
    parseFrame (f ++ trailerBytes (compute f)) e =
      if f.head? ≠ some e then .error .wrongAddress else .ok (f.drop 1) := by
  rw [parseFrame_append_trailer _ e h2 h256, if_neg (not_not_intro rfl)]

/-- Settles O29: the trailer `build` appends is the one `parse` computes, and the address is the first byte. -/
theorem parseOfBuild : Obligations.ParseOfBuild := by
  intro a c ps hlen
  have hbody : ([a, c] ++ ps).length = ps.length + 2 := by simp
  rw [buildFrame, parseFrame_append_compute a (by omega) (by omega)]
  exact if_neg (not_not_intro rfl)

/-- Settles O30, check by check. -/
theorem parseReportsTheFirstFailingCheck : Obligations.ParseReportsTheFirstFailingCheck := by
  refine ⟨fun r e h => parseFrame_of_length e h, fun f x e h2 h256 hx => ?_, fun a e f h1 h255 hne => ?_,
    fun e f h1 h255 => ?_⟩
  · exact (parseFrame_append_trailer x e h2 h256).trans (if_pos hx)
  · have hhead : (a :: f).head? ≠ some e := fun h => hne (Option.some.inj h)
    exact (parseFrame_append_compute (f := a :: f) e (Nat.succ_le_succ h1) (Nat.succ_le_succ h255)).trans (if_pos hhead)
  · exact (parseFrame_append_compute (f := e :: f) e (Nat.succ_le_succ h1) (Nat.succ_le_succ h255)).trans
      (if_neg (not_not_intro rfl))

end Sys2Proof.Machine
end

section
/-! CLAIM. BUILD and PARSE at acceptance. -/

namespace Sys2Proof.Machine

theorem exec_build_rejected {s : State} (hb : s.busy = false) (hl : s.len.toNat < 2 ∨ 256 < s.len.toNat) :
    exec .build s = .next (s.acceptCmd 0x04#8).commandError := by
  have hr : ¬s.buildInRange = true := fun h => by
    have := (buildInRange_iff s).1 h
    omega
  simp only [exec, execBuild, State.hostWrite_idle _ hb, if_neg hr]

/-- Past its range check BUILD starts over BUF, where BUF[0] decides (41_frame.md R82). -/
theorem exec_build_inRange {s : State} (hb : s.busy = false) (h2 : 2 ≤ s.len.toNat) (hl : s.len.toNat ≤ 256) :
    exec .build s = (s.acceptCmd 0x04#8).startOverBuf .build s.len := by
  simp only [exec, execBuild, State.hostWrite_idle _ hb, if_pos ((buildInRange_iff s).2 ⟨h2, hl⟩)]

theorem exec_build_started {s : State} {b : Byte} (hb : s.busy = false) (h2 : 2 ≤ s.len.toNat)
    (hl : s.len.toNat ≤ 256) (h0 : s.buf.readByte 0 = some b) :
    exec .build s = .next ((s.acceptCmd 0x04#8).loadCrc.startFeed .build s.len b) :=
  (exec_build_inRange hb h2 hl).trans (State.startOverBuf_of_read _ _ h0)

theorem exec_parse_wrongLength {s : State} (hb : s.busy = false) (hl : s.len.toNat < 4 ∨ 258 < s.len.toNat) :
    exec .parse s = .next ((s.acceptCmd 0x05#8).parseError false .wrongLength).complete := by
  have hr : ¬s.parseInRange = true := fun h => by
    have := (parseInRange_iff s).1 h
    omega
  simp only [exec, execParse, State.hostWrite_idle _ hb, if_neg hr]

/-- Past its length check PARSE starts over all but the trailer, where BUF[0] decides (41_frame.md R86). -/
theorem exec_parse_inRange {s : State} (hb : s.busy = false) (h4 : 4 ≤ s.len.toNat) (hl : s.len.toNat ≤ 258) :
    exec .parse s = (s.acceptCmd 0x05#8).startOverBuf .parse (s.len - 2#9) := by
  simp only [exec, execParse, State.hostWrite_idle _ hb, if_pos ((parseInRange_iff s).2 ⟨h4, hl⟩)]

theorem exec_parse_started {s : State} {b : Byte} (hb : s.busy = false) (h4 : 4 ≤ s.len.toNat)
    (hl : s.len.toNat ≤ 258) (h0 : s.buf.readByte 0 = some b) :
    exec .parse s = .next ((s.acceptCmd 0x05#8).loadCrc.startFeed .parse (s.len - 2#9) b) :=
  (exec_parse_inRange hb h4 hl).trans (State.startOverBuf_of_read _ _ h0)

/-- A length less a part of it does not wrap. -/
theorem len_sub_toNat {n : Len} {k : Nat} (h : k ≤ n.toNat) : (n - BitVec.ofNat 9 k).toNat = n.toNat - k := by
  bv_omega

theorem len_sub_eq_ofNat {n : Len} {k : Nat} (h : k ≤ n.toNat) :
    n - BitVec.ofNat 9 k = BitVec.ofNat 9 (n.toNat - k) := by
  rw [← len_sub_toNat h, BitVec.ofNat_toNat, BitVec.setWidth_eq]

/-- Settles O35, by the range of LEN and whether BUF[0] is written. -/
theorem buildIsAccepted : Obligations.BuildIsAccepted := by
  intro s hb
  refine ⟨decode_cmdWord 0x04#8, exec_build_rejected hb, fun h2 hl b h0 => exec_build_started hb h2 hl h0,
    fun h2 hl hw => ?_⟩
  exact (exec_build_inRange hb h2 hl).trans
    (State.withBufByte_of_unwritten _ (by decide) (State.readByte_of_not_wbuf hw))

/-- Settles O36, by the range of LEN and whether BUF[0] is written. -/
theorem parseIsAccepted : Obligations.ParseIsAccepted := by
  intro s hb
  refine ⟨decode_cmdWord 0x05#8, exec_parse_wrongLength hb, fun h4 hl b h0 => ?_, fun h4 hl hw => ?_⟩
  · rw [← len_sub_eq_ofNat (by omega : 2 ≤ s.len.toNat)]
    exact exec_parse_started hb h4 hl h0
  · exact (exec_parse_inRange hb h4 hl).trans
      (State.withBufByte_of_unwritten _ (by decide) (State.readByte_of_not_wbuf hw))

end Sys2Proof.Machine
end

section
/-! CLAIM. The finish micro-steps of BUILD and PARSE. -/

namespace Sys2Proof.Machine

/-! ### BUILD -/

/-- BUF with the trailer of the register at BUF[LEN] and BUF[LEN+1] (41_frame.md R84). -/
def State.trailedBuf (s : State) : Memory :=
  (s.buf.writeByte s.len.toNat (crcLo s.crc)).writeByte (s.len.toNat + 1) (crcHi s.crc)

theorem State.trailedBuf_lo (s : State) : s.trailedBuf.readByte s.len.toNat = some (crcLo s.crc) := by
  rw [State.trailedBuf, Memory.readByte_writeByte_other _ _ (Nat.ne_of_lt (Nat.lt_succ_self _)),
    Memory.readByte_writeByte_same]

theorem State.trailedBuf_hi (s : State) : s.trailedBuf.readByte (s.len.toNat + 1) = some (crcHi s.crc) :=
  Memory.readByte_writeByte_same _ _ _

theorem State.trailedBuf_other (s : State) {j : Nat} (hlo : j ≠ s.len.toNat) (hhi : j ≠ s.len.toNat + 1) :
    s.trailedBuf.readByte j = s.buf.readByte j := by
  rw [State.trailedBuf, Memory.readByte_writeByte_other _ _ hhi, Memory.readByte_writeByte_other _ _ hlo]

/-- The built frame: the bytes before LEN, and the trailer after them (41_frame.md R81, R84). -/
theorem State.trailedBuf_slice {s : State} {f : List Byte} (h : s.buf.slice 0 s.len.toNat = some f) :
    s.trailedBuf.slice 0 (s.len.toNat + 2) = some (f ++ trailerBytes (crcBytes s.crc)) := by
  have hbody : s.trailedBuf.slice 0 s.len.toNat = some f := by
    rw [State.trailedBuf, Memory.slice_writeByte_other _ (.inr (by omega)),
      Memory.slice_writeByte_other _ (.inr (by omega)), h]
  have hlo := Memory.slice_snoc hbody ((congrArg _ (Nat.zero_add _)).trans s.trailedBuf_lo)
  have hhi := Memory.slice_snoc hlo ((congrArg _ (Nat.zero_add _)).trans s.trailedBuf_hi)
  rwa [List.append_assoc] at hhi

theorem State.finishStep_of_build {s : State} (ho : s.op = .build) : s.finishStep = s.finishBuild := by
  simp only [State.finishStep, ho]

/-- The block after BUILD's finish micro-step (41_frame.md R84). -/
def State.built (s : State) : State :=
  { s with buf := s.trailedBuf, len := BitVec.ofNat 9 (s.len.toNat + 2), phase := .idle, done := true }

/-- BUILD's finish micro-step in its range of LEN (41_frame.md R84). -/
theorem State.finishStep_eq_built {s : State} (ho : s.op = .build) (hl : s.len.toNat ≤ 256) :
    s.finishStep = .next s.built := by
  have hlen : BitVec.ofNat 9 (s.len.toNat + 2) = s.len + 2#9 := by bv_omega
  have hlo : s.len.toNat < Config.bufSize := Nat.lt_of_le_of_lt hl (by decide)
  have hhi : s.len.toNat + 1 < Config.bufSize := Nat.lt_of_le_of_lt (Nat.succ_le_succ hl) (by decide)
  rw [State.finishStep_of_build ho, State.finishBuild, s.storeBufByte_of_lt _ _ hlo,
    State.storeBufByte_of_lt _ _ _ hhi, State.built, hlen]
  rfl

theorem crcLo_eq_ofNat (c : Crc) : crcLo c = BitVec.ofNat 8 (c.toNat % 256) := by
  rw [← crcLo_toNat, BitVec.ofNat_toNat, BitVec.setWidth_eq]

theorem crcHi_eq_ofNat (c : Crc) : crcHi c = BitVec.ofNat 8 (c.toNat / 256) := by
  rw [← crcHi_toNat, BitVec.ofNat_toNat, BitVec.setWidth_eq]

theorem step_of_sequencer_finish {s : State} {r : List Agent} (hp : s.phase = .finish)
    (hs : s.sched = .sequencer :: r) : step s = (s.setSched r).finishStep :=
  (step_of_sequencer hs).trans (State.sequencerStep_of_finish hp)

/-- Settles O39. -/
theorem buildFinishMicroStep : Obligations.BuildFinishMicroStep := by
  intro s r hp ho hs _ hl
  refine ⟨s.trailedBuf, ?_, ?_, ?_, fun j => s.trailedBuf_other⟩
  · exact (step_of_sequencer_finish hp hs).trans (State.finishStep_eq_built (s := s.setSched r) ho hl)
  · rw [s.trailedBuf_lo, crcLo_eq_ofNat]
  · rw [s.trailedBuf_hi, crcHi_eq_ofNat]

/-! ### PARSE -/

/-- The end of PARSE with the trailer `x` and the first two bytes `a` and `p` of BUF: the CRC check, then the address
check, and the registers each outcome needs (41_frame.md R87 to R89; 60_exceptions.md R107). -/
def State.parseVerdict (s : State) (x : Byte × Byte) (a p : Byte) : State :=
  { s with
    matched := decide (x = crcBytes s.crc)
    err := if x = crcBytes s.crc then (if a = s.expAddr then .noError else .wrongAddress) else .wrongCrc
    plen := if x = crcBytes s.crc ∧ a = s.expAddr then BitVec.ofNat 8 (s.len.toNat - 3) else 0x00#8
    sent := decide (x = crcBytes s.crc ∧ a = s.expAddr ∧ s.len.toNat = 4 ∧ p = 0x05#8)
    phase := .idle
    done := true }

theorem State.payloadLen_eq {s : State} (h : 3 ≤ s.len.toNat) : s.payloadLen = BitVec.ofNat 8 (s.len.toNat - 3) := by
  apply BitVec.eq_of_toNat_eq
  rw [State.payloadLen, BitVec.toNat_setWidth, len_sub_toNat h, BitVec.toNat_ofNat]

theorem sentFlag_eq (n : Len) (p : Byte) : sentFlag n p = decide (n.toNat = 4 ∧ p = 0x05#8) := by
  rw [Bool.eq_iff_iff]
  simp [sentFlag, sentinel, BitVec.toNat_eq]

/-- PARSE's success, whether or not it reads BUF[1] (41_frame.md R87, R89). -/
theorem State.parseSuccess_eq {s : State} {p : Byte} (h1 : s.buf.readByte 1 = some p) :
    s.parseSuccess = .next (s.parseOk (sentFlag s.len p)).settle := by
  unfold State.parseSuccess
  split_ifs with hl
  · exact State.withBufByte_of_read _ (by decide) h1
  · rw [sentFlag, beq_false_of_ne hl, Bool.false_and]

theorem State.finishStep_of_parse {s : State} (ho : s.op = .parse) : s.finishStep = s.finishParse := by
  simp only [State.finishStep, ho]

section
variable {s : State} (h4 : 4 ≤ s.len.toNat) (hl : s.len.toNat ≤ 258)
include h4

theorem State.trailerLoIndex_eq : s.trailerLoIndex = s.len.toNat - 2 := len_sub_toNat (by omega)

theorem State.trailerHiIndex_eq : s.trailerHiIndex = s.len.toNat - 1 := len_sub_toNat (by omega)

include hl

theorem State.trailerLoIndex_lt : s.trailerLoIndex < Config.bufSize := by
  rw [State.trailerLoIndex_eq h4, show Config.bufSize = 258 from rfl]
  omega

theorem State.trailerHiIndex_lt : s.trailerHiIndex < Config.bufSize := by
  rw [State.trailerHiIndex_eq h4, show Config.bufSize = 258 from rfl]
  omega

/-- With the trailer and the first two bytes written, PARSE's finish action is its verdict (41_frame.md R87). -/
theorem State.finishParse_eq_verdict {lo hi a p : Byte} (hlo : s.buf.readByte (s.len.toNat - 2) = some lo)
    (hhi : s.buf.readByte (s.len.toNat - 1) = some hi) (h0 : s.buf.readByte 0 = some a)
    (h1 : s.buf.readByte 1 = some p) : s.finishParse = .next (s.parseVerdict (lo, hi) a p) := by
  rw [← State.trailerLoIndex_eq h4] at hlo
  rw [← State.trailerHiIndex_eq h4] at hhi
  rw [State.finishParse, State.withBufByte_of_read _ (State.trailerLoIndex_lt h4 hl) hlo,
    State.withBufByte_of_read _ (State.trailerHiIndex_lt h4 hl) hhi, State.computed_eq]
  by_cases hx : (lo, hi) = crcBytes s.crc
  · rw [if_pos ((crcMatches_iff _ _).2 hx), State.withBufByte_of_read _ (by decide) h0]
    by_cases ha : a = s.expAddr
    · rw [if_pos ha, State.parseSuccess_eq h1, sentFlag_eq]
      simp [State.parseVerdict, State.parseOk, State.settle, hx, ha, State.payloadLen_eq (by omega : 3 ≤ s.len.toNat)]
    · rw [if_neg ha]
      simp [State.parseVerdict, State.parseError, State.settle, hx, ha]
  · rw [if_neg (mt (crcMatches_iff _ _).1 hx)]
    simp [State.parseVerdict, State.parseError, State.settle, hx]

theorem State.finishParse_of_lo_unwritten (hlo : s.wbuf (s.len.toNat - 2) = false) :
    s.finishParse = .fault (.unwrittenBufRead (s.len.toNat - 2)) := by
  rw [← State.trailerLoIndex_eq h4] at hlo ⊢
  exact State.withBufByte_of_unwritten _ (State.trailerLoIndex_lt h4 hl) (State.readByte_of_not_wbuf hlo)

theorem State.finishParse_of_hi_unwritten {lo : Byte} (hlo : s.buf.readByte (s.len.toNat - 2) = some lo)
    (hhi : s.wbuf (s.len.toNat - 1) = false) : s.finishParse = .fault (.unwrittenBufRead (s.len.toNat - 1)) := by
  rw [← State.trailerLoIndex_eq h4] at hlo
  rw [← State.trailerHiIndex_eq h4] at hhi ⊢
  rw [State.finishParse, State.withBufByte_of_read _ (State.trailerLoIndex_lt h4 hl) hlo]
  exact State.withBufByte_of_unwritten _ (State.trailerHiIndex_lt h4 hl) (State.readByte_of_not_wbuf hhi)

end

/-- A trailer is the register's when each byte is its half of it (40_crc.md R80). -/
theorem eq_crcBytes_iff (lo hi : Byte) (c : Crc) :
    (lo, hi) = crcBytes c ↔ lo.toNat = c.toNat % 256 ∧ hi.toNat = c.toNat / 256 := by
  rw [← crcLo_toNat, ← crcHi_toNat, ← BitVec.toNat_eq, ← BitVec.toNat_eq]
  exact Prod.ext_iff

/-- Settles O40: the two trailer bytes, low index first, and then the checks. -/
theorem parseFinishMicroStep : Obligations.ParseFinishMicroStep := by
  intro s r hp ho hs h4 hl
  rw [(step_of_sequencer_finish hp hs).trans (State.finishStep_of_parse (s := s.setSched r) ho)]
  refine ⟨fun lo hi a p hlo hhi h0 h1 => ?_, State.finishParse_of_lo_unwritten (s := s.setSched r) h4 hl,
    fun lo => State.finishParse_of_hi_unwritten (s := s.setSched r) h4 hl⟩
  have hok : decide (lo.toNat = s.crc.toNat % 256 ∧ hi.toNat = s.crc.toNat / 256) =
      decide ((lo, hi) = crcBytes s.crc) := decide_eq_decide.2 (eq_crcBytes_iff lo hi s.crc).symm
  rw [hok, State.finishParse_eq_verdict (s := s.setSched r) h4 hl hlo hhi h0 h1]
  change Host.Outcome.next ((s.parseVerdict (lo, hi) a p).setSched r) = _
  simp [State.parseVerdict, State.setSched]

end Sys2Proof.Machine
end

section
/-! CLAIM. BUILD and PARSE as a whole: the window feeds the bytes before the trailer, and the finish micro-step does the
rest. -/

namespace Sys2Proof.Machine

/-- In phase FINISH of the operation `o`, `n` bytes fed and the register at `c` (10_state.md R32). -/
def State.fedWith (s : State) (o : SeqOp) (n : Len) (c : Crc) : State := { s with op := o, endi := n }.fed c

/-- The feeding of CRC_BUF, BUILD and PARSE: the register ends as the checksum of BUF[0..n-1] (10_state.md R31, R32). -/
theorem sequencerRun_startFeed {s : State} {n : Len} {b : Byte} {f : List Byte} (o : SeqOp)
    (hf : s.buf.slice 0 n.toNat = some (b :: f)) (hl : n.toNat ≤ 258) :
    sequencerRun (8 * n.toNat) (s.loadCrc.startFeed o n b) =
      .next (s.fedWith o n (crc16 (b :: f))) := by
  have hn : f.length + 1 = n.toNat := Memory.slice_length hf
  rw [State.startFeed_eq_atFeed, ← hn]
  rw [← hn] at hf
  exact sequencerRun_atFeed_bytes (s := { s.loadCrc with op := o, endi := n }) (i := 0) hf
    (hn.symm.trans (Nat.zero_add _).symm) hl

/-- The window of an operation over BUF, with its finish micro-step (10_state.md R31). -/
theorem sequencerRun_startFeed_finish {s u : State} {n : Len} {b : Byte} {f : List Byte} {o : SeqOp}
    (hf : s.buf.slice 0 n.toNat = some (b :: f)) (hl : n.toNat ≤ 258)
    (hu : (s.fedWith o n (crc16 (b :: f))).finishStep = .next u) :
    sequencerRun (8 * n.toNat + 1) (s.loadCrc.startFeed o n b) = .next u := by
  rw [sequencerRun_add_of_next 1 (sequencerRun_startFeed o hf hl), sequencerRun_one,
    State.sequencerStep_of_finish rfl, hu]

/-! ### BUILD -/

/-- The block at the end of a BUILD whose bytes took the register to `c` (41_frame.md R84). -/
def State.afterBuild (s : State) (c : Crc) : State := (s.fedWith .build s.len c).built

theorem State.afterBuild_slice {s : State} {f : List Byte} (c : Crc) (hf : s.buf.slice 0 s.len.toNat = some f) :
    (s.afterBuild c).buf.slice 0 (s.len.toNat + 2) = some (f ++ trailerBytes (crcBytes c)) :=
  State.trailedBuf_slice (s := s.fedWith .build s.len c) hf

theorem State.afterBuild_len {s : State} (c : Crc) (hl : s.len.toNat ≤ 256) :
    (s.afterBuild c).len.toNat = s.len.toNat + 2 :=
  (BitVec.toNat_ofNat _ _).trans (Nat.mod_eq_of_lt (show s.len.toNat + 2 < 2 ^ 9 by omega))

theorem State.afterBuild_above {s : State} {i : Nat} (c : Crc) (hi : s.len.toNat + 2 ≤ i) :
    (s.afterBuild c).buf.readByte i = s.buf.readByte i :=
  (s.fedWith .build s.len c).trailedBuf_other (show i ≠ s.len.toNat by omega) (show i ≠ s.len.toNat + 1 by omega)

/-- BUILD's window (41_frame.md R82, R84). -/
theorem sequencerRun_build {s : State} {b : Byte} {f : List Byte} (hf : s.buf.slice 0 s.len.toNat = some (b :: f))
    (hl : s.len.toNat ≤ 256) :
    sequencerRun (8 * s.len.toNat + 1) (s.loadCrc.startFeed .build s.len b) = .next (s.afterBuild (crc16 (b :: f))) :=
  sequencerRun_startFeed_finish hf (by omega)
    (State.finishStep_eq_built (s := s.fedWith .build s.len (crc16 (b :: f))) rfl hl)

theorem exec_buildWord_started {s : State} {a c : Byte} {ps : List Byte} (hb : s.busy = false) (hl : s.len.toNat ≤ 256)
    (hf : s.buf.slice 0 s.len.toNat = some (a :: c :: ps)) :
    exec (decode 0x40004#19) s = .next ((s.acceptCmd 0x04#8).loadCrc.startFeed .build s.len a) := by
  have hlen : ps.length + 2 = s.len.toNat := Memory.slice_length hf
  rw [show decode 0x40004#19 = .build from decode_cmdWord 0x04#8]
  exact exec_build_started hb (by omega) hl (Memory.readByte_of_slice_cons hf)

theorem buildFrame_eq (a c : Byte) (ps : List Byte) :
    buildFrame a c ps = a :: c :: ps ++ trailerBytes (crcBytes (crc16 (a :: c :: ps))) := rfl

/-- Settles O43: the trailer goes behind the bytes that were fed. -/
theorem buildRunsToItsAtomicEffect : Obligations.BuildRunsToItsAtomicEffect := by
  intro s a c ps r hb hl hf
  have hrun := run_start_of_sequencerRun (fun l => exec_buildWord_started (s := s.setSched l) hb hl hf)
    (sequencerRun_build (s := s.acceptCmd 0x04#8) hf hl) r
  generalize hcrc : crc16 (a :: c :: ps) = crc at hrun
  have hslice := State.afterBuild_slice (s := s.acceptCmd 0x04#8) crc hf
  refine ⟨_, (s.acceptCmd 0x04#8).afterBuild crc, hrun.trans ?_, hslice.trans ?_,
    fun i hi => State.afterBuild_above (s := s.acceptCmd 0x04#8) crc hi⟩
  · rw [s.idle_iff.1 hb]
    rfl
  · rw [buildFrame_eq, hcrc]

/-! ### PARSE -/

/-- A frame in BUF by its parts: address, command, params and trailer. -/
theorem Memory.slice_frame {m : Memory} {n : Nat} {a p : Byte} {g : List Byte} {x : Byte × Byte}
    (hf : m.slice 0 n = some (a :: p :: g ++ trailerBytes x)) :
    n = g.length + 4 ∧ m.slice 0 (n - 2) = some (a :: p :: g) ∧ m.readByte 0 = some a ∧ m.readByte 1 = some p ∧
      m.readByte (n - 2) = some x.1 ∧ m.readByte (n - 1) = some x.2 := by
  obtain rfl : g.length + 4 = n := by simpa using Memory.slice_length hf
  have hbody := Memory.slice_take hf (Nat.sub_le _ 2)
  rw [List.take_left' (by simp)] at hbody
  refine ⟨rfl, hbody, ?_, ?_, ?_, ?_⟩
  · exact Memory.slice_readByte hf (by omega)
  · exact Memory.slice_readByte hf (by omega)
  · rw [Memory.slice_readByte hf (by omega), List.getElem?_append_right (by simp)]
    simp [trailerBytes]
  · rw [Memory.slice_readByte hf (by omega), List.getElem?_append_right (by simp)]
    simp [trailerBytes]

/-- A frame long enough for `parse` has these parts (41_frame.md R85). -/
theorem exists_frame_parts {f : List Byte} (h : 4 ≤ f.length) :
    ∃ a p g x, f = a :: p :: g ++ trailerBytes x := by
  obtain ⟨a, p, g, hbody⟩ : ∃ a p g, f.take (f.length - 2) = a :: p :: g := by
    match hb : f.take (f.length - 2) with
    | a :: p :: g => exact ⟨a, p, g, rfl⟩
    | [_] | [] =>
      have := congrArg List.length hb
      simp at this
      omega
  obtain ⟨lo, hi, htrailer⟩ := List.length_eq_two.1 (show (f.drop (f.length - 2)).length = 2 by simp; omega)
  exact ⟨a, p, g, (lo, hi), by rw [← hbody, trailerBytes, ← htrailer, List.take_append_drop]⟩

/-- The registers say what `parse` answers (41_frame.md R87 to R90; 60_exceptions.md R107). -/
def State.Records (t : State) : Except ErrCode (List Byte) → Prop
  | .ok q => t.err = .noError ∧ t.matched = true ∧ t.plen.toNat = q.length ∧ 1 ≤ q.length ∧ q.length ≤ 255 ∧
      t.buf.slice 1 q.length = some q ∧ (t.sent = true ↔ q = [0x05#8])
  | .error e => t.err = e ∧ t.err ≠ .noError ∧ t.plen = 0x00#8 ∧ t.sent = false ∧
      (t.matched = true ↔ t.err = .wrongAddress)

/-- The host's side is in no record. -/
theorem State.Records.setHostSide {t : State} {y : Except ErrCode (List Byte)} (h : t.Records y) (o : Bool)
    (ops : List HostOp) (l : List Agent) (r : List Byte) (d : Nat) : (t.setHostSide o ops l r d).Records y := by
  cases y <;> exact h

/-- PARSE's verdict is what `parse` answers, where CRC is the checksum of the bytes before the trailer. -/
theorem State.parseVerdict_records {s : State} {a p : Byte} {g : List Byte} {x : Byte × Byte}
    (hl : s.len.toNat ≤ 258) (hf : s.buf.slice 0 s.len.toNat = some (a :: p :: g ++ trailerBytes x))
    (hcrc : s.crc = crc16 (a :: p :: g)) :
    (s.parseVerdict x a p).Records (parseFrame (a :: p :: g ++ trailerBytes x) s.expAddr) := by
  obtain ⟨hlen, hbody, -⟩ := Memory.slice_frame hf
  have hcompute : compute (a :: p :: g) = crcBytes s.crc := by rw [compute, hcrc]
  rw [parseFrame_append_trailer x _ (by simp) (by simp; omega), hcompute]
  by_cases hx : x = crcBytes s.crc
  · rw [if_neg (not_not_intro hx)]
    by_cases ha : a = s.expAddr
    · have hpayload : s.buf.slice 1 (g.length + 1) = some (p :: g) := by
        have := Memory.slice_drop hbody (k := 1) (by omega)
        rwa [hlen] at this
      rw [if_neg (by simp [ha])]
      refine ⟨?_, ?_, ?_, ?_, ?_, hpayload, ?_⟩
      · simp [State.parseVerdict, hx, ha]
      · simp [State.parseVerdict, hx]
      · simp [State.parseVerdict, hx, ha, hlen]
        omega
      · simp
      · simp
        omega
      · simp [State.parseVerdict, hx, ha, hlen, and_comm]
    · rw [if_pos (by simpa using ha)]
      simp [State.Records, State.parseVerdict, hx, ha]
  · rw [if_pos hx]
    simp [State.Records, State.parseVerdict, hx]

/-- The block at the end of a PARSE whose bytes, `a` and `p` the first of them, took the register to `c`, and whose
trailer is `x` (41_frame.md R87). -/
def State.afterParse (s : State) (c : Crc) (x : Byte × Byte) (a p : Byte) : State :=
  (s.fedWith .parse (s.len - 2#9) c).parseVerdict x a p

section
variable {s : State} {a p : Byte} {g : List Byte} {x : Byte × Byte} (hl : s.len.toNat ≤ 258)
  (hf : s.buf.slice 0 s.len.toNat = some (a :: p :: g ++ trailerBytes x))
include hl hf

theorem State.afterParse_records {c : Crc} (hc : c = crc16 (a :: p :: g)) :
    (s.afterParse c x a p).Records (parseFrame (a :: p :: g ++ trailerBytes x) s.expAddr) :=
  State.parseVerdict_records (s := s.fedWith .parse (s.len - 2#9) c) hl hf hc

/-- PARSE's window (41_frame.md R86, R87). -/
theorem sequencerRun_parse :
    sequencerRun (8 * (s.len.toNat - 2) + 1) (s.loadCrc.startFeed .parse (s.len - 2#9) a) =
      .next (s.afterParse (crc16 (a :: p :: g)) x a p) := by
  obtain ⟨hlen, hbody, h0, h1, hlo, hhi⟩ := Memory.slice_frame hf
  have hn : (s.len - 2#9).toNat = s.len.toNat - 2 := len_sub_toNat (by omega)
  rw [← hn] at hbody ⊢
  refine sequencerRun_startFeed_finish hbody (by omega) ((State.finishStep_of_parse rfl).trans ?_)
  exact State.finishParse_eq_verdict (s := s.fedWith .parse (s.len - 2#9) (crc16 (a :: p :: g)))
    (show 4 ≤ s.len.toNat by omega) hl hlo hhi h0 h1

theorem exec_parseWord_started (hb : s.busy = false) :
    exec (decode 0x40005#19) s = .next ((s.acceptCmd 0x05#8).loadCrc.startFeed .parse (s.len - 2#9) a) := by
  obtain ⟨hlen, -, h0, -⟩ := Memory.slice_frame hf
  rw [show decode 0x40005#19 = .parse from decode_cmdWord 0x05#8]
  exact exec_parse_started hb (by omega) hl h0

end

/-- Settles O44: the frame in BUF by its parts, and the verdict on them. -/
theorem parseRunsToItsAtomicEffect : Obligations.ParseRunsToItsAtomicEffect := by
  intro s f r hb h4 hl hf
  obtain ⟨a, p, g, x, rfl⟩ := exists_frame_parts (Memory.slice_length hf ▸ h4)
  have hrun := run_start_of_sequencerRun (fun l => exec_parseWord_started (s := s.setSched l) hl hf hb)
    (sequencerRun_parse (s := s.acceptCmd 0x05#8) hl hf) r
  have htake : (a :: p :: g ++ trailerBytes x).take (s.len.toNat - 2) = a :: p :: g :=
    List.take_left' (by simp [← Memory.slice_length hf])
  rw [htake]
  generalize hcrc : crc16 (a :: p :: g) = crc at hrun
  refine ⟨_, _, _, _, (s.acceptCmd 0x05#8).afterParse crc x a p, hrun.trans ?_,
    State.afterParse_records (s := s.acceptCmd 0x05#8) hl hf hcrc.symm⟩
  rw [s.idle_iff.1 hb]
  rfl

end Sys2Proof.Machine
end

section
/-! CLAIM. The round trip BUILD, then PARSE, under every schedule without a reset; and a host that polls after every
operation it starts, which never reads OVR = 1 under any schedule. -/

namespace Sys2Proof.Machine

/-! ### A host that polls -/

theorem State.statusByte_ovr (s : State) : s.statusByte.getLsbD 7 = s.ovr := by
  simp only [State.statusByte, BitVec.getLsbD_append]
  simp

/-- A program of writes that polls after each CMD and CRC_DATA write (70_reset_and_hazards.md R129), with whether an
operation may still be running at its start. -/
def Polls : List HostOp → Bool → Prop
  | [], _ => True
  | .poll :: ops, _ => Polls ops false
  | .txn w :: ops, running =>
    running = false ∧ (decode w).isWrite = true ∧ Polls ops (decode w).accepts

theorem Polls.of_running {ops : List HostOp} (h : Polls ops true) (running : Bool) : Polls ops running := by
  cases ops with
  | nil => trivial
  | cons o ops =>
    cases o with
    | poll => exact h
    | txn w =>
      obtain ⟨hidle, -⟩ := h
      cases hidle

/-- An operation that may run is no worse than one that does. -/
theorem Polls.mono {ops : List HostOp} {b b' : Bool} (h : Polls ops b) (hb : b' = true → b = true) : Polls ops b' := by
  cases b with
  | true => exact h.of_running b'
  | false =>
    cases b' with
    | false => exact h
    | true => cases hb rfl

/-- The state of a run whose host polls, `r` the bytes read before it: OVR is set at most before the next acceptance
clears it, and no STATUS read since has it. -/
structure Polling (r : List Byte) (s : State) : Prop where
  polls : Polls s.pending s.busy
  ovr : s.ovr = true → s.acceptsNext
  reads : ∃ polled, s.results = polled ++ r ∧ ∀ b ∈ polled, b.getLsbD 7 = false

theorem WriteEffect.hostSide {s t : State} {i : Instr} (h : WriteEffect s i t) :
    t.pending = s.pending ∧ t.results = s.results := by
  cases h <;> exact ⟨rfl, rfl⟩

section
variable {r : List Byte} {s t : State}

theorem Polling.ovr_eq_false {ops : List HostOp} (h : Polling r s) (hp : s.pending = ops)
    (hops : ∀ w rest, ops ≠ .txn w :: rest) : s.ovr = false := by
  refine Bool.eq_false_iff.2 fun ho => ?_
  obtain ⟨w, rest, hw, -⟩ := h.ovr ho
  exact hops w rest (hp.symm.trans hw)

/-- A read of STATUS with OVR = 0. -/
theorem Polling.read (h : Polling r s) (ho : s.ovr = false) :
    ∃ polled, s.statusByte :: s.results = polled ++ r ∧ ∀ b ∈ polled, b.getLsbD 7 = false := by
  obtain ⟨polled, hres, hclear⟩ := h.reads
  exact ⟨s.statusByte :: polled, congrArg _ hres, List.forall_mem_cons.2 ⟨s.statusByte_ovr.trans ho, hclear⟩⟩

/-- The host's write on the idle block: where it is accepted it clears OVR, else OVR was clear. -/
theorem Polling.of_write {w : Txn} {rest : List HostOp} (h : Polling r s) (hp : s.pending = .txn w :: rest)
    (ht : exec (decode w) (s.setPending rest) = .next t) : Polling r t := by
  have hpolls := h.polls
  rw [hp] at hpolls
  obtain ⟨hb, hw, hrest⟩ := hpolls
  have heffect : WriteEffect (s.setPending rest) (decode w) t := .of_exec hb hw ht
  obtain ⟨hpending, hresults⟩ := heffect.hostSide
  have hreads : ∃ polled, t.results = polled ++ r ∧ ∀ b ∈ polled, b.getLsbD 7 = false := hresults ▸ h.reads
  rw [show (s.setPending rest).pending = rest from rfl] at hpending
  rcases heffect.accepted_or_kept with ⟨hacc, ho, -⟩ | ⟨hacc, hkept⟩
  · rw [hacc] at hrest
    exact ⟨hpending ▸ hrest.of_running _, by simp [ho], hreads⟩
  · have hbusy : t.busy = false := (congrArg State.busy hkept).trans hb
    have hovr : t.ovr = s.ovr := (congrArg State.ovr hkept :)
    refine ⟨by rwa [hpending, hbusy, ← hacc], fun ho => ?_, hreads⟩
    obtain ⟨i, hi, hi'⟩ := s.acceptsNext_iff.1 (h.ovr (hovr ▸ ho))
    obtain rfl : decode w = i := by simpa [State.fetch, hp] using hi
    rw [hacc] at hi'
    cases hi'

theorem Polling.of_hostTurn (h : Polling r s) (ht : hostTurn s = .next t) : Polling r t := by
  match hp : s.pending with
  | [] =>
    cases (hostTurn_nil hp).symm.trans ht
    exact h
  | .txn w :: rest => exact h.of_write hp ((hostTurn_txn hp).symm.trans ht)
  | .poll :: rest =>
    have ho : s.ovr = false := h.ovr_eq_false hp nofun
    have hpolls := h.polls
    rw [hp] at hpolls
    cases hb : s.busy with
    | true =>
      cases (hostTurn_poll_busy hp hb).symm.trans ht
      exact ⟨h.polls, h.ovr, h.read ho⟩
    | false =>
      cases (hostTurn_poll_idle hp hb).symm.trans ht
      exact ⟨show Polls rest s.busy from hb ▸ hpolls, fun hx => absurd (ho.symm.trans hx) nofun, h.read ho⟩

theorem Polling.of_sequencerStep (h : Polling r s) (ht : s.sequencerStep = .next t) : Polling r t := by
  have hkeeps := State.sequencerStep_keeps_hostSide ht
  have hpending : t.pending = s.pending := (congrArg State.pending hkeeps :)
  have hovr : t.ovr = s.ovr := (congrArg State.ovr hkeeps :)
  have hresults : t.results = s.results := (congrArg State.results hkeeps :)
  have hbusy : t.busy = true → s.busy = true := fun htb => by
    refine Bool.eq_true_of_not_eq_false fun hb => ?_
    cases (State.sequencerStep_of_idle (s.idle_iff.1 hb)).symm.trans ht
    exact absurd (hb.symm.trans htb) nofun
  refine ⟨hpending ▸ h.polls.mono hbusy, fun ho => ?_, hresults ▸ h.reads⟩
  rw [State.acceptsNext, hpending]
  exact h.ovr (hovr ▸ ho)

/-- Every turn keeps a polling host's OVR unseen, a reset event among them (70_reset_and_hazards.md R129). -/
theorem Polling.of_step (h : Polling r s) (ht : step s = .next t) : Polling r t := by
  have hpop : Polling r s.popSched := ⟨h.polls, h.ovr, h.reads⟩
  replace ht : turn s.nextAgent s.popSched = .next t := ht
  cases ha : s.nextAgent with
  | host => rw [ha] at ht; exact hpop.of_hostTurn ht
  | sequencer => rw [ha] at ht; exact hpop.of_sequencerStep ht
  | reset =>
    rw [ha] at ht
    cases ht
    exact ⟨h.polls.mono nofun, nofun, h.reads⟩

theorem Polling.of_run {n : Nat} (h : Polling r s) (ht : run n s = .next t) : Polling r t := by
  induction n generalizing s with
  | zero => cases ht; exact h
  | succ n ih =>
    rw [run_succ] at ht
    cases hs : step s with
    | next u => rw [hs] at ht; exact ih (h.of_step hs) ht
    | fault e => rw [hs] at ht; cases ht
    | refused e => rw [hs] at ht; cases ht

end

/-! ### The round trip -/

/-- An operation with a busy window, and `poll` to its end: the block is as the sequencer's micro-steps leave it. -/
theorem Ready.reaches_window {s t u : State} {w : Txn} {m : Nat} {rest : List HostOp}
    (h : Ready s (.txn w :: .poll :: rest)) (hrun : sequencerRun m t = .next u) (hu : u.busy = false)
    (hstart : ∀ ops l, exec (decode w) ((s.setPending ops).setSched l) = .next ((t.setPending ops).setSched l)) :
    ∃ o l r d, Reaches s (u.setHostSide o rest l r d) ∧ Ready (u.setHostSide o rest l r d) rest := by
  obtain ⟨l, hready, hexec⟩ := h.reaches_txn
  obtain ⟨l', r, hl', hpoll⟩ := reaches_poll_setHostSide (o := t.ovr) (rest := rest) (d := t.draws) hu hrun
    hready.noReset t.results
  exact ⟨_, l', r, _, (hexec _ (hstart _ l)).trans hpoll, hu, hl', rfl⟩

/-- BUILD, and `poll` to the end of its window: BUF holds the built frame (41_frame.md R84). -/
theorem Ready.reaches_build {s : State} {a c : Byte} {ps : List Byte} {rest : List HostOp}
    (h : Ready s (.txn 0x40004#19 :: .poll :: rest)) (hl : s.len.toNat ≤ 256)
    (hf : s.buf.slice 0 s.len.toNat = some (a :: c :: ps)) :
    ∃ t, Reaches s t ∧ Ready t rest ∧ t.len.toNat = s.len.toNat + 2 ∧
      t.buf.slice 0 t.len.toNat = some (buildFrame a c ps) := by
  obtain ⟨o, l, r, d, hrun, hready⟩ := h.reaches_window (sequencerRun_build (s := s.acceptCmd 0x04#8) hf hl) rfl
    fun ops l => exec_buildWord_started (s := (s.setPending ops).setSched l) h.idle hl hf
  have hlen := State.afterBuild_len (s := s.acceptCmd 0x04#8) (crc16 (a :: c :: ps)) hl
  have hslice := State.afterBuild_slice (s := s.acceptCmd 0x04#8) (crc16 (a :: c :: ps)) hf
  rw [← hlen, ← buildFrame_eq] at hslice
  exact ⟨_, hrun, hready, hlen, hslice⟩

/-- PARSE of a frame in BUF, and `poll` to the end of its window: the registers say what `parse` answers (41_frame.md
R87). -/
theorem Ready.reaches_parse {s : State} {f : List Byte} {rest : List HostOp}
    (h : Ready s (.txn 0x40005#19 :: .poll :: rest)) (h4 : 4 ≤ s.len.toNat) (hl : s.len.toNat ≤ 258)
    (hf : s.buf.slice 0 s.len.toNat = some f) :
    ∃ t, Reaches s t ∧ Ready t rest ∧ t.Records (parseFrame f s.expAddr) := by
  obtain ⟨a, p, g, x, rfl⟩ := exists_frame_parts (Memory.slice_length hf ▸ h4)
  obtain ⟨o, l, r, d, hrun, hready⟩ := h.reaches_window (sequencerRun_parse (s := s.acceptCmd 0x05#8) hl hf) rfl
    fun ops l => exec_parseWord_started (s := (s.setPending ops).setSched l) hl hf h.idle
  exact ⟨_, hrun, hready, (State.afterParse_records (s := s.acceptCmd 0x05#8) hl hf rfl).setHostSide o rest l r d⟩

theorem decode_expAddrWord (v : Byte) : decode (0x40400#19 ||| v.setWidth 19) = .wrExpAddr v :=
  (congrArg decode (encodeWrite_zero_or 0x004#10 v)).symm.trans (decode_encodeWrite _ _)

/-- The program of 41_frame.md R91, with the address byte it expects. -/
def roundTrip (a : Byte) : List HostOp :=
  [.txn 0x40004#19, .poll, .txn (0x40400#19 ||| a.setWidth 19), .txn 0x40005#19, .poll]

theorem roundTrip_polls (a : Byte) : Polls (roundTrip a) false := by
  have hbuild : decode 0x40004#19 = .build := decode_cmdWord 0x04#8
  have hparse : decode 0x40005#19 = .parse := decode_cmdWord 0x05#8
  simp [roundTrip, Polls, hbuild, hparse, decode_expAddrWord, Instr.isWrite, Instr.accepts]

/-- The registers at the end of the round trip (41_frame.md R91). -/
theorem Ready.reaches_roundTrip {s : State} {a c : Byte} {ps : List Byte} (h : Ready s (roundTrip a))
    (hl : s.len.toNat ≤ 256) (hf : s.buf.slice 0 s.len.toNat = some (a :: c :: ps)) :
    ∃ t, Reaches s t ∧ Ready t [] ∧ t.Records (.ok (c :: ps)) := by
  have hlen : ps.length + 2 = s.len.toNat := Memory.slice_length hf
  obtain ⟨t, hbuild, ht, htlen, htbuf⟩ := h.reaches_build hl hf
  obtain ⟨l, haddr, hready⟩ := ht.reaches_immediate (decode_expAddrWord a) (fun _ hb => exec_wrExpAddr_idle hb a)
    fun _ => ⟨rfl, rfl, rfl⟩
  obtain ⟨u, hparse, hu, hrecords⟩ := hready.reaches_parse (show 4 ≤ t.len.toNat by omega)
    (show t.len.toNat ≤ 258 by omega) htbuf
  have hinverse : parseFrame (buildFrame a c ps) a = .ok (c :: ps) := parseOfBuild a c ps (by omega)
  exact ⟨u, (hbuild.trans haddr).trans hparse, hu, hinverse ▸ hrecords⟩

/-- Settles O45: the registers by the two windows, the STATUS bytes by the host that polls. -/
theorem buildThenParseRoundTrip : Obligations.BuildThenParseRoundTrip := by
  intro s a c ps hb hr hl hf hp
  have hlen : ps.length + 2 = s.len.toNat := Memory.slice_length hf
  obtain ⟨t, ⟨n, hrun⟩, ht, herr, -, hplen, -, -, hslice, hsent⟩ := Ready.reaches_roundTrip ⟨hb, hr, hp⟩ hl hf
  have hstart : Polling s.results s :=
    ⟨by rw [hp, hb]; exact roundTrip_polls a, fun _ => ⟨_, _, hp, by decide⟩, [], rfl, nofun⟩
  have hend : Polling s.results t := hstart.of_run hrun
  have hpayload : (c :: ps).length = s.len.toNat - 1 := by
    rw [List.length_cons]
    omega
  have hsentinel : c :: ps = [0x05#8] ↔ s.len.toNat = 2 ∧ c = 0x05#8 := by
    rw [List.cons_eq_cons, ← List.length_eq_zero_iff, and_comm]
    exact and_congr_left' (by omega)
  rw [hpayload] at hplen hslice
  exact ⟨n, t, hrun, ⟨ht.pending, ht.idle⟩, herr, hplen, hslice, hsent.trans hsentinel,
    hend.ovr_eq_false ht.pending nofun, hend.reads⟩

end Sys2Proof.Machine
end

section
/-! CLAIM. The host accesses on the idle block: NOP, an illegal command, every read and every plain write; and the one
thing that stops the machine. -/

namespace Sys2Proof

/-- The word of a write as a number (30_encoding.md R53). -/
theorem decode_writeNumber (a : Addr) (d : Byte) :
    decode (BitVec.ofNat 19 (0x40000 + a.toNat * 256 + d.toNat)) = decodeWrite a d := by
  rw [← encodeWrite_eq_ofNat, decode_encodeWrite]

/-- The word of a read as a number, its D field 0 (30_encoding.md R53). -/
theorem decode_readNumber (a : Addr) : decode (BitVec.ofNat 19 (a.toNat * 256)) = .rd a := by
  have ha := a.isLt
  refine decode_of_toNat_read (d := 0) (by decide) ?_
  rw [BitVec.toNat_ofNat]
  omega

end Sys2Proof

namespace Sys2Proof.Machine

/-! ### What can stop the machine -/

/-- The outcome is a next state, or the fault of a byte of BUF that `m` does not hold (10_state.md R30). -/
inductive OnlyUnwritten (m : Memory) : Result → Prop
  | next (t : State) : OnlyUnwritten m (.next t)
  | unwritten {i : Nat} (hi : i < Config.bufSize) (h : m.readByte i = none) :
      OnlyUnwritten m (.fault (.unwrittenBufRead i))

theorem OnlyUnwritten.not_refused {m : Memory} {x : Result} (h : OnlyUnwritten m x) (r : Refusal) :
    x ≠ .refused r := by
  cases h <;> nofun

theorem OnlyUnwritten.fault {m : Memory} {f : Fault} (h : OnlyUnwritten m (.fault f)) :
    ∃ i, i < Config.bufSize ∧ m.readByte i = none ∧ f = .unwrittenBufRead i := by
  cases h with
  | unwritten hi h => exact ⟨_, hi, h, rfl⟩

theorem State.withBufByte_onlyUnwritten {s : State} {i : Nat} {go : Byte → Result} (hi : i < Config.bufSize)
    (hgo : ∀ b, OnlyUnwritten s.buf (go b)) : OnlyUnwritten s.buf (s.withBufByte i go) := by
  rcases s.withBufByte_cases i go with ⟨b, -, -, he⟩ | ⟨-, hb, he⟩ | ⟨hno, -⟩
  · exact he ▸ hgo b
  · exact he ▸ .unwritten hi hb
  · exact absurd hi hno

theorem State.hostWrite_onlyUnwritten {s : State} {go : State → Result} (hgo : OnlyUnwritten s.buf (go s)) :
    OnlyUnwritten s.buf (s.hostWrite go) :=
  iteInduction (fun _ => .next _) fun _ => hgo

theorem State.startOverBuf_onlyUnwritten (s : State) (c : Byte) (o : SeqOp) (n : Len) :
    OnlyUnwritten s.buf ((s.acceptCmd c).startOverBuf o n) :=
  State.withBufByte_onlyUnwritten (s := s.acceptCmd c) (by decide) fun _ => .next _

theorem execRd_onlyUnwritten (a : Addr) (s : State) : OnlyUnwritten s.buf (execRd a s) :=
  iteInduction (fun _ => iteInduction (fun _ => .next _) fun _ => .next _) fun _ =>
    iteInduction (fun ha => State.withBufByte_onlyUnwritten (bufIndex_lt_of_window ha) fun _ => .next _)
      fun _ => .next _

/-- A transaction of the encoding stops at nothing but an unwritten byte (42_host_access.md R106). -/
theorem exec_onlyUnwritten {i : Instr} (hi : i.WellFormed) (s : State) : OnlyUnwritten s.buf (exec i s) := by
  cases i with
  | rd a => exact execRd_onlyUnwritten a s
  | crcBuf =>
    apply State.hostWrite_onlyUnwritten
    exact iteInduction
      (fun _ => iteInduction (fun _ => .next _) fun _ => s.startOverBuf_onlyUnwritten _ _ _) fun _ => .next _
  | build =>
    apply State.hostWrite_onlyUnwritten
    exact iteInduction (fun _ => s.startOverBuf_onlyUnwritten _ _ _) fun _ => .next _
  | parse =>
    apply State.hostWrite_onlyUnwritten
    exact iteInduction (fun _ => s.startOverBuf_onlyUnwritten _ _ _) fun _ => .next _
  | wrBuf a v =>
    apply State.hostWrite_onlyUnwritten
    rw [s.storeBufByte_of_lt v _ (bufIndex_lt_of_window (of_decide_eq_true hi))]
    exact .next _
  | _ =>
    apply State.hostWrite_onlyUnwritten
    exact .next _

/-- A running operation feeds bytes of BUF only (10_state.md R31). -/
theorem Inv.endi_le_bufSize {s : State} (h : Inv s) (hb : s.busy = true) : s.endi.toNat ≤ Config.bufSize := by
  have hr := h.inRange hb
  rw [h.feedEnd hb, show Config.bufSize = 258 from rfl]
  cases ho : s.op <;> simp only [State.opInRange, State.feedCount, ho, decide_eq_true_eq] at hr ⊢ <;> omega

theorem State.feedStep_onlyUnwritten {s : State} (h : Inv s) (hp : s.phase = .feed) :
    OnlyUnwritten s.buf s.feedStep := by
  refine iteInduction (fun _ => iteInduction (fun _ => .next _) fun he => ?_) fun _ => .next _
  have hidx := h.feedIndex hp
  have hend := h.endi_le_bufSize (s.busy_iff.2 (by simp [hp]))
  exact State.withBufByte_onlyUnwritten (by bv_omega) fun _ => .next _

theorem State.finishParse_onlyUnwritten {s : State} (h4 : 4 ≤ s.len.toNat) (hl : s.len.toNat ≤ 258) :
    OnlyUnwritten s.buf s.finishParse := by
  refine withBufByte_onlyUnwritten (State.trailerLoIndex_lt h4 hl) fun lo =>
    withBufByte_onlyUnwritten (State.trailerHiIndex_lt h4 hl) fun hi => iteInduction (fun _ => ?_) fun _ => .next _
  refine withBufByte_onlyUnwritten (by decide) fun a => iteInduction (fun _ => ?_) fun _ => .next _
  exact iteInduction (fun _ => withBufByte_onlyUnwritten (by decide) fun _ => .next _) fun _ => .next _

theorem State.finishStep_onlyUnwritten {s : State} (h : Inv s) (hp : s.phase = .finish) :
    OnlyUnwritten s.buf s.finishStep := by
  have hr := h.inRange (s.busy_iff.2 (by simp [hp]))
  cases ho : s.op with
  | feedOp => rw [State.finishStep_crc (.inl ho)]; exact .next _
  | crcBuf => rw [State.finishStep_crc (.inr ho)]; exact .next _
  | build =>
    simp only [State.opInRange, ho, decide_eq_true_eq] at hr
    rw [State.finishStep_eq_built ho hr.2]
    exact .next _
  | parse =>
    simp only [State.opInRange, ho, decide_eq_true_eq] at hr
    rw [State.finishStep_of_parse ho]
    exact State.finishParse_onlyUnwritten hr.1 hr.2

theorem State.sequencerStep_onlyUnwritten {s : State} (h : Inv s) : OnlyUnwritten s.buf s.sequencerStep := by
  cases hp : s.phase with
  | idle => rw [State.sequencerStep_of_idle hp]; exact .next _
  | feed => rw [State.sequencerStep_of_feed hp]; exact State.feedStep_onlyUnwritten h hp
  | finish => rw [State.sequencerStep_of_finish hp]; exact State.finishStep_onlyUnwritten h hp

theorem hostTurn_onlyUnwritten (s : State) : OnlyUnwritten s.buf (hostTurn s) := by
  unfold hostTurn
  cases hf : s.fetch with
  | none => exact .next _
  | some i => exact s.popHost_buf ▸ exec_onlyUnwritten (State.fetch_wellFormed hf) s.popHost

theorem turn_onlyUnwritten {s : State} (h : Inv s) (a : Agent) : OnlyUnwritten s.buf (turn a s) := by
  cases a with
  | host => exact hostTurn_onlyUnwritten s
  | sequencer => exact State.sequencerStep_onlyUnwritten h
  | reset => exact .next _

/-- Settles O51, by the agent that moves. -/
theorem onlyAnUnwrittenByteStopsTheMachine : Obligations.OnlyAnUnwrittenByteStopsTheMachine := by
  intro s hs
  have h : OnlyUnwritten s.buf (step s) := turn_onlyUnwritten hs.popSched s.nextAgent
  refine ⟨fun f hf => ?_, h.not_refused⟩
  obtain ⟨i, hi, hb, rfl⟩ := (hf ▸ h).fault
  exact ⟨i, Nat.le_of_lt_succ hi, by rw [State.wbuf, hb]; rfl, rfl⟩

/-! ### Reads -/

theorem lenLo_eq_ofNat (n : Len) : lenLo n = BitVec.ofNat 8 (n.toNat % 256) := by
  rw [← lenLo_toNat, BitVec.ofNat_toNat, BitVec.setWidth_eq]

theorem lenHi_eq_ofNat (n : Len) : lenHi n = BitVec.ofNat 8 (n.toNat / 256) := by
  rw [← lenHi_toNat, BitVec.ofNat_toNat, BitVec.setWidth_eq]

/-- `BUF+i` is the number 0x100 + i (20_memory.md R39). -/
theorem bufAddr_eq_ofNat (i : Nat) : bufAddr i = BitVec.ofNat 10 (0x100 + i) :=
  (BitVec.ofNat_add 0x100 i).symm

theorem not_bufWindow_of_reserved {a : Addr} (h : reservedAddr a) : ¬bufWindow a := by
  simp only [reservedAddr, bufWindow] at h ⊢
  omega

/-- The reserved addresses read 0x00 (20_memory.md R41). -/
theorem State.registerByte_of_reserved (s : State) {a : Addr} (h : reservedAddr a) : s.registerByte a = 0x00#8 := by
  have hne : ∀ n ≤ 0x00A, a ≠ BitVec.ofNat 10 n := by
    rintro n hn rfl
    simp only [reservedAddr, BitVec.toNat_ofNat] at h
    omega
  unfold State.registerByte
  simp (disch := decide) only [hne, if_false]

theorem exec_rd_unwritten {s : State} {a : Addr} (hb : s.busy = false) (ha : bufWindow a)
    (hr : s.buf.readByte (bufIndex a) = none) : exec (.rd a) s = .fault (.unwrittenBufRead (bufIndex a)) := by
  rw [exec_rd_idle hb, State.readIdle, if_pos ha, State.withBufByte_of_unwritten _ (bufIndex_lt_of_window ha) hr]

/-- Settles O16, row by row of the table of 42_host_access.md R95. -/
theorem idleReadReturnsTheTable : Obligations.IdleReadReturnsTheTable := by
  intro s hb got
  have register (a : Addr) {b : Byte} (ha : ¬bufWindow a) (hr : s.registerByte a = b) : exec (.rd a) s = got b :=
    exec_rd_register hb ha hr
  refine ⟨decode_readNumber, register _ (by decide) rfl, register _ (by decide) rfl,
    register 0x002#10 (by decide) (lenLo_eq_ofNat s.len), register 0x003#10 (by decide) (lenHi_eq_ofNat s.len),
    register _ (by decide) rfl, register 0x005#10 (by decide) (crcLo_eq_ofNat s.crc),
    register 0x006#10 (by decide) (crcHi_eq_ofNat s.crc), register _ (by decide) rfl, register _ (by decide) rfl,
    register _ (by decide) rfl, register _ (by decide) rfl,
    fun a ha => register a (not_bufWindow_of_reserved ha) (s.registerByte_of_reserved ha),
    fun i hi b hr => ?_, fun i hi hw => ?_⟩
  all_goals
    have hwin : bufWindow (bufAddr i) := bufWindow_bufAddr (Nat.lt_succ_of_le hi)
    have hidx : bufIndex (bufAddr i) = i := bufIndex_bufAddr (Nat.lt_succ_of_le hi)
    rw [← bufAddr_eq_ofNat]
  · exact exec_rd_buf hb hwin (hidx.symm ▸ hr)
  · rw [exec_rd_unwritten hb hwin (hidx.symm ▸ State.readByte_of_not_wbuf hw), hidx]

/-! ### Commands that only set flags -/

theorem exec_nop_idle {s : State} (hb : s.busy = false) : exec .nop s = .next (s.acceptCmd 0x00#8).complete := by
  simp only [exec, execNop, State.hostWrite_idle _ hb]

/-- Settles O14. -/
theorem nopClearsTheFlags : Obligations.NopClearsTheFlags :=
  fun _ hb => ⟨decode_cmdWord 0x00#8, exec_nop_idle hb⟩

/-- Settles O15. -/
theorem illegalCommandSetsCmderr : Obligations.IllegalCommandSetsCmderr :=
  fun _ c hc hb => ⟨(decode_writeNumber 0x000#10 c).trans (decodeCmd_of_illegal hc), exec_cmdIllegal_idle hb c⟩

/-! ### Plain writes -/

theorem withLenLo_eq_ofNat (n : Len) (v : Byte) :
    withLenLo n v = BitVec.ofNat 9 (n.toNat / 256 * 256 + v.toNat) := by
  rw [← withLenLo_toNat, BitVec.ofNat_toNat, BitVec.setWidth_eq]

theorem withLenHi_eq_ofNat (n : Len) (v : Byte) :
    withLenHi n v = BitVec.ofNat 9 (v.toNat % 2 * 256 + n.toNat % 256) := by
  rw [← withLenHi_toNat, BitVec.ofNat_toNat, BitVec.setWidth_eq]

/-- Settles O18. -/
theorem writeLenLo : Obligations.WriteLenLo := by
  intro s v hb
  refine ⟨decode_writeNumber 0x002#10 v, ?_⟩
  rw [exec_wrLenLo_idle hb, withLenLo_eq_ofNat, State.setLen]

/-- Settles O19. -/
theorem writeLenHi : Obligations.WriteLenHi := by
  intro s v hb
  refine ⟨decode_writeNumber 0x003#10 v, ?_⟩
  rw [exec_wrLenHi_idle hb, withLenHi_eq_ofNat, State.setLen]

/-- Settles O20. -/
theorem writeOperandRegisters : Obligations.WriteOperandRegisters :=
  fun _ v hb => ⟨decode_writeNumber 0x004#10 v, decode_candLoWord v, decode_writeNumber 0x00A#10 v,
    exec_wrExpAddr_idle hb v, exec_wrCandLo_idle hb v, exec_wrCandHi_idle hb v⟩

/-- Settles O21: the laws of a byte's write in BUF. -/
theorem writeBufStoresOneByte : Obligations.WriteBufStoresOneByte := by
  intro s i v hi hb
  have hlt : i < 258 := Nat.lt_succ_of_le hi
  rw [← bufAddr_eq_ofNat, ← bufAddr_toNat hlt, decode_writeNumber, exec_wrBuf_idle hb (bufWindow_bufAddr hlt),
    bufIndex_bufAddr hlt]
  exact ⟨decodeWrite_of_bufWindow v (bufWindow_bufAddr hlt), s.buf.writeByte i v, rfl,
    Memory.readByte_writeByte_same _ _ _, fun j hj => Memory.readByte_writeByte_other _ v hj,
    fun hm => Memory.writeByte_wf v hm hlt⟩

/-- Settles O22. -/
theorem ignoredWritesChangeNothing : Obligations.IgnoredWritesChangeNothing :=
  fun _ a v hb =>
    ⟨fun ha => ⟨(decode_writeNumber a v).trans (decodeWrite_of_readOnly v ha), exec_wrRo_idle hb a v⟩,
      fun ha => ⟨(decode_writeNumber a v).trans (decodeWrite_of_reserved v ha), exec_wrRsvd_idle hb a v⟩⟩

end Sys2Proof.Machine
end

section
/-! CLAIM. A busy window is bounded: the measure falls with every micro-step, and with the schedule used up every
operation ends. -/

namespace Sys2Proof.Machine

/-! ### The measure -/

/-- The longest window is CRC_BUF's over the whole of BUF: 8 * 258 + 1 micro-steps (60_exceptions.md R117). -/
theorem Inv.remaining_le {s : State} (h : Inv s) : s.remaining ≤ 2065 := by
  cases hp : s.phase with
  | idle => simp [State.remaining_of_idle hp]
  | feed =>
    have hend : s.endi.toNat ≤ 258 := h.endi_le_bufSize (s.busy_iff.2 (by simp [hp]))
    rw [State.remaining_of_feed hp]
    omega
  | finish => simp [State.remaining_of_finish hp]

/-- A window that has begun has its finish micro-step to come (10_state.md R31). -/
theorem State.remaining_pos {s : State} (hb : s.busy = true) : 1 ≤ s.remaining := by
  cases hp : s.phase with
  | idle => exact absurd hp (s.busy_iff.1 hb)
  | feed => rw [State.remaining_of_feed hp]; omega
  | finish => rw [State.remaining_of_finish hp]

/-- Settles O49: the bound from `endi`, and the decrease by what a micro-step can do. -/
theorem busyWindowIsBounded : Obligations.BusyWindowIsBounded := fun _ hs =>
  ⟨hs.remaining_le, State.remaining_pos, fun _ hb ht => (MicroStep.of_sequencerStep ht).remaining_succ hs hb⟩

/-! ### The end of a window -/

/-- The micro-step that ends a window sets DONE (10_state.md R24, R33). -/
theorem MicroStep.done_of_end {s t : State} (h : MicroStep s t) (hb : s.busy = true) (ht : t.busy = false) :
    t.done = true := by
  cases h with
  | idle => exact absurd (hb.symm.trans ht) nofun
  | bit hp => exact absurd (hp.symm.trans (s.feedBit.idle_iff.1 ht)) nofun
  | lastBit => exact absurd ht nofun
  | nextByte hp _ _ b => exact absurd (hp.symm.trans ((s.feedNextByte b).idle_iff.1 ht)) nofun
  | _ => rfl

/-- With the schedule used up the sequencer moves alone, so a window lasts its measure: after `s.remaining` steps the
operation has completed, unless it has stopped at an unwritten byte of BUF. -/
theorem run_remaining {n : Nat} {s : State} (hs : Inv s) (hq : s.sched = []) (hb : s.busy = true)
    (hn : s.remaining = n) :
    (∃ t, run n s = .next t ∧ t.busy = false ∧ t.done = true) ∨ ∃ i, run n s = .fault (.unwrittenBufRead i) := by
  induction n generalizing s with
  | zero => exact absurd (State.remaining_pos hb) (by omega)
  | succ n ih =>
    have hstep : step s = s.sequencerStep := by rw [step_of_no_sched hq, hb]; rfl
    have honly : OnlyUnwritten s.buf (step s) := hstep ▸ State.sequencerStep_onlyUnwritten hs
    cases ht : step s with
    | next t =>
      have hseq := hstep.symm.trans ht
      have hm := MicroStep.of_sequencerStep hseq
      have hrem := hm.remaining_succ hs hb
      cases htb : t.busy with
      | true =>
        have hq' : t.sched = [] := (congrArg State.sched (State.sequencerStep_keeps_hostSide hseq)).trans hq
        rw [run_succ_of_next n ht]
        exact ih (hm.keeps_inv hs) hq' htb (by omega)
      | false =>
        have hend := State.remaining_of_idle (t.idle_iff.1 htb)
        obtain rfl : n = 0 := by omega
        exact .inl ⟨t, (run_one s).trans ht, htb, hm.done_of_end hb htb⟩
    | fault e =>
      obtain ⟨i, -, -, rfl⟩ := (ht ▸ honly).fault
      exact .inr ⟨i, run_succ_of_fault n ht⟩
    | refused r => exact absurd ht (honly.not_refused r)

/-- Settles O50: the steps left are the measure. -/
theorem everyOperationEnds : Obligations.EveryOperationEnds := fun s hs hq hb =>
  ⟨s.remaining, hs.remaining_le, run_remaining hs hq hb rfl⟩

end Sys2Proof.Machine
end

section
/-! CLAIM. Reset, and the two hazards of a busy window: a write is dropped with OVR, a read returns STATUS or a draw. -/

namespace Sys2Proof.Machine

/-! ### The reset event -/

/-- The turn of a reset event by the schedule (20_memory.md R47). -/
theorem step_of_reset {s : State} {r : List Agent} (h : s.sched = .reset :: r) :
    step s = .next (s.setSched r).resetEvent := step_of_sched h

/-- To the block a reset event is the machine after reset; only the host's side tells the two apart
(70_reset_and_hazards.md R121; notes/assumptions/7.md). -/
theorem State.resetEvent_eq_setHostSide (s : State) :
    s.resetEvent = State.reset.setHostSide false s.pending s.sched s.results s.draws := rfl

/-- Settles O11: the values of the machine after reset, which the host's side does not touch. -/
theorem resetSetsEveryRegister : Obligations.ResetSetsEveryRegister := by
  unfold Obligations.ResetSetsEveryRegister
  intro fresh
  have hreset : fresh State.reset := by decide
  have hhost (p : List HostOp) (l : List Agent) (b : List Byte) (d : Nat) :
      fresh (State.reset.setHostSide false p l b d) := hreset
  refine ⟨hreset, fun s r hs => ⟨_, step_of_reset hs, ?_⟩⟩
  rw [State.resetEvent_eq_setHostSide]
  exact hhost _ _ _ _

theorem State.resetEvent_wbuf (s : State) (i : Nat) : s.resetEvent.wbuf i = false := rfl

/-- Settles O12: the block is idle after the event, so a read of the window is a read of an unwritten byte of BUF. -/
theorem resetLeavesBufUnwritten : Obligations.ResetLeavesBufUnwritten := by
  intro s r hs
  refine ⟨_, step_of_reset hs, State.resetEvent_wbuf _, fun a hlo hhi => ?_, rfl, rfl, rfl, rfl⟩
  have hwin : bufWindow a := ⟨hlo, hhi⟩
  rw [exec_rd_unwritten (State.resetEvent_busy _) hwin (State.readByte_of_not_wbuf (State.resetEvent_wbuf _ _)),
    bufIndex_of_window hwin]

/-- Settles O52. -/
theorem resetMeetsTheInvariant : Obligations.ResetMeetsTheInvariant := inv_reset

/-! ### Host accesses in a busy window -/

theorem exec_rd_busy {s : State} (hb : s.busy = true) (a : Addr) : exec (.rd a) s = s.readBusy a := by
  simp [exec, execRd, hb]

/-- Settles O17: STATUS, and every other address. -/
theorem busyReadReturnsADraw : Obligations.BusyReadReturnsADraw := by
  intro s a hb
  rw [exec_rd_busy hb, State.readBusy]
  split_ifs with ha
  · rfl
  · rfl

/-- Settles O23: whatever the address, the word is a write, and every write is dropped while busy. -/
theorem busyWriteIsDropped : Obligations.BusyWriteIsDropped := by
  intro s a v hb
  rw [decode_writeWord]
  exact exec_write_busy hb (decodeWrite_isWrite a v)

end Sys2Proof.Machine
end
